-- ==== Sys2Proof/Word.lean ====
section
/-! DEFINITION. The words of the LoRa register-protocol block: a byte, a chip register address and a command word. -/
namespace Sys2Proof

/-- One byte, unsigned in [0, 255] (00_scope.md R8). -/
abbrev Byte := BitVec 8

/-- A chip register address, 7 bits (20_memory.md R62). -/
abbrev Addr := BitVec 7

/-- A command word `CW` (30_encoding.md R95). -/
abbrev CommandWord := BitVec 32

/-- The 16 bits of a bus frame, byte 0 in bits 15:8 (30_encoding.md R90). -/
abbrev FrameWord := BitVec 16

end Sys2Proof
end

