-- ==== Sys2Proof/Config.lean ====
section
/-! DEFINITION. What is fixed for one machine: the types of the implementation parameters (00_scope.md R7), the types of
what the outside supplies, and the free values, which have no body (20_memory.md R60, 60_exceptions.md R277).
The parameters' default values stand in Machine/Defaults.lean. -/
namespace Sys2Proof

/-- The ten bandwidths (42_modem_config.md R170). -/
inductive Bandwidth where
  | khz7p8 | khz10p4 | khz15p6 | khz20p8 | khz31p25 | khz41p7 | khz62p5 | khz125 | khz250 | khz500
deriving DecidableEq, Repr

/-- The four coding rates (42_modem_config.md R170). -/
inductive CodingRate where
  | cr4of5 | cr4of6 | cr4of7 | cr4of8
deriving DecidableEq, Repr

/-- The two header modes (42_modem_config.md R170). -/
inductive HeaderMode where
  | explicit | implicit
deriving DecidableEq, Repr

/-- The three states of the mode state machine (43_mode.md R190). -/
inductive OpMode where
  | sleep | standby | receiveContinuous
deriving DecidableEq, Repr

/-- The chip registers by role (10_state.md R40). -/
inductive Role where
  | fifo | opMode | frfMsb | frfMid | frfLsb | fifoAddrPtr | fifoTxBase | fifoRxBase | fifoRxCur | irqFlags
  | rxNbBytes | hdrCntMsb | hdrCntLsb | pktCntMsb | pktCntLsb | pktSnr | pktRssi | modemCfg1 | modemCfg2 | version
deriving DecidableEq, Repr

/-- `FREQ_ARITH` (00_scope.md R7). -/
inductive FreqArith where
  | exact | binary64
deriving DecidableEq, Repr

/-- `BURST_MODE` (00_scope.md R7). -/
inductive BurstMode where
  | source | corrected
deriving DecidableEq, Repr

/-- `REG_ADDR`, one address for each role (00_scope.md R7). -/
structure RegAddr where
  fifo : Addr
  opMode : Addr
  frfMsb : Addr
  frfMid : Addr
  frfLsb : Addr
  fifoAddrPtr : Addr
  fifoTxBase : Addr
  fifoRxBase : Addr
  fifoRxCur : Addr
  irqFlags : Addr
  rxNbBytes : Addr
  hdrCntMsb : Addr
  hdrCntLsb : Addr
  pktCntMsb : Addr
  pktCntLsb : Addr
  pktSnr : Addr
  pktRssi : Addr
  modemCfg1 : Addr
  modemCfg2 : Addr
  version : Addr
deriving DecidableEq, Repr

/-- `BW_CODE`, one 4-bit code for each bandwidth (00_scope.md R7). -/
structure BwCode where
  khz7p8 : BitVec 4
  khz10p4 : BitVec 4
  khz15p6 : BitVec 4
  khz20p8 : BitVec 4
  khz31p25 : BitVec 4
  khz41p7 : BitVec 4
  khz62p5 : BitVec 4
  khz125 : BitVec 4
  khz250 : BitVec 4
  khz500 : BitVec 4
deriving DecidableEq, Repr

/-- `CR_CODE`, one 3-bit code for each coding rate (00_scope.md R7). -/
structure CrCode where
  cr4of5 : BitVec 3
  cr4of6 : BitVec 3
  cr4of7 : BitVec 3
  cr4of8 : BitVec 3
deriving DecidableEq, Repr

/-- `MODE_CODE`, one 3-bit code for each mode (00_scope.md R7). -/
structure ModeCode where
  sleep : BitVec 3
  standby : BitVec 3
  receiveContinuous : BitVec 3
deriving DecidableEq, Repr

/-- The implementation parameters, "each a named argument of the model" (00_scope.md R7). -/
structure Params where
  regAddr : RegAddr
  bwCode : BwCode
  crCode : CrCode
  loraFlag : Byte
  modeCode : ModeCode
  freqArith : FreqArith
  burstMode : BurstMode
  fifoTxBase : Byte
  fifoRxBase : Byte
  expectedVersion : Byte
  initStandby : Bool
deriving DecidableEq, Repr

/-- The transport's answer to one exchange: any integer length and any finite byte sequence (20_memory.md R60). -/
structure Answer where
  length : Int
  bytes : List Byte
deriving DecidableEq, Repr, Inhabited

/-- The two agents that take the lock (60_exceptions.md R287); also the holder that `OWNER` names (10_state.md R22). -/
inductive Agent where
  | command | service
deriving DecidableEq, Repr, Inhabited

/-- The frequency operand `MHZ_IN`: a rational number of MHz, or the 64 bits of an IEEE binary64 value (41_frequency.md R150). -/
inductive Mhz where
  | rational (q : Rat)
  | binary64 (bits : BitVec 64)
deriving DecidableEq, Repr

/-- FREE VALUE (log 1): the transport's answer to the n-th exchange that neither the listed answers nor an attached
reference chip answers. "Any value: the model takes the value from the oracle" (20_memory.md R60, 93 U1). -/
opaque Config.transportDraw : Nat → Answer

/-- FREE VALUE (log 2): which waiting agent takes the lock at the n-th choice that no listed grant decides.
"Any order; proofs must hold for both" (60_exceptions.md R277, 93 U17). -/
opaque Config.grantDraw : Nat → Agent

end Sys2Proof
end

