-- ==== Sys2Proof/Machine/Binary64.lean ====
section
/-! DEFINITION. IEEE 754 binary64 values as exact rationals, rounded to nearest, ties to even (41_frequency.md R151,
93 G8: PRESUMED, log 12). `none` stands for NaN and the infinities, which R151 treats alike. -/
namespace Sys2Proof.Machine

/-- 2 to the power `e`, exactly. -/
def pow2 (e : Int) : Rat := if 0 ≤ e then mkRat (2 ^ e.toNat) 1 else mkRat 1 (2 ^ (-e).toNat)

/-- The quotient `n / d` rounded to the nearest natural number, ties to even. -/
def roundHalfEven (n d : Nat) : Nat :=
  let m := n / d
  let r := n % d
  if 2 * r < d then m else if 2 * r > d then m + 1 else if m % 2 = 0 then m else m + 1

/-- The exponent `e` with 2^e ≤ n/d < 2^(e+1), for positive n and d. -/
def floorLog2 (n d : Nat) : Int :=
  let e : Int := (n.log2 : Int) - d.log2
  if (if 0 ≤ e then d * 2 ^ e.toNat ≤ n else d ≤ n * 2 ^ (-e).toNat) then e else e - 1

/-- `fl64`: the binary64 value nearest to a rational, `none` when it rounds to an infinity (41_frequency.md R151). -/
def fl64 (q : Rat) : Option Rat :=
  if q.num = 0 then some 0
  else
    let n := q.num.natAbs
    let u := max (floorLog2 n q.den - 52) (-1074)
    let m := if 0 ≤ u then roundHalfEven n (q.den * 2 ^ u.toNat) else roundHalfEven (n * 2 ^ (-u).toNat) q.den
    let v := mkRat m 1 * pow2 u
    if pow2 1024 ≤ v then none else some (if q.num < 0 then -v else v)

/-- The rational value of 64 binary64 bits, `none` for NaN and the infinities; both zeros read as 0 (41_frequency.md R151). -/
def binary64Value (bits : BitVec 64) : Option Rat :=
  let sign : Bool := bits.getLsbD 63
  let e := (bits.extractLsb' 52 11).toNat
  let f := (bits.extractLsb' 0 52).toNat
  let v : Rat := if e = 0 then mkRat f 1 * pow2 (-1074) else mkRat (2 ^ 52 + f) 1 * pow2 ((e : Int) - 1075)
  if e = 2047 then none else some (if sign then -v else v)

end Sys2Proof.Machine
end

