-- ==== Sys2Proof/Syntax.lean ====
section
/-! DEFINITION. The instructions: one constructor for each row of the opcode table (30_encoding.md R97, R90).
MHZ_IN is no field of a word (R95): F2R, SFRQ and INIT read it from the port's side operand in State. -/
namespace Sys2Proof

/-- The fourteen command words and the two bus frames, with their fields as the word holds them (30_encoding.md R96, R90). -/
inductive Instr where
  /-- ENC, format CE: raw codes of the five fields (42_modem_config.md R172). -/
  | enc (bw : BitVec 4) (cr : BitVec 3) (hm : BitVec 1) (sf : BitVec 4) (crc : BitVec 1)
  /-- ENCP, format CP (42_modem_config.md R173). -/
  | encp (preset : BitVec 2)
  /-- F2R, format CX (41_frequency.md R152). -/
  | f2r
  /-- R2F, format CR (41_frequency.md R153). -/
  | r2f (msb mid lsb : Byte)
  /-- IRQD, format CI (44_irq_decoder.md R201). -/
  | irqd (byte : Byte)
  /-- SNRC, format CI (45_rx_sequencer.md R235). -/
  | snrc (byte : Byte)
  /-- RSSIC, format CI (45_rx_sequencer.md R236). -/
  | rssic (byte : Byte)
  /-- RD, format CB (40_register_access.md R130). -/
  | rd (addr : Addr)
  /-- WR, format CB (40_register_access.md R131). -/
  | wr (addr : Addr) (value : Byte)
  /-- BRD, format CB (40_register_access.md R132). -/
  | brd (addr : Addr) (length : Byte)
  /-- MODE, format CM (43_mode.md R191). -/
  | mode (mcode : BitVec 3)
  /-- SFRQ, format CX (41_frequency.md R154). -/
  | sfrq
  /-- SMDM, format CS (42_modem_config.md R174). -/
  | smdm (c1 c2 : Byte)
  /-- INIT, format CXP (70_reset_and_hazards.md R310). -/
  | init (preset : BitVec 2)
  /-- BUS_RD, the frame of a register read (30_encoding.md R90). -/
  | busRd (addr : Addr)
  /-- BUS_WR, the frame of a register write (30_encoding.md R90). -/
  | busWr (addr : Addr) (data : Byte)
deriving DecidableEq, Repr

end Sys2Proof
end

