-- ==== Sys2Proof/Machine/Legal.lean ====
section
/-! DEFINITION. The reserved operand values of each field (30_encoding.md R98). -/
namespace Sys2Proof.Machine

/-- A bandwidth code that is not reserved: 0 to 9 (30_encoding.md R98). -/
def legalBw (bw : BitVec 4) : Bool := bw.toNat ≤ 9

/-- A coding-rate code that is not reserved: 1 to 4 (30_encoding.md R98). -/
def legalCr (cr : BitVec 3) : Bool := 1 ≤ cr.toNat && cr.toNat ≤ 4

/-- A spreading factor that is not reserved: 6 to 12 (30_encoding.md R98). -/
def legalSf (sf : BitVec 4) : Bool := 6 ≤ sf.toNat && sf.toNat ≤ 12

/-- MCODE is one of the three `MODE_CODE` values (30_encoding.md R98, 43_mode.md R191). -/
def legalMode (p : Params) (m : BitVec 3) : Bool :=
  m = p.modeCode.sleep || m = p.modeCode.standby || m = p.modeCode.receiveContinuous

/-- A MODEM_CFG1 byte with no reserved field value (30_encoding.md R98, row SMDM; 10_state.md R42). -/
def legalCfg1 (c1 : Byte) : Bool := legalBw (c1.extractLsb' 4 4) && legalCr (c1.extractLsb' 1 3)

/-- A MODEM_CFG2 byte with no reserved field value and bits 3, 1 and 0 clear (30_encoding.md R98, row SMDM; 10_state.md R43). -/
def legalCfg2 (c2 : Byte) : Bool :=
  legalSf (c2.extractLsb' 4 4) && c2.extractLsb' 3 1 = 0#1 && c2.extractLsb' 0 2 = 0#2

end Sys2Proof.Machine
end

