-- ==== Sys2Proof/WellFormed.lean ====
section
/-! DEFINITION. Which instructions are well formed: every operand inside its domain (30_encoding.md R98).
A word with a reserved operand value still selects its row (R97); performing it raises ILLEGAL (R99). -/
namespace Sys2Proof
open Sys2Proof.Machine

/-- No operand holds a reserved value (30_encoding.md R98); MHZ_IN is checked when the command is performed. -/
def Instr.wellFormed (p : Params) : Instr → Bool
  | .enc bw cr _ sf _ => legalBw bw && legalCr cr && legalSf sf
  | .mode m => legalMode p m
  | .smdm c1 c2 => legalCfg1 c1 && legalCfg2 c2
  | .encp _ => true
  | .f2r => true
  | .r2f _ _ _ => true
  | .irqd _ => true
  | .snrc _ => true
  | .rssic _ => true
  | .rd _ => true
  | .wr _ _ => true
  | .brd _ _ => true
  | .sfrq => true
  | .init _ => true
  | .busRd _ => true
  | .busWr _ _ => true

end Sys2Proof
end

