-- ==== Sys2Proof/Decode.lean ====
section
/-! DEFINITION. The decoder of command words and bus frames (30_encoding.md R90, R91, R95 to R99), total on every word and
rejecting by name, and the encoder written from the same tables. -/
namespace Sys2Proof

/-- Why a word is no instruction. -/
inductive DecodeError where
  /-- OP is 0x0 or 0xF (30_encoding.md R97). -/
  | reservedOp (op : BitVec 4)
  /-- OP has a row but a must-be-zero bit is set (30_encoding.md R96, R97). -/
  | mbzSet (op : BitVec 4)
  /-- A read frame whose byte 1 is not 0x00: "unknown" (30_encoding.md R91). -/
  | unknownFrame
deriving DecidableEq, Repr

/-- The two kinds of words an instruction is encoded in. -/
inductive Encoded where
  | command (cw : CommandWord)
  | frame (w : FrameWord)
deriving DecidableEq, Repr

/-- OP = `CW[31:28]` (30_encoding.md R95). -/
def opOf (w : CommandWord) : BitVec 4 := w.extractLsb' 28 4

/-- The operation map: "a word selects a row when CW & mask = match" (30_encoding.md R97), with the fields of R96. -/
def decodeCommand (w : CommandWord) : Except DecodeError Instr :=
  if w &&& 0xF0007FFF#32 = 0x10000000#32 then
    .ok (.enc (w.extractLsb' 24 4) (w.extractLsb' 21 3) (w.extractLsb' 20 1) (w.extractLsb' 16 4) (w.extractLsb' 15 1))
  else if w &&& 0xFFFFFFFC#32 = 0x20000000#32 then .ok (.encp (w.extractLsb' 0 2))
  else if w &&& 0xFFFFFFFF#32 = 0x30000000#32 then .ok .f2r
  else if w &&& 0xFF000000#32 = 0x40000000#32 then
    .ok (.r2f (w.extractLsb' 16 8) (w.extractLsb' 8 8) (w.extractLsb' 0 8))
  else if w &&& 0xFFFFFF00#32 = 0x50000000#32 then .ok (.irqd (w.extractLsb' 0 8))
  else if w &&& 0xFFFFFF00#32 = 0x60000000#32 then .ok (.snrc (w.extractLsb' 0 8))
  else if w &&& 0xFFFFFF00#32 = 0x70000000#32 then .ok (.rssic (w.extractLsb' 0 8))
  else if w &&& 0xFFFF80FF#32 = 0x80000000#32 then .ok (.rd (w.extractLsb' 8 7))
  else if w &&& 0xFFFF8000#32 = 0x90000000#32 then .ok (.wr (w.extractLsb' 8 7) (w.extractLsb' 0 8))
  else if w &&& 0xFFFF8000#32 = 0xA0000000#32 then .ok (.brd (w.extractLsb' 8 7) (w.extractLsb' 0 8))
  else if w &&& 0xFFFFFFF8#32 = 0xB0000000#32 then .ok (.mode (w.extractLsb' 0 3))
  else if w &&& 0xFFFFFFFF#32 = 0xC0000000#32 then .ok .sfrq
  else if w &&& 0xFFFF0000#32 = 0xD0000000#32 then .ok (.smdm (w.extractLsb' 8 8) (w.extractLsb' 0 8))
  else if w &&& 0xFFFFFFFC#32 = 0xE0000000#32 then .ok (.init (w.extractLsb' 0 2))
  else if opOf w = 0x0#4 ∨ opOf w = 0xF#4 then .error (.reservedOp (opOf w))
  else .error (.mbzSet (opOf w))

/-- A row of the operation map (30_encoding.md R97): OP, match, mask, and whether the command makes bus transactions. -/
structure CommandRow where
  op : BitVec 4
  value : CommandWord
  mask : CommandWord
  bus : Bool
deriving DecidableEq, Repr

/-- The fourteen rows of the operation map that are not reserved, in the order of OP (30_encoding.md R97). -/
def commandRows : List CommandRow :=
  [⟨0x1, 0x10000000, 0xF0007FFF, false⟩, ⟨0x2, 0x20000000, 0xFFFFFFFC, false⟩, ⟨0x3, 0x30000000, 0xFFFFFFFF, false⟩,
   ⟨0x4, 0x40000000, 0xFF000000, false⟩, ⟨0x5, 0x50000000, 0xFFFFFF00, false⟩, ⟨0x6, 0x60000000, 0xFFFFFF00, false⟩,
   ⟨0x7, 0x70000000, 0xFFFFFF00, false⟩, ⟨0x8, 0x80000000, 0xFFFF80FF, true⟩, ⟨0x9, 0x90000000, 0xFFFF8000, true⟩,
   ⟨0xA, 0xA0000000, 0xFFFF8000, true⟩, ⟨0xB, 0xB0000000, 0xFFFFFFF8, true⟩, ⟨0xC, 0xC0000000, 0xFFFFFFFF, true⟩,
   ⟨0xD, 0xD0000000, 0xFFFF0000, true⟩, ⟨0xE, 0xE0000000, 0xFFFFFFFC, true⟩]

/-- The classification of a 16-bit frame: read, write or unknown (30_encoding.md R90, R91). -/
def decodeFrame (w : FrameWord) : Except DecodeError Instr :=
  if w &&& 0x8000#16 = 0x8000#16 then .ok (.busWr (w.extractLsb' 8 7) (w.extractLsb' 0 8))
  else if w &&& 0x80FF#16 = 0x0000#16 then .ok (.busRd (w.extractLsb' 8 7))
  else .error .unknownFrame

/-- The decoder: total, each word an instruction or a named rejection. -/
def decode : Encoded → Except DecodeError Instr
  | .command w => decodeCommand w
  | .frame w => decodeFrame w

/-- The word of an instruction, written from the formats of 30_encoding.md R96 and R90. -/
def encode : Instr → Encoded
  | .enc bw cr hm sf crc => .command (0x1#4 ++ bw ++ cr ++ hm ++ sf ++ crc ++ 0#15)
  | .encp preset => .command (0x2#4 ++ 0#26 ++ preset)
  | .f2r => .command 0x30000000#32
  | .r2f msb mid lsb => .command (0x4#4 ++ 0#4 ++ msb ++ mid ++ lsb)
  | .irqd byte => .command (0x5#4 ++ 0#20 ++ byte)
  | .snrc byte => .command (0x6#4 ++ 0#20 ++ byte)
  | .rssic byte => .command (0x7#4 ++ 0#20 ++ byte)
  | .rd addr => .command (0x8#4 ++ 0#13 ++ addr ++ 0#8)
  | .wr addr value => .command (0x9#4 ++ 0#13 ++ addr ++ value)
  | .brd addr length => .command (0xA#4 ++ 0#13 ++ addr ++ length)
  | .mode mcode => .command (0xB#4 ++ 0#25 ++ mcode)
  | .sfrq => .command 0xC0000000#32
  | .smdm c1 c2 => .command (0xD#4 ++ 0#12 ++ c1 ++ c2)
  | .init preset => .command (0xE#4 ++ 0#26 ++ preset)
  | .busRd addr => .frame (0#1 ++ addr ++ 0#8)
  | .busWr addr data => .frame (1#1 ++ addr ++ data)

/-- The command word of an instruction; a bus frame has none, and reads as the reserved word 0 here (no rule uses it). -/
def encodeCommand (i : Instr) : CommandWord :=
  match encode i with
  | .command w => w
  | .frame _ => 0#32

/-- The host's reading of an opcode-table word: 16 bits are a bus frame, anything else a command word. -/
def wordOfTable (nbits w : Nat) : Encoded :=
  if nbits = 16 then .frame (BitVec.ofNat 16 w) else .command (BitVec.ofNat 32 w)

/-- The instruction the decoder reads from a word numbered as spec/opcode_table.json numbers it. -/
def decodeTableWord (nbits w : Nat) : Option Instr :=
  match decode (wordOfTable nbits w) with
  | .ok i => some i
  | .error _ => none

end Sys2Proof
end

