-- ==== Sys2Proof/Machine/Defaults.lean ====
section
/-! DEFINITION. The parameters' default values (00_scope.md R7). The chip's addresses and codes are the SX1276 family's
(log 4: PRESUMED), but for the two codes the spec's worked value fixes. -/
namespace Sys2Proof.Machine

/-- `REG_ADDR`'s default, the SX1276 LoRa map (10_state.md R40). PRESUMED (log 4). -/
def defaultRegAddr : RegAddr where
  fifo := 0x00
  opMode := 0x01
  frfMsb := 0x06
  frfMid := 0x07
  frfLsb := 0x08
  fifoAddrPtr := 0x0D
  fifoTxBase := 0x0E
  fifoRxBase := 0x0F
  fifoRxCur := 0x10
  irqFlags := 0x12
  rxNbBytes := 0x13
  hdrCntMsb := 0x14
  hdrCntLsb := 0x15
  pktCntMsb := 0x16
  pktCntLsb := 0x17
  pktSnr := 0x19
  pktRssi := 0x1A
  modemCfg1 := 0x1D
  modemCfg2 := 0x1E
  version := 0x42

/-- `BW_CODE`'s default (42_modem_config.md R170). PRESUMED but for 125 kHz = 7 (log 4). -/
def defaultBwCode : BwCode where
  khz7p8 := 0
  khz10p4 := 1
  khz15p6 := 2
  khz20p8 := 3
  khz31p25 := 4
  khz41p7 := 5
  khz62p5 := 6
  khz125 := 7
  khz250 := 8
  khz500 := 9

/-- `CR_CODE`'s default (42_modem_config.md R170). PRESUMED but for 4/5 = 1 (log 4). -/
def defaultCrCode : CrCode where
  cr4of5 := 1
  cr4of6 := 2
  cr4of7 := 3
  cr4of8 := 4

/-- `MODE_CODE`'s default (10_state.md R41). PRESUMED (log 4). -/
def defaultModeCode : ModeCode where
  sleep := 0
  standby := 1
  receiveContinuous := 5

/-- Every parameter at its default (00_scope.md R7). -/
def defaultParams : Params where
  regAddr := defaultRegAddr
  bwCode := defaultBwCode
  crCode := defaultCrCode
  loraFlag := 0x80
  modeCode := defaultModeCode
  freqArith := .exact
  burstMode := .source
  fifoTxBase := 0x00
  fifoRxBase := 0x00
  expectedVersion := 0x12
  initStandby := false

end Sys2Proof.Machine
end

