-- ==== Sys2Proof/Machine/State.lean ====
section
/-! DEFINITION. The block's state as plain data (10_state.md R20 to R31, R53), the host's side of its ports (00_scope.md R6),
and the reasons a step can stop. -/
namespace Sys2Proof.Machine

/-- `PHASE` (10_state.md R21); the reserved value 3 is never held, so it has no constructor. -/
inductive Phase where
  | idle | run | halted
deriving DecidableEq, Repr

/-- `STEP`, the sequencer's program counter (10_state.md R23); the reserved codes are never held, so they have no constructor. -/
inductive SeqStep where
  | none
  | s0Irq | s1Len | s2aCur | s2bPtr | s3Burst | s4Split | s5aHmsb | s5bHlsb | s5cPmsb | s5dPlsb | s6Snr | s7Rssi | s8Ack
  | i0Rst | i1Ver | i2Sleep | i3aTxb | i3bRxb | i4aFmsb | i4bFmid | i4cFlsb | i5aCfg1 | i5bCfg2 | i5sStdby | i6Rxc
  | cmd
deriving DecidableEq, Repr

/-- A working register: its value, and whether anything has written it since block reset (00_scope.md R11). -/
structure Reg (α : Type) where
  value : α
  written : Bool
deriving DecidableEq, Repr

/-- The names of the working registers (10_state.md R26, R27). -/
inductive WorkReg where
  | irq | len | cur | cnt | buf | hdr | pay | tmp | hdrcnt | pktcnt | snrq | rssi | ver | frf | cfg1 | cfg2
deriving DecidableEq, Repr

/-- `HDR`: the packet header (10_state.md R26, 45_rx_sequencer.md R234). -/
structure Header where
  src : Byte
  dst : Byte
  id : Byte
  flg : Byte
deriving DecidableEq, Repr

/-- The error causes (60_exceptions.md R270). -/
inductive ErrCode where
  | none | transport | ident | framing | illegal | range | notPermitted
deriving DecidableEq, Repr

/-- What `ERR` records of one command or service (10_state.md R31), before it is packed. -/
structure ErrRec where
  code : ErrCode
  ackfail : Bool
  step : SeqStep
  addr : Addr
  aux : Byte
deriving DecidableEq, Repr

/-- A bus frame the block emits (30_encoding.md R90). -/
inductive Frame where
  | read (addr : Addr)
  | write (addr : Addr) (value : Byte)
deriving DecidableEq, Repr

/-- The fields of `RESP` beside its ERR field, as each command's rule names them (10_state.md R28). -/
inductive RespResult where
  /-- No field beside ERR is written: after reset, while a command runs, after a failure, and after SMDM. -/
  | empty
  /-- cfg1, cfg2 (ENC R172, ENCP R173). -/
  | config (cfg1 cfg2 : Byte)
  /-- frf, msb, mid, lsb (F2R R152). -/
  | f2r (frf : BitVec 24) (msb mid lsb : Byte)
  /-- mhz (R2F R153); a binary64 result is its exact rational value. -/
  | r2f (mhz : Rat)
  /-- flags, raw (IRQD R201). -/
  | irqd (flags : BitVec 10) (raw : Byte)
  /-- snrq, snr_db (SNRC R235). -/
  | snrc (snrq : Int) (snrDb : Rat)
  /-- rssi, 16-bit two's complement (RSSIC R236). -/
  | rssic (rssi : BitVec 16)
  /-- data (RD R130). -/
  | rd (data : Byte)
  /-- echo (WR R131). -/
  | wr (echo : Byte)
  /-- bytes (BRD R132). -/
  | brd (bytes : List Byte)
  /-- opmode (MODE R191; and an INIT in progress after `SetMode`'s last line, log 24). -/
  | mode (opmode : Byte)
  /-- frf (SFRQ R154). -/
  | sfrq (frf : BitVec 24)
  /-- opmode (INIT's last `SetMode`, R191 and R318, log 24), version, frf, cfg1, cfg2 (INIT R310). -/
  | init (opmode version : Byte) (frf : BitVec 24) (cfg1 cfg2 : Byte)
deriving DecidableEq, Repr

/-- `RESP` (10_state.md R28): the command's fields, and the ERR field. -/
structure Resp where
  result : RespResult
  err : Reg (BitVec 32)
deriving DecidableEq, Repr

/-- The Received Packet record (45_rx_sequencer.md R240). -/
structure Packet where
  src : Byte
  dst : Byte
  id : Byte
  flags : Byte
  payload : List Byte
  snrq : Int
  snrDb : Rat
  rssi : BitVec 16
  hdrcnt : BitVec 16
  pktcnt : BitVec 16
  irq : Byte
  crcError : Bool
deriving DecidableEq, Repr

/-- The events of the history (00_scope.md R12). -/
inductive Event where
  | bus (b0 b1 : Byte) (length : Int) (bytesIn : List Byte)
  | rst (level : Bool)
  | pkt (record : Packet)
  | err (word : BitVec 32)
  | edge
  | cmd (cw : CommandWord)
deriving DecidableEq, Repr

/-- Which command a job performs, with what its completion writes (40_register_access.md to 43_mode.md). -/
inductive JobKind where
  | rd | wr | brd
  | mode (mcode : BitVec 3)
  | sfrq (frf : BitVec 24)
  | smdm
deriving DecidableEq, Repr

/-- The command in progress while STEP = CMD: the transactions still to make, in order, and the bytes the earlier ones
returned (log 6). -/
structure Job where
  kind : JobKind
  todo : List Frame
  got : List Byte
deriving DecidableEq, Repr

/-- A command on the port: the word and its side operand (00_scope.md R6). -/
structure Offer where
  cw : CommandWord
  mhz : Mhz
deriving DecidableEq, Repr

/-- The host's input events (60_exceptions.md R290, 30_encoding.md R123). -/
inductive Input where
  /-- No input arrives before the block's next step. -/
  | quiet
  /-- A sample of IRQ_LINE (60_exceptions.md R280). -/
  | irqSample (level : Bool)
  /-- T_LOW_DONE (70_reset_and_hazards.md R311). -/
  | timerLow
  /-- T_HIGH_DONE (70_reset_and_hazards.md R311). -/
  | timerHigh
  /-- SHUTDOWN, at a transaction boundary (60_exceptions.md R292). -/
  | shutdown
  /-- SHUTDOWN while the transaction of the current step is in flight (60_exceptions.md R277, R292, log 25). -/
  | shutdownInFlight
  /-- BLOCK_RESET (70_reset_and_hazards.md R300). -/
  | blockReset
  /-- The host offers one more command (60_exceptions.md R276). -/
  | offer (o : Offer)
deriving DecidableEq, Repr

/-- `CHIP_REF`, the reference chip of the test vectors (20_memory.md R75): its register bytes, its FIFO bytes and its cursor. -/
structure RefChip where
  reg : List Host.Cell
  fifo : List Host.Cell
  ptr : Byte
deriving DecidableEq, Repr

/-- Why a step stops. -/
inductive Fault where
  /-- Raised by a bus frame or an internal step whose rule reads a register that nothing has written since block reset:
  the model fault `UnwrittenRead` (00_scope.md R11, 93 U16). SAFE: no run of the spec meets it. -/
  | unwrittenRead (r : WorkReg)
deriving DecidableEq, Repr

/-- Why an instruction has no meaning. -/
inductive Refusal where
  /-- Raised by exec for an instruction that has no meaning yet; no arm raises it now. SAFE: nothing is proved of it. -/
  | notModelled (mnemonic : String)
deriving DecidableEq, Repr

/-- The machine's state: the parameters, the block's tuple (10_state.md R20), and the host's side of the ports. -/
structure State where
  /-- The implementation parameters (00_scope.md R7); no step changes them (log 4). -/
  cfg : Params
  /-- PHASE (10_state.md R21). -/
  phase : Phase
  /-- BUSY (10_state.md R22). -/
  busy : Bool
  /-- OWNER (10_state.md R22). -/
  owner : Agent
  /-- STEP (10_state.md R23). -/
  step : SeqStep
  /-- PEND (10_state.md R25). -/
  pend : Bool
  /-- MODEV (10_state.md R25). -/
  modev : Bool
  /-- MODE (10_state.md R25). -/
  mode : BitVec 3
  /-- IRQ (10_state.md R26). -/
  irq : Reg Byte
  /-- LEN (10_state.md R26). -/
  len : Reg Byte
  /-- CUR (10_state.md R26). -/
  cur : Reg Byte
  /-- CNT (10_state.md R26). -/
  cnt : Reg Byte
  /-- BUF (10_state.md R26). -/
  buf : Reg (List Byte)
  /-- HDR (10_state.md R26). -/
  hdr : Reg Header
  /-- PAY (10_state.md R26). -/
  pay : Reg (List Byte)
  /-- TMP (10_state.md R26). -/
  tmp : Reg Byte
  /-- HDRCNT (10_state.md R26). -/
  hdrcnt : Reg (BitVec 16)
  /-- PKTCNT (10_state.md R26). -/
  pktcnt : Reg (BitVec 16)
  /-- SNRQ (10_state.md R26). -/
  snrq : Reg Int
  /-- RSSI, 16-bit two's complement (10_state.md R26). -/
  rssi : Reg (BitVec 16)
  /-- VER (10_state.md R27). -/
  ver : Reg Byte
  /-- FRF (10_state.md R27). -/
  frf : Reg (BitVec 24)
  /-- CFG1 (10_state.md R27). -/
  cfg1 : Reg Byte
  /-- CFG2 (10_state.md R27). -/
  cfg2 : Reg Byte
  /-- RESP (10_state.md R28). -/
  resp : Resp
  /-- ERR (10_state.md R31). -/
  err : BitVec 32
  /-- The output RST_N (00_scope.md R6). -/
  rstN : Bool
  /-- The history, oldest event first (00_scope.md R12). -/
  history : List Event
  /-- The service-local error record e, ackfail, estep, eaddr, eaux (45_rx_sequencer.md R220). -/
  svcErr : ErrRec
  /-- The command in progress while STEP = CMD (log 6). -/
  job : Option Job
  /-- The commands the host offers; the head stands on the port (60_exceptions.md R276). -/
  port : List Offer
  /-- MHZ_IN of the word being accepted (41_frequency.md R150). -/
  mhzIn : Mhz
  /-- The last sample of IRQ_LINE (60_exceptions.md R280). -/
  irqLine : Bool
  /-- The input events still to come (log 3). -/
  inputs : List Input
  /-- The transport's next answers (20_memory.md R60, log 1). -/
  answers : List Answer
  /-- MODEL'S OWN: how many free answers were taken (log 1). -/
  draws : Nat
  /-- The arbitration choices still to come (60_exceptions.md R277, log 2). -/
  grants : List Agent
  /-- MODEL'S OWN: how many free choices were taken (log 2). -/
  grantDraws : Nat
  /-- An attached reference chip, for the test vectors only (20_memory.md R75, log 16). -/
  chip : Option RefChip
deriving DecidableEq, Repr

/-- A register that holds the value `v` and no written mark (00_scope.md R11). -/
def Reg.unwritten {α : Type} (v : α) : Reg α := ⟨v, false⟩

/-- A register that holds the value `v` written. -/
def Reg.holding {α : Type} (v : α) : Reg α := ⟨v, true⟩

/-- The empty error record (45_rx_sequencer.md R220). -/
def ErrRec.clear : ErrRec := ⟨.none, false, .none, 0, 0⟩

/-- RESP with every field unwritten (10_state.md R53; 60_exceptions.md R276 `RESP <- {}`). -/
def Resp.unwritten : Resp := ⟨.empty, Reg.unwritten 0⟩

/-- The machine right after BLOCK_RESET (10_state.md R53, 70_reset_and_hazards.md R300), with the default parameters and
nothing on the host's side. The values under the unwritten marks are DESIGN CHOICE zeros (log 5). -/
def State.reset : State where
  cfg := defaultParams
  phase := .idle
  busy := false
  owner := .command
  step := .none
  pend := false
  modev := false
  mode := 0
  irq := Reg.unwritten 0
  len := Reg.unwritten 0
  cur := Reg.unwritten 0
  cnt := Reg.unwritten 0
  buf := Reg.unwritten []
  hdr := Reg.unwritten ⟨0, 0, 0, 0⟩
  pay := Reg.unwritten []
  tmp := Reg.unwritten 0
  hdrcnt := Reg.unwritten 0
  pktcnt := Reg.unwritten 0
  snrq := Reg.unwritten 0
  rssi := Reg.unwritten 0
  ver := Reg.unwritten 0
  frf := Reg.unwritten 0
  cfg1 := Reg.unwritten 0
  cfg2 := Reg.unwritten 0
  resp := Resp.unwritten
  err := 0
  rstN := true
  history := []
  svcErr := ErrRec.clear
  job := none
  port := []
  mhzIn := .rational 0
  irqLine := false
  inputs := []
  answers := []
  draws := 0
  grants := []
  grantDraws := 0
  chip := none

end Sys2Proof.Machine
end

