-- ==== Sys2Proof/Machine/Flags.lean ====
section
/-! DEFINITION. The numeric codes of the state's names, the interrupt flag decoder (44_irq_decoder.md R200), and the packing
of STATUS and ERR (10_state.md R30, R31). -/
namespace Sys2Proof.Machine

/-- The code of PHASE (10_state.md R21). -/
def Phase.code : Phase → BitVec 2
  | .idle => 0
  | .run => 1
  | .halted => 2

/-- The code of OWNER: 0 command port, 1 interrupt service (10_state.md R22). -/
def ownerCode : Agent → BitVec 1
  | .command => 0
  | .service => 1

/-- The code of STEP (10_state.md R23). -/
def SeqStep.code : SeqStep → BitVec 5
  | .none => 0x00
  | .s0Irq => 0x01
  | .s1Len => 0x02
  | .s2aCur => 0x03
  | .s2bPtr => 0x04
  | .s3Burst => 0x05
  | .s4Split => 0x06
  | .s5aHmsb => 0x07
  | .s5bHlsb => 0x08
  | .s5cPmsb => 0x09
  | .s5dPlsb => 0x0A
  | .s6Snr => 0x0B
  | .s7Rssi => 0x0C
  | .s8Ack => 0x0D
  | .i0Rst => 0x10
  | .i1Ver => 0x11
  | .i2Sleep => 0x12
  | .i3aTxb => 0x13
  | .i3bRxb => 0x14
  | .i4aFmsb => 0x15
  | .i4bFmid => 0x16
  | .i4cFlsb => 0x17
  | .i5aCfg1 => 0x18
  | .i5bCfg2 => 0x19
  | .i5sStdby => 0x1A
  | .i6Rxc => 0x1B
  | .cmd => 0x1E

/-- The code of an error cause (10_state.md R31, 60_exceptions.md R270). -/
def ErrCode.code : ErrCode → BitVec 3
  | .none => 0
  | .transport => 1
  | .ident => 2
  | .framing => 3
  | .illegal => 4
  | .range => 5
  | .notPermitted => 6

/-- The ten Booleans of `Decode(s)` (44_irq_decoder.md R200). -/
structure IrqFlags where
  timeout : Bool
  rxDone : Bool
  payloadCrcError : Bool
  validHeader : Bool
  txDone : Bool
  cadDone : Bool
  fhssChannelChange : Bool
  cadDetected : Bool
  cadClear : Bool
  valid : Bool
deriving DecidableEq, Repr

/-- A flag is set when its mask meets the byte (44_irq_decoder.md R200). -/
def hasFlag (s mask : Byte) : Bool := s &&& mask != 0

/-- The interrupt flag decoder `Decode(s)` (44_irq_decoder.md R200), masks from 10_state.md R44. -/
def irqDecode (s : Byte) : IrqFlags where
  timeout := hasFlag s 0x80
  rxDone := hasFlag s 0x40
  payloadCrcError := hasFlag s 0x20
  validHeader := hasFlag s 0x10
  txDone := hasFlag s 0x08
  cadDone := hasFlag s 0x04
  fhssChannelChange := hasFlag s 0x02
  cadDetected := hasFlag s 0x01
  cadClear := hasFlag s 0x04 && !hasFlag s 0x01
  valid := s != 0

/-- `RESP.flags`: the byte in bits 7:0, cadClear in bit 8, valid in bit 9 (44_irq_decoder.md R201). -/
def packIrqFlags (s : Byte) : BitVec 10 :=
  BitVec.ofBool (irqDecode s).valid ++ BitVec.ofBool (irqDecode s).cadClear ++ s

/-- The ERR word (10_state.md R31): reserved, AUX, ADDR, STEP, ACKFAIL, CODE from the top. -/
def errWord (e : ErrRec) : BitVec 32 :=
  0#8 ++ e.aux ++ e.addr ++ e.step.code ++ BitVec.ofBool e.ackfail ++ e.code.code

/-- STATUS, computed from the state (10_state.md R30): OWNER reads 0 when BUSY = 0, MODE reads 0 when MODEV = 0. -/
def State.status (s : State) : BitVec 16 :=
  0#7 ++ (if s.modev then s.mode else 0#3) ++ BitVec.ofBool s.modev ++ BitVec.ofBool s.pend
    ++ (if s.busy then ownerCode s.owner else 0#1) ++ BitVec.ofBool s.busy ++ s.phase.code

end Sys2Proof.Machine
end

