-- ==== Sys2Proof/Machine/Operands.lean ====
section
/-! DEFINITION. The operand forms: addresses by role (10_state.md R40), the mode byte (30_encoding.md R93), the modem
configuration (42_modem_config.md R170, R171, R173), the frequency conversion (41_frequency.md R150 to R156), the burst count
(40_register_access.md R132), the frames (30_encoding.md R90), and the receive arithmetic (45_rx_sequencer.md R234 to R237). -/
namespace Sys2Proof.Machine

/-- `REG_ADDR(role)` (10_state.md R40). -/
def addrOf (p : Params) : Role → Addr
  | .fifo => p.regAddr.fifo
  | .opMode => p.regAddr.opMode
  | .frfMsb => p.regAddr.frfMsb
  | .frfMid => p.regAddr.frfMid
  | .frfLsb => p.regAddr.frfLsb
  | .fifoAddrPtr => p.regAddr.fifoAddrPtr
  | .fifoTxBase => p.regAddr.fifoTxBase
  | .fifoRxBase => p.regAddr.fifoRxBase
  | .fifoRxCur => p.regAddr.fifoRxCur
  | .irqFlags => p.regAddr.irqFlags
  | .rxNbBytes => p.regAddr.rxNbBytes
  | .hdrCntMsb => p.regAddr.hdrCntMsb
  | .hdrCntLsb => p.regAddr.hdrCntLsb
  | .pktCntMsb => p.regAddr.pktCntMsb
  | .pktCntLsb => p.regAddr.pktCntLsb
  | .pktSnr => p.regAddr.pktSnr
  | .pktRssi => p.regAddr.pktRssi
  | .modemCfg1 => p.regAddr.modemCfg1
  | .modemCfg2 => p.regAddr.modemCfg2
  | .version => p.regAddr.version

/-- Byte 0 of a frame: the address, with the write bit on top (30_encoding.md R90). -/
def Frame.b0 : Frame → Byte
  | .read a => a.setWidth 8
  | .write a _ => 0x80#8 ||| a.setWidth 8

/-- Byte 1 of a frame: 0x00 for a read, the value for a write (30_encoding.md R90). -/
def Frame.b1 : Frame → Byte
  | .read _ => 0x00#8
  | .write _ v => v

/-- The register address of a frame, `b0[6:0]` (40_register_access.md R133). -/
def Frame.addr (f : Frame) : Addr := f.b0.extractLsb' 0 7

/-- A frame as the instruction of its opcode-table row. -/
def Frame.instr : Frame → Instr
  | .read a => .busRd a
  | .write a v => .busWr a v

/-- `MODE_CODE(m)` (00_scope.md R7). -/
def modeCodeOf (p : Params) : OpMode → BitVec 3
  | .sleep => p.modeCode.sleep
  | .standby => p.modeCode.standby
  | .receiveContinuous => p.modeCode.receiveContinuous

/-- The mode byte `LORA_FLAG | MODE_CODE` (30_encoding.md R93, 43_mode.md R191). -/
def modeByte (p : Params) (code : BitVec 3) : Byte := p.loraFlag ||| code.setWidth 8

/-- `BW_CODE(bandwidth)` (42_modem_config.md R170). -/
def bwCodeOf (p : Params) : Bandwidth → BitVec 4
  | .khz7p8 => p.bwCode.khz7p8
  | .khz10p4 => p.bwCode.khz10p4
  | .khz15p6 => p.bwCode.khz15p6
  | .khz20p8 => p.bwCode.khz20p8
  | .khz31p25 => p.bwCode.khz31p25
  | .khz41p7 => p.bwCode.khz41p7
  | .khz62p5 => p.bwCode.khz62p5
  | .khz125 => p.bwCode.khz125
  | .khz250 => p.bwCode.khz250
  | .khz500 => p.bwCode.khz500

/-- `CR_CODE(codingRate)` (42_modem_config.md R170). -/
def crCodeOf (p : Params) : CodingRate → BitVec 3
  | .cr4of5 => p.crCode.cr4of5
  | .cr4of6 => p.crCode.cr4of6
  | .cr4of7 => p.crCode.cr4of7
  | .cr4of8 => p.crCode.cr4of8

/-- The header-mode bit: explicit 0, implicit 1 (42_modem_config.md R170). -/
def headerModeBit : HeaderMode → BitVec 1
  | .explicit => 0
  | .implicit => 1

/-- A modem configuration (42_modem_config.md R170). -/
structure ModemConfig where
  bandwidth : Bandwidth
  codingRate : CodingRate
  headerMode : HeaderMode
  spreadingFactor : BitVec 4
  crcEnabled : Bool
deriving DecidableEq, Repr

/-- The MODEM_CFG1 byte of raw codes, `(bw << 4) | (cr << 1) | hm` (30_encoding.md R92). -/
def packCfg1 (bw : BitVec 4) (cr : BitVec 3) (hm : BitVec 1) : Byte :=
  (bw.setWidth 8 <<< 4) ||| (cr.setWidth 8 <<< 1) ||| hm.setWidth 8

/-- The MODEM_CFG2 byte of raw codes, `(sf << 4) | (crc << 2)` (30_encoding.md R92). -/
def packCfg2 (sf : BitVec 4) (crc : BitVec 1) : Byte := (sf.setWidth 8 <<< 4) ||| (crc.setWidth 8 <<< 2)

/-- `Pack(c)` (42_modem_config.md R171). -/
def pack (p : Params) (c : ModemConfig) : Byte × Byte :=
  (packCfg1 (bwCodeOf p c.bandwidth) (crCodeOf p c.codingRate) (headerModeBit c.headerMode),
    packCfg2 c.spreadingFactor (BitVec.ofBool c.crcEnabled))

/-- The ten bandwidths in the table's order (42_modem_config.md R170). -/
def allBandwidths : List Bandwidth :=
  [.khz7p8, .khz10p4, .khz15p6, .khz20p8, .khz31p25, .khz41p7, .khz62p5, .khz125, .khz250, .khz500]

/-- The four coding rates in the table's order (42_modem_config.md R170). -/
def allCodingRates : List CodingRate := [.cr4of5, .cr4of6, .cr4of7, .cr4of8]

/-- `Unpack(cfg1, cfg2)`, the inverse of `Pack`, "defined on bytes whose fields are all legal" (42_modem_config.md R171). -/
def unpack (p : Params) (cfg1 cfg2 : Byte) : Option ModemConfig :=
  match allBandwidths.find? (fun b => bwCodeOf p b = cfg1.extractLsb' 4 4),
      allCodingRates.find? (fun c => crCodeOf p c = cfg1.extractLsb' 1 3) with
  | some b, some c =>
    if legalCfg1 cfg1 && legalCfg2 cfg2 then
      some ⟨b, c, if cfg1.getLsbD 0 then .implicit else .explicit, cfg2.extractLsb' 4 4, cfg2.getLsbD 2⟩
    else none
  | _, _ => none

/-- The four named presets, by index (42_modem_config.md R173). -/
def presetConfig (i : BitVec 2) : ModemConfig :=
  if i = 0#2 then ⟨.khz125, .cr4of5, .explicit, 7, true⟩
  else if i = 1#2 then ⟨.khz500, .cr4of5, .explicit, 7, true⟩
  else if i = 2#2 then ⟨.khz31p25, .cr4of8, .explicit, 9, true⟩
  else ⟨.khz125, .cr4of8, .explicit, 12, true⟩

/-- The frequency bytes MSB, MID and LSB of a frequency word (30_encoding.md R94). -/
def frfMsb (frf : BitVec 24) : Byte := frf.extractLsb' 16 8
/-- See `frfMsb`. -/
def frfMid (frf : BitVec 24) : Byte := frf.extractLsb' 8 8
/-- See `frfMsb`. -/
def frfLsb (frf : BitVec 24) : Byte := frf.extractLsb' 0 8

/-- The frequency word of its three bytes (30_encoding.md R94, R100). -/
def frfOfBytes (msb mid lsb : Byte) : BitVec 24 := msb ++ mid ++ lsb

/-- The exact value of a frequency operand, `none` when it is not finite (41_frequency.md R150; log 11). -/
def Mhz.toRational : Mhz → Option Rat
  | .rational q => some q
  | .binary64 bits => binary64Value bits

/-- The binary64 value of a frequency operand, `none` when it is not finite (41_frequency.md R150; log 11). -/
def Mhz.toBinary64 : Mhz → Option Rat
  | .rational q => fl64 q
  | .binary64 bits => binary64Value bits

/-- The quantisation step in Hz, 15625/256 = 61.03515625 (41_frequency.md R150). -/
def stepHz : Rat := mkRat 15625 256

/-- The quotient `q` of 41_frequency.md R151, before the range check: `mhz × 16384` exactly, or the source's two binary64
operations; `none` when it is NaN or infinite. -/
def freqQuotient (a : FreqArith) (mhz : Mhz) : Option Rat :=
  match a with
  | .exact => (Mhz.toRational mhz).map fun m => m * 16384
  | .binary64 =>
    match Mhz.toBinary64 mhz with
    | none => none
    | some m =>
      match fl64 (m * 1000000) with
      | none => none
      | some h => fl64 (h / stepHz)

/-- `F2Rfun` (41_frequency.md R151): the frequency word, or `none` where it raises RANGE. -/
def f2rFun (p : Params) (mhz : Mhz) : Option (BitVec 24) :=
  match freqQuotient p.freqArith mhz with
  | none => none
  | some q => if q < 0 ∨ 16777216 ≤ q then none else some (BitVec.ofNat 24 q.floor.toNat)

/-- The MHz value of a frequency word (41_frequency.md R153). Under Binary64 both roundings are finite. -/
def r2fFun (p : Params) (frf : BitVec 24) : Rat :=
  match p.freqArith with
  | .exact => (frf.toNat : Rat) / 16384
  | .binary64 => ((fl64 ((frf.toNat : Rat) * stepHz)).bind fun hz => fl64 (hz / 1000000)).getD 0

/-- The number of reads of a burst of `n`: max(n - 1, 0) under Source, n under Corrected (40_register_access.md R132). -/
def burstCount (m : BurstMode) (n : Byte) : Nat :=
  match m with
  | .source => n.toNat - 1
  | .corrected => n.toNat

/-- `HSplit(b)` (45_rx_sequencer.md R234); `none` is FramingError. -/
def hsplit : List Byte → Option (Header × List Byte)
  | src :: dst :: id :: flg :: payload => some (⟨src, dst, id, flg⟩, payload)
  | _ => none

/-- `sx7(v)`, the 7-bit two's-complement value of the low 7 bits (00_scope.md R9). -/
def sx7 (v : Byte) : Int :=
  if v.getLsbD 6 then ((v.extractLsb' 0 7).toNat : Int) - 128 else ((v.extractLsb' 0 7).toNat : Int)

/-- `SnrConv(raw)` (45_rx_sequencer.md R235). -/
def snrConv (raw : Byte) : Int := sx7 (raw &&& 0x7F#8)

/-- The SNR in dB, the exact rational SNRQ / 4 (45_rx_sequencer.md R235). -/
def snrDb (snrq : Int) : Rat := mkRat snrq 4

/-- `RssiConv(raw)`, an integer in [-137, 118] (45_rx_sequencer.md R236). -/
def rssiConv (raw : Byte) : Int := (raw.toNat : Int) - 137

/-- RSSI "carried as 16-bit two's complement" (45_rx_sequencer.md R236). -/
def rssiWord (raw : Byte) : BitVec 16 := BitVec.ofInt 16 (rssiConv raw)

/-- `Cnt16(msb, lsb)` (45_rx_sequencer.md R237). -/
def cnt16 (msb lsb : Byte) : BitVec 16 := (msb.setWidth 16 <<< 8) ||| lsb.setWidth 16

end Sys2Proof.Machine
end

