-- ==== Sys2Proof/Machine/ChipRef.lean ====
section
/-! DEFINITION. Bytes at addresses in canonical form, and CHIP_REF, the reference chip of the test vectors (20_memory.md R75).
No rule of the block depends on it; it answers a transaction only where a state has one attached (log 16). -/
namespace Sys2Proof.Machine

/-- What an unlisted address reads as (log 16: DESIGN CHOICE). -/
def unlistedByte : Byte := 0x00

/-- The byte at an address. -/
def cellRead : List Host.Cell → Nat → Byte
  | [], _ => unlistedByte
  | (b, v) :: rest, a => if b = a then v else cellRead rest a

/-- The list with the byte at `a` set to `v`, in canonical form: addresses rising, no entry equal to the unlisted byte. -/
def cellWrite : List Host.Cell → Nat → Byte → List Host.Cell
  | [], a, v => if v = unlistedByte then [] else [(a, v)]
  | (b, w) :: rest, a, v =>
    if a < b then (if v = unlistedByte then (b, w) :: rest else (a, v) :: (b, w) :: rest)
    else if a = b then (if v = unlistedByte then rest else (a, v) :: rest)
    else (b, w) :: cellWrite rest a v

/-- Every address of the list is at least `lo`, they rise strictly, each is below `size`, and no entry is the unlisted byte. -/
def cellsFrom (size lo : Nat) : List Host.Cell → Bool
  | [] => true
  | (a, v) :: rest => lo ≤ a && a < size && v != unlistedByte && cellsFrom size (a + 1) rest

/-- The canonical form of a memory of `size` bytes. -/
def Memory.wf (size : Nat) (m : List Host.Cell) : Bool := cellsFrom size 0 m

/-- The canonical form of both of CHIP_REF's memories: 128 register bytes, 256 FIFO bytes (20_memory.md R75). -/
def RefChip.wf (c : RefChip) : Bool := Memory.wf 128 c.reg && Memory.wf 256 c.fifo

/-- CHIP_REF with every byte and its cursor zero. -/
def RefChip.blank : RefChip := ⟨[], [], 0⟩

/-- CHIP_REF's register byte. -/
def RefChip.readReg (c : RefChip) (a : Addr) : Byte := cellRead c.reg a.toNat

/-- CHIP_REF with one register byte set. -/
def RefChip.setReg (c : RefChip) (a : Addr) (v : Byte) : RefChip := { c with reg := cellWrite c.reg a.toNat v }

/-- The data byte of CHIP_REF's answer to a frame, and the chip after it (20_memory.md R75). -/
def RefChip.exchange (p : Params) (c : RefChip) : Frame → Byte × RefChip
  | .read a =>
    if a = addrOf p .fifo then (cellRead c.fifo c.ptr.toNat, { c with ptr := c.ptr + 1 })
    else (c.readReg a, c)
  | .write a v =>
    if a = addrOf p .fifo then (0x00, { c with fifo := cellWrite c.fifo c.ptr.toNat v, ptr := c.ptr + 1 })
    else if a = addrOf p .fifoAddrPtr then (0x00, { (c.setReg a v) with ptr := v })
    else if a = addrOf p .irqFlags then (0x00, c.setReg a (c.readReg a &&& ~~~v))
    else (0x00, c.setReg a v)

/-- CHIP_REF's answer, "length = 2, bytes_in = [0x00, d]" (20_memory.md R75). -/
def RefChip.answer (p : Params) (c : RefChip) (f : Frame) : Answer × RefChip :=
  (⟨2, [0x00, (c.exchange p f).1]⟩, (c.exchange p f).2)

end Sys2Proof.Machine
end

