-- ==== Sys2Proof/Machine/Ops.lean ====
section
/-! DEFINITION. The named operations the meanings share: the history, one transaction (40_register_access.md R133), the lock,
raising an error (60_exceptions.md R271: the one shared operation of taking an exception), the command envelope
(60_exceptions.md R276), the service's end (45_rx_sequencer.md R233), and the unwritten-register check (00_scope.md R11). -/
namespace Sys2Proof.Machine

/-- `emit Ev`: the event is appended to the history (00_scope.md R10, R12). -/
def emit (e : Event) (s : State) : State := { s with history := s.history ++ [e] }

/-- The lock is taken: `BUSY <- 1; OWNER <- agent`, and STEP is set (60_exceptions.md R276, 45_rx_sequencer.md R220). -/
def lock (agent : Agent) (step : SeqStep) (s : State) : State := { s with busy := true, owner := agent, step := step }

/-- The lock is released: `STEP <- NONE; BUSY <- 0; OWNER <- 0`, and no command is in progress (60_exceptions.md R276). -/
def unlock (s : State) : State := { s with busy := false, owner := .command, step := .none, job := none }

/-- `ERR <- word`, and "if the new value is nonzero it also emits ERR(word)" (10_state.md R31). -/
def writeErr (word : BitVec 32) (s : State) : State :=
  { s with err := word, history := if word = 0 then s.history else s.history ++ [.err word] }

/-- A command completes: RESP, ERR, the ERR event, the lock's release (60_exceptions.md R276). -/
def completeCommand (result : RespResult) (e : ErrRec) (s : State) : State :=
  unlock (writeErr (errWord e) { s with resp := ⟨result, Reg.holding (errWord e)⟩ })

/-- A command completes without an error. -/
def succeed (result : RespResult) (s : State) : State := completeCommand result ErrRec.clear s

/-- `raise E(info)` (60_exceptions.md R271), the block's taking of an exception (R284). A command stops at once, with RESP
holding only ERR (10_state.md R28); a service records the error with the STEP it arose at and goes on to S8_ACK
(45_rx_sequencer.md R227, R239). No vector is taken and nothing returns (60_exceptions.md R279). AUX is what 10_state.md R31
lists for the cause; no cause puts IRQ there, although R26 says that IRQ leaves through ERR.AUX too (DEDUCED, log 26). -/
def raiseError (code : ErrCode) (addr : Addr) (aux : Byte) (s : State) : State :=
  match s.owner with
  | .service => { s with svcErr := ⟨code, false, s.step, addr, aux⟩, step := .s8Ack }
  | .command => completeCommand .empty ⟨code, false, s.step, addr, aux⟩ s

/-- The end of a service, after S8 (45_rx_sequencer.md R233). -/
def endService (s : State) : State := unlock (writeErr (errWord s.svcErr) s)

/-- S8_ACK's TransportError: `ackfail <- 1`, and it is the recorded error only if there is none (45_rx_sequencer.md R232). -/
def recordAckFail (addr : Addr) (aux : Byte) (s : State) : State :=
  { s with svcErr := if s.svcErr.code = .none then ⟨.transport, true, .s8Ack, addr, aux⟩
                     else { s.svcErr with ackfail := true } }

/-- AUX of ILLEGAL and NOT_PERMITTED: OP in [19:16], 0 in [23:20] (10_state.md R31). -/
def opAux (cw : CommandWord) : Byte := (opOf cw).setWidth 8

/-- The opening of the envelope: the CMD event, the lock, STEP = CMD, `RESP <- {}` (60_exceptions.md R276). -/
def openCommand (cw : CommandWord) (s : State) : State :=
  lock .command .cmd { (emit (.cmd cw) s) with resp := Resp.unwritten }

/-- The commands that are refused in phase HALTED: those with "bus" in the operation map, INIT among them (30_encoding.md R97, R99). -/
def usesBus : Instr → Bool
  | .rd _ => true
  | .wr _ _ => true
  | .brd _ _ => true
  | .mode _ => true
  | .sfrq => true
  | .smdm _ _ => true
  | .init _ => true
  | .enc _ _ _ _ _ => false
  | .encp _ => false
  | .f2r => false
  | .r2f _ _ _ => false
  | .irqd _ => false
  | .snrc _ => false
  | .rssic _ => false
  | .busRd _ => false
  | .busWr _ _ => false

/-- The command envelope around a decoded row (60_exceptions.md R276, 30_encoding.md R99): while BUSY = 1 the port holds;
otherwise reserved operands (ILLEGAL), then the phase (NOT_PERMITTED), then the rule itself. -/
def accept (i : Instr) (perform : State → State) (s : State) : Host.Outcome State Fault Refusal :=
  if s.busy then .next s
  else .next <|
    if i.wellFormed s.cfg = false then
      raiseError .illegal 0 (opAux (encodeCommand i)) (openCommand (encodeCommand i) s)
    else if usesBus i = true ∧ s.phase = .halted then
      raiseError .notPermitted 0 (opAux (encodeCommand i)) (openCommand (encodeCommand i) s)
    else perform (openCommand (encodeCommand i) s)

/-- The envelope around a word that selects no row: ILLEGAL (30_encoding.md R99). -/
def acceptIllegal (cw : CommandWord) (s : State) : State := raiseError .illegal 0 (opAux cw) (openCommand cw s)

/-- `Xfer` (00_scope.md R10, 20_memory.md R60): the answer to a frame, and the state with it taken: the next listed answer,
else the attached reference chip's, else a free value (log 1). -/
def xfer (f : Frame) (s : State) : Answer × State :=
  match s.answers with
  | a :: rest => (a, { s with answers := rest })
  | [] =>
    match s.chip with
    | some c => ((c.answer s.cfg f).1, { s with chip := some (c.answer s.cfg f).2 })
    | none => (Config.transportDraw s.draws, { s with draws := s.draws + 1 })

/-- "length ≠ 2 or |bytes_in| ≠ 2" does not hold (40_register_access.md R133). -/
def answerGood (a : Answer) : Bool := a.length = 2 && a.bytes.length = 2

/-- The data byte `bytes_in[1]` of an answer of two bytes (40_register_access.md R133, 92 D14). -/
def answerData (a : Answer) : Byte := a.bytes.getD 1 0

/-- TransportError's AUX, the length clamped to [0, 255] (40_register_access.md R133). -/
def answerAux (a : Answer) : Byte := BitVec.ofNat 8 (min (max a.length 0) 255).toNat

/-- The exchange part of `Txn` (40_register_access.md R133): the answer is drawn and the BUS event emitted. -/
def exchange (f : Frame) (s : State) : Answer × State :=
  ((xfer f s).1, emit (.bus f.b0 f.b1 (xfer f s).1.length (xfer f s).1.bytes) (xfer f s).2)

/-- A job is started: its first transaction comes next; a burst of no reads completes at once (40_register_access.md R132). -/
def startJob (kind : JobKind) (todo : List Frame) (s : State) : State :=
  match todo with
  | [] => succeed (.brd []) s
  | f :: rest => { s with job := some ⟨kind, f :: rest, []⟩ }

/-- Whether a working register has been written since block reset (00_scope.md R11). -/
def isWritten (s : State) : WorkReg → Bool
  | .irq => s.irq.written
  | .len => s.len.written
  | .cur => s.cur.written
  | .cnt => s.cnt.written
  | .buf => s.buf.written
  | .hdr => s.hdr.written
  | .pay => s.pay.written
  | .tmp => s.tmp.written
  | .hdrcnt => s.hdrcnt.written
  | .pktcnt => s.pktcnt.written
  | .snrq => s.snrq.written
  | .rssi => s.rssi.written
  | .ver => s.ver.written
  | .frf => s.frf.written
  | .cfg1 => s.cfg1.written
  | .cfg2 => s.cfg2.written

/-- The working registers that a step reads and an earlier step wrote (45_rx_sequencer.md R238, 70_reset_and_hazards.md R315, R316, R310). -/
def stepReads : SeqStep → List WorkReg
  | .s2bPtr => [.cur]
  | .s3Burst => [.len, .cnt, .buf]
  | .s4Split => [.buf]
  | .s5bHlsb => [.tmp]
  | .s5dPlsb => [.tmp]
  | .s7Rssi => [.irq, .hdr, .pay, .hdrcnt, .pktcnt, .snrq]
  | .i4aFmsb => [.frf]
  | .i4bFmid => [.frf]
  | .i4cFlsb => [.frf]
  | .i5aCfg1 => [.cfg1]
  | .i5bCfg2 => [.cfg2]
  | .i6Rxc => [.ver, .frf, .cfg1, .cfg2]
  | .none => []
  | .s0Irq => []
  | .s1Len => []
  | .s2aCur => []
  | .s5aHmsb => []
  | .s5cPmsb => []
  | .s6Snr => []
  | .s8Ack => []
  | .i0Rst => []
  | .i1Ver => []
  | .i2Sleep => []
  | .i3aTxb => []
  | .i3bRxb => []
  | .i5sStdby => []
  | .cmd => []

/-- The first register the current step would read unwritten, if any. -/
def firstUnwritten (s : State) : Option WorkReg := (stepReads s.step).find? fun r => !isWritten s r

/-- The next state, unless the current step would read an unwritten register: then the model fault `UnwrittenRead`
(00_scope.md R11, 93 U16). -/
def unlessUnwritten (s t : State) : Host.Outcome State Fault Refusal :=
  match firstUnwritten s with
  | some r => .fault (.unwrittenRead r)
  | none => .next t

end Sys2Proof.Machine
end

