-- ==== Sys2Proof/Machine/IrqDecoder.lean ====
section
/-! DEFINITION. The interrupt flag decoder command IRQD (44_irq_decoder.md). -/
namespace Sys2Proof.Machine

/-- IRQD (44_irq_decoder.md R201): `RESP.flags <- Decode(BYTE); RESP.raw <- BYTE`. -/
def execIrqd (byte : Byte) (s : State) : Host.Outcome State Fault Refusal :=
  accept (.irqd byte) (succeed (.irqd (packIrqFlags byte) byte)) s

end Sys2Proof.Machine
end

