-- ==== Sys2Proof/Machine/Frequency.lean ====
section
/-! DEFINITION. The frequency synthesizer converter: F2R, R2F, SFRQ (41_frequency.md). -/
namespace Sys2Proof.Machine

/-- F2R (41_frequency.md R152): the frequency word and its bytes, or RANGE. -/
def execF2r (s : State) : Host.Outcome State Fault Refusal :=
  accept .f2r
    (fun t =>
      match f2rFun t.cfg t.mhzIn with
      | none => raiseError .range 0 0 t
      | some frf => succeed (.f2r frf (frfMsb frf) (frfMid frf) (frfLsb frf)) t) s

/-- R2F (41_frequency.md R153): the frequency in MHz. -/
def execR2f (msb mid lsb : Byte) (s : State) : Host.Outcome State Fault Refusal :=
  accept (.r2f msb mid lsb) (fun t => succeed (.r2f (r2fFun t.cfg (frfOfBytes msb mid lsb))) t) s

/-- The three frequency writes in "MSB→LSB order" (41_frequency.md R154). -/
def frfFrames (p : Params) (frf : BitVec 24) : List Frame :=
  [.write (addrOf p .frfMsb) (frfMsb frf), .write (addrOf p .frfMid) (frfMid frf), .write (addrOf p .frfLsb) (frfLsb frf)]

/-- SFRQ (41_frequency.md R154): RANGE before any write, else the three writes, then RESP.frf. -/
def execSfrq (s : State) : Host.Outcome State Fault Refusal :=
  accept .sfrq
    (fun t =>
      match f2rFun t.cfg t.mhzIn with
      | none => raiseError .range 0 0 t
      | some frf => startJob (.sfrq frf) (frfFrames t.cfg frf) t) s

end Sys2Proof.Machine
end

