-- ==== Sys2Proof/Machine/RegisterAccess.lean ====
section
/-! DEFINITION. Register access: RD, WR, BRD (40_register_access.md), and how a command in progress takes its transactions'
answers. A bus command is accepted in one step and makes one transaction in each following step (92 D1). -/
namespace Sys2Proof.Machine

/-- RD (40_register_access.md R130): `RESP.data <- MemRead(ADDR, 1)`. -/
def execRd (addr : Addr) (s : State) : Host.Outcome State Fault Refusal :=
  accept (.rd addr) (startJob .rd [.read addr]) s

/-- WR (40_register_access.md R131): `RESP.echo <- MemWrite(ADDR, 1, VALUE)`. -/
def execWr (addr : Addr) (value : Byte) (s : State) : Host.Outcome State Fault Refusal :=
  accept (.wr addr value) (startJob .wr [.write addr value]) s

/-- BRD (40_register_access.md R132): `RESP.bytes <- BurstRead(ADDR, LENGTH)`, one transaction for each byte. -/
def execBrd (addr : Addr) (length : Byte) (s : State) : Host.Outcome State Fault Refusal :=
  accept (.brd addr length)
    (fun t => startJob .brd (List.replicate (burstCount t.cfg.burstMode length) (.read addr)) t) s

/-- What a completed command in progress writes to RESP: `last` is the byte its last transaction returned, `got` all of them. -/
def jobResult (p : Params) (kind : JobKind) (got : List Byte) (last : Byte) : RespResult :=
  match kind with
  | .rd => .rd last
  | .wr => .wr last
  | .brd => .brd got
  | .mode mcode => .mode (modeByte p mcode)
  | .sfrq frf => .sfrq frf
  | .smdm => .empty

/-- What a completed mode write does to the tracker: `MODEV <- 1; MODE <- MCODE` (43_mode.md R191). -/
def trackMode (code : BitVec 3) (s : State) : State := { s with modev := true, mode := code }

/-- What a failed mode write does to the tracker: `MODEV <- 0` (43_mode.md R191, log 13). -/
def loseMode (s : State) : State := { s with modev := false }

/-- The tracker after a completed job: only MODE moves it (43_mode.md R191, 40_register_access.md R131). -/
def jobTracks (kind : JobKind) (s : State) : State :=
  match kind with
  | .mode mcode => trackMode mcode s
  | .rd => s
  | .wr => s
  | .brd => s
  | .sfrq _ => s
  | .smdm => s

/-- The tracker after a failed job (43_mode.md R191). -/
def jobLoses (kind : JobKind) (s : State) : State :=
  match kind with
  | .mode _ => loseMode s
  | .rd => s
  | .wr => s
  | .brd => s
  | .sfrq _ => s
  | .smdm => s

/-- The command in progress takes a good answer: its next transaction follows, or it completes (40_register_access.md R130 to R132). -/
def jobTakes (d : Byte) (s : State) : State :=
  match s.job with
  | none => s
  | some j =>
    match j.todo with
    | _ :: f :: rest => { s with job := some ⟨j.kind, f :: rest, j.got ++ [d]⟩ }
    | _ => succeed (jobResult s.cfg j.kind (j.got ++ [d]) d) (jobTracks j.kind s)

/-- The command in progress takes a TransportError: no later transaction is made (60_exceptions.md R271). -/
def jobFails (addr : Addr) (aux : Byte) (s : State) : State :=
  match s.job with
  | none => s
  | some j => raiseError .transport addr aux (jobLoses j.kind s)

end Sys2Proof.Machine
end

