-- ==== Sys2Proof/Machine/Mode.lean ====
section
/-! DEFINITION. Mode writes: MODE (43_mode.md). -/
namespace Sys2Proof.Machine

/-- The OPMODE write of a mode code, always with the LoRa flag (43_mode.md R191). -/
def modeFrame (p : Params) (code : BitVec 3) : Frame := .write (addrOf p .opMode) (modeByte p code)

/-- MODE (43_mode.md R191): a reserved MCODE raises ILLEGAL in the envelope; otherwise one write, then MODEV, MODE, RESP.opmode. -/
def execMode (mcode : BitVec 3) (s : State) : Host.Outcome State Fault Refusal :=
  accept (.mode mcode) (fun t => startJob (.mode mcode) [modeFrame t.cfg mcode] t) s

/-- The end of `SetMode` in INIT, "these last four lines" of MODE after the write: MODEV, MODE and RESP.opmode
(43_mode.md R191, log 24). -/
def modeSet (code : BitVec 3) (s : State) : State :=
  { (trackMode code s) with resp := ⟨.mode (modeByte s.cfg code), s.resp.err⟩ }

end Sys2Proof.Machine
end

