-- ==== Sys2Proof/Machine/Init.lean ====
section
/-! DEFINITION. INIT (70_reset_and_hazards.md R310 to R319): its start with the reset pulse, the two timer events, and its steps.
-/
namespace Sys2Proof.Machine

/-- INIT's start (70_reset_and_hazards.md R310) and the first half of I0_RST (R311): RST_N low, RST(0). -/
def startInit (preset : BitVec 2) (frf : BitVec 24) (s : State) : State :=
  emit (.rst false)
    { s with phase := .idle, modev := false, mode := 0, frf := Reg.holding frf,
             cfg1 := Reg.holding (pack s.cfg (presetConfig preset)).1,
             cfg2 := Reg.holding (pack s.cfg (presetConfig preset)).2,
             step := .i0Rst, rstN := false }

/-- INIT (70_reset_and_hazards.md R310): RANGE first, with no transaction, no RST event and PHASE unchanged. -/
def execInit (preset : BitVec 2) (s : State) : Host.Outcome State Fault Refusal :=
  accept (.init preset)
    (fun t =>
      match f2rFun t.cfg t.mhzIn with
      | none => raiseError .range 0 0 t
      | some frf => startInit preset frf t) s

/-- T_LOW_DONE, where I0_RST awaits it: RST_N high, RST(1) (70_reset_and_hazards.md R311). Elsewhere it is dropped (log 8). -/
def timerLowDone (s : State) : State :=
  if s.step = .i0Rst ∧ s.rstN = false then emit (.rst true) { s with rstN := true } else s

/-- T_HIGH_DONE, where I0_RST awaits it: I1_VER follows (70_reset_and_hazards.md R311). Elsewhere it is dropped (log 8). -/
def timerHighDone (s : State) : State :=
  if s.step = .i0Rst ∧ s.rstN = true then { s with step := .i1Ver } else s

/-- I1_VER: the version check; another value is IDENT and HALTED (70_reset_and_hazards.md R312, 60_exceptions.md R273). -/
def takeI1Ver (d : Byte) (s : State) : State :=
  if d = s.cfg.expectedVersion then { s with ver := Reg.holding d, step := .i2Sleep }
  else raiseError .ident (addrOf s.cfg .version) d { s with ver := Reg.holding d, phase := .halted, pend := false }

/-- I2_SLEEP: `SetMode(Sleep)` done (70_reset_and_hazards.md R313). -/
def takeI2Sleep (s : State) : State := { (modeSet (modeCodeOf s.cfg .sleep) s) with step := .i3aTxb }

/-- I3A_TXB to I5A_CFG1: a write done, the next step follows (70_reset_and_hazards.md R314 to R316). -/
def takeInitWrite (next : SeqStep) (s : State) : State := { s with step := next }

/-- I5B_CFG2 done: Standby only if INIT_STANDBY (70_reset_and_hazards.md R316, R317). -/
def takeI5bCfg2 (s : State) : State := { s with step := if s.cfg.initStandby then .i5sStdby else .i6Rxc }

/-- I5S_STDBY: `SetMode(Standby)` done (70_reset_and_hazards.md R317). -/
def takeI5sStdby (s : State) : State := { (modeSet (modeCodeOf s.cfg .standby) s) with step := .i6Rxc }

/-- I6_RXC: `SetMode(ReceiveContinuous)` done, PHASE is RUN, and INIT completes (70_reset_and_hazards.md R318, R310); RESP
keeps the opmode that SetMode wrote beside INIT's own four fields (43_mode.md R191, log 24). -/
def takeI6Rxc (s : State) : State :=
  succeed (.init (modeByte s.cfg (modeCodeOf s.cfg .receiveContinuous)) s.ver.value s.frf.value s.cfg1.value s.cfg2.value)
    { (modeSet (modeCodeOf s.cfg .receiveContinuous) s) with phase := .run }

/-- A TransportError in an INIT step that is no mode write: PHASE stays IDLE (70_reset_and_hazards.md R310). -/
def failInit (addr : Addr) (aux : Byte) (s : State) : State := raiseError .transport addr aux s

/-- A TransportError in a mode write of INIT: `MODEV <- 0`, then raise (43_mode.md R191). -/
def failSetMode (addr : Addr) (aux : Byte) (s : State) : State := raiseError .transport addr aux (loseMode s)

end Sys2Proof.Machine
end

