-- ==== Sys2Proof/Machine/ModemConfig.lean ====
section
/-! DEFINITION. The modem configuration encoder: ENC, ENCP, SMDM (42_modem_config.md). -/
namespace Sys2Proof.Machine

/-- ENC (42_modem_config.md R172): the two bytes of the raw codes; reserved codes raise ILLEGAL in the envelope. -/
def execEnc (bw : BitVec 4) (cr : BitVec 3) (hm : BitVec 1) (sf : BitVec 4) (crc : BitVec 1) (s : State) :
    Host.Outcome State Fault Refusal :=
  accept (.enc bw cr hm sf crc) (succeed (.config (packCfg1 bw cr hm) (packCfg2 sf crc))) s

/-- ENCP (42_modem_config.md R173): `Pack(PRESETS[PRESET])`. -/
def execEncp (preset : BitVec 2) (s : State) : Host.Outcome State Fault Refusal :=
  accept (.encp preset)
    (fun t => succeed (.config (pack t.cfg (presetConfig preset)).1 (pack t.cfg (presetConfig preset)).2) t) s

/-- The two modem writes, "register 1, then register 2" (42_modem_config.md R174). -/
def cfgFrames (p : Params) (c1 c2 : Byte) : List Frame :=
  [.write (addrOf p .modemCfg1) c1, .write (addrOf p .modemCfg2) c2]

/-- SMDM (42_modem_config.md R174): reserved fields raise ILLEGAL in the envelope, before any write. -/
def execSmdm (c1 c2 : Byte) (s : State) : Host.Outcome State Fault Refusal :=
  accept (.smdm c1 c2) (fun t => startJob .smdm (cfgFrames t.cfg c1 c2) t) s

end Sys2Proof.Machine
end

