-- ==== Sys2Proof/Machine/Receive.lean ====
section
/-! DEFINITION. The packet-assembly sequencer (45_rx_sequencer.md): SNRC, RSSIC, and the steps of the receive service. Each
step with a transaction takes the byte its transaction returned; the frames are chosen in Machine/Sequencer.lean (R238). -/
namespace Sys2Proof.Machine

/-- SNRC (45_rx_sequencer.md R235). -/
def execSnrc (byte : Byte) (s : State) : Host.Outcome State Fault Refusal :=
  accept (.snrc byte) (succeed (.snrc (snrConv byte) (snrDb (snrConv byte)))) s

/-- RSSIC (45_rx_sequencer.md R236). -/
def execRssic (byte : Byte) (s : State) : Host.Outcome State Fault Refusal :=
  accept (.rssic byte) (succeed (.rssic (rssiWord byte))) s

/-- A service may start: PEND = 1, PHASE = RUN and BUSY = 0 (45_rx_sequencer.md R220, 60_exceptions.md R281). -/
def serviceReady (s : State) : Bool := s.pend && s.phase = .run && !s.busy

/-- Service entry (45_rx_sequencer.md R220). -/
def serviceEntry (s : State) : State := lock .service .s0Irq { s with pend := false, svcErr := ErrRec.clear }

/-- S0_IRQ and the rxDone gate (45_rx_sequencer.md R221, R222). -/
def takeS0Irq (d : Byte) (s : State) : State :=
  { s with irq := Reg.holding d, step := if (irqDecode d).rxDone then .s1Len else .s8Ack }

/-- S1_LEN (45_rx_sequencer.md R223). -/
def takeS1Len (d : Byte) (s : State) : State := { s with len := Reg.holding d, step := .s2aCur }

/-- S2A_CUR (45_rx_sequencer.md R224). -/
def takeS2aCur (d : Byte) (s : State) : State := { s with cur := Reg.holding d, step := .s2bPtr }

/-- S2B_PTR (45_rx_sequencer.md R225); S3_BURST begins with no read made and an empty list (R226, 40_register_access.md R132). -/
def takeS2bPtr (s : State) : State := { s with cnt := Reg.holding 0, buf := Reg.holding [], step := .s3Burst }

/-- The number of reads `k` of the service's burst (45_rx_sequencer.md R226). -/
def burstReads (s : State) : Nat := burstCount s.cfg.burstMode s.len.value

/-- One read of S3_BURST: CNT counts it, and STEP stays S3_BURST until `k` reads are made (45_rx_sequencer.md R226). -/
def takeS3Burst (d : Byte) (s : State) : State :=
  { s with cnt := Reg.holding (s.cnt.value + 1), buf := Reg.holding (s.buf.value ++ [d]),
           step := if s.cnt.value.toNat + 1 < burstReads s then .s3Burst else .s4Split }

/-- S3_BURST with no read left to make (45_rx_sequencer.md R226, k = 0). -/
def endS3Burst (s : State) : State := { s with step := .s4Split }

/-- S4_SPLIT: header and payload, or FramingError with AUX = |BUF| (45_rx_sequencer.md R227). -/
def stepS4Split (s : State) : State :=
  match hsplit s.buf.value with
  | none => raiseError .framing 0 (BitVec.ofNat 8 s.buf.value.length) s
  | some (h, p) => { s with hdr := Reg.holding h, pay := Reg.holding p, step := .s5aHmsb }

/-- S5A_HMSB (45_rx_sequencer.md R228). -/
def takeS5aHmsb (d : Byte) (s : State) : State := { s with tmp := Reg.holding d, step := .s5bHlsb }

/-- S5B_HLSB (45_rx_sequencer.md R228). -/
def takeS5bHlsb (d : Byte) (s : State) : State :=
  { s with hdrcnt := Reg.holding (cnt16 s.tmp.value d), step := .s5cPmsb }

/-- S5C_PMSB (45_rx_sequencer.md R229). -/
def takeS5cPmsb (d : Byte) (s : State) : State := { s with tmp := Reg.holding d, step := .s5dPlsb }

/-- S5D_PLSB (45_rx_sequencer.md R229). -/
def takeS5dPlsb (d : Byte) (s : State) : State :=
  { s with pktcnt := Reg.holding (cnt16 s.tmp.value d), step := .s6Snr }

/-- S6_SNR (45_rx_sequencer.md R230). -/
def takeS6Snr (d : Byte) (s : State) : State := { s with snrq := Reg.holding (snrConv d), step := .s7Rssi }

/-- The packet record of the working registers (45_rx_sequencer.md R240). -/
def packetOf (s : State) : Packet where
  src := s.hdr.value.src
  dst := s.hdr.value.dst
  id := s.hdr.value.id
  flags := s.hdr.value.flg
  payload := s.pay.value
  snrq := s.snrq.value
  snrDb := snrDb s.snrq.value
  rssi := s.rssi.value
  hdrcnt := s.hdrcnt.value
  pktcnt := s.pktcnt.value
  irq := s.irq.value
  crcError := s.irq.value.getLsbD 5

/-- S7_RSSI: the RSSI, then the packet, before the acknowledgement (45_rx_sequencer.md R231). -/
def takeS7Rssi (d : Byte) (s : State) : State :=
  let t := { s with rssi := Reg.holding (rssiWord d), step := .s8Ack }
  emit (.pkt (packetOf t)) t

/-- S8_ACK done: the service ends (45_rx_sequencer.md R232, R233). -/
def takeS8Ack (s : State) : State := endService s

/-- S8_ACK failed: ACKFAIL, and the service ends all the same (45_rx_sequencer.md R232, R233). -/
def failS8Ack (addr : Addr) (aux : Byte) (s : State) : State := endService (recordAckFail addr aux s)

end Sys2Proof.Machine
end

