-- ==== Sys2Proof/Machine/Sequencer.lean ====
section
/-! DEFINITION. The sequencer: which frame the current step puts on the bus (the address and length multiplexer,
45_rx_sequencer.md R238), what each step does with its transaction's answer, the steps without bus traffic, and the meanings of
the two bus frames (30_encoding.md R90, 40_register_access.md R133). -/
namespace Sys2Proof.Machine

/-- The frame of the current step, if it makes a transaction (45_rx_sequencer.md R238, 70_reset_and_hazards.md R312 to R318). -/
def selectFrame (s : State) : Option Frame :=
  match s.step with
  | .none => none
  | .s0Irq => some (.read (addrOf s.cfg .irqFlags))
  | .s1Len => some (.read (addrOf s.cfg .rxNbBytes))
  | .s2aCur => some (.read (addrOf s.cfg .fifoRxCur))
  | .s2bPtr => some (.write (addrOf s.cfg .fifoAddrPtr) s.cur.value)
  | .s3Burst => if s.cnt.value.toNat < burstReads s then some (.read (addrOf s.cfg .fifo)) else none
  | .s4Split => none
  | .s5aHmsb => some (.read (addrOf s.cfg .hdrCntMsb))
  | .s5bHlsb => some (.read (addrOf s.cfg .hdrCntLsb))
  | .s5cPmsb => some (.read (addrOf s.cfg .pktCntMsb))
  | .s5dPlsb => some (.read (addrOf s.cfg .pktCntLsb))
  | .s6Snr => some (.read (addrOf s.cfg .pktSnr))
  | .s7Rssi => some (.read (addrOf s.cfg .pktRssi))
  | .s8Ack => some (.write (addrOf s.cfg .irqFlags) 0xFF#8)
  | .i0Rst => none
  | .i1Ver => some (.read (addrOf s.cfg .version))
  | .i2Sleep => some (modeFrame s.cfg (modeCodeOf s.cfg .sleep))
  | .i3aTxb => some (.write (addrOf s.cfg .fifoTxBase) s.cfg.fifoTxBase)
  | .i3bRxb => some (.write (addrOf s.cfg .fifoRxBase) s.cfg.fifoRxBase)
  | .i4aFmsb => some (.write (addrOf s.cfg .frfMsb) (frfMsb s.frf.value))
  | .i4bFmid => some (.write (addrOf s.cfg .frfMid) (frfMid s.frf.value))
  | .i4cFlsb => some (.write (addrOf s.cfg .frfLsb) (frfLsb s.frf.value))
  | .i5aCfg1 => some (.write (addrOf s.cfg .modemCfg1) s.cfg1.value)
  | .i5bCfg2 => some (.write (addrOf s.cfg .modemCfg2) s.cfg2.value)
  | .i5sStdby => some (modeFrame s.cfg (modeCodeOf s.cfg .standby))
  | .i6Rxc => some (modeFrame s.cfg (modeCodeOf s.cfg .receiveContinuous))
  | .cmd => s.job.bind fun j => j.todo.head?

/-- The current step takes the byte its transaction returned. A step that makes no transaction takes nothing (log 15). -/
def takeData (d : Byte) (s : State) : State :=
  match s.step with
  | .none => s
  | .s0Irq => takeS0Irq d s
  | .s1Len => takeS1Len d s
  | .s2aCur => takeS2aCur d s
  | .s2bPtr => takeS2bPtr s
  | .s3Burst => takeS3Burst d s
  | .s4Split => s
  | .s5aHmsb => takeS5aHmsb d s
  | .s5bHlsb => takeS5bHlsb d s
  | .s5cPmsb => takeS5cPmsb d s
  | .s5dPlsb => takeS5dPlsb d s
  | .s6Snr => takeS6Snr d s
  | .s7Rssi => takeS7Rssi d s
  | .s8Ack => takeS8Ack s
  | .i0Rst => s
  | .i1Ver => takeI1Ver d s
  | .i2Sleep => takeI2Sleep s
  | .i3aTxb => takeInitWrite .i3bRxb s
  | .i3bRxb => takeInitWrite .i4aFmsb s
  | .i4aFmsb => takeInitWrite .i4bFmid s
  | .i4bFmid => takeInitWrite .i4cFlsb s
  | .i4cFlsb => takeInitWrite .i5aCfg1 s
  | .i5aCfg1 => takeInitWrite .i5bCfg2 s
  | .i5bCfg2 => takeI5bCfg2 s
  | .i5sStdby => takeI5sStdby s
  | .i6Rxc => takeI6Rxc s
  | .cmd => jobTakes d s

/-- The current step takes its transaction's TransportError: a data step of a service goes to S8_ACK (45_rx_sequencer.md R239),
S8_ACK sets ACKFAIL (R232), INIT and a command stop (60_exceptions.md R271). -/
def takeError (addr : Addr) (aux : Byte) (s : State) : State :=
  match s.step with
  | .none => s
  | .s0Irq => raiseError .transport addr aux s
  | .s1Len => raiseError .transport addr aux s
  | .s2aCur => raiseError .transport addr aux s
  | .s2bPtr => raiseError .transport addr aux s
  | .s3Burst => raiseError .transport addr aux s
  | .s4Split => s
  | .s5aHmsb => raiseError .transport addr aux s
  | .s5bHlsb => raiseError .transport addr aux s
  | .s5cPmsb => raiseError .transport addr aux s
  | .s5dPlsb => raiseError .transport addr aux s
  | .s6Snr => raiseError .transport addr aux s
  | .s7Rssi => raiseError .transport addr aux s
  | .s8Ack => failS8Ack addr aux s
  | .i0Rst => s
  | .i1Ver => failInit addr aux s
  | .i2Sleep => failSetMode addr aux s
  | .i3aTxb => failInit addr aux s
  | .i3bRxb => failInit addr aux s
  | .i4aFmsb => failInit addr aux s
  | .i4bFmid => failInit addr aux s
  | .i4cFlsb => failInit addr aux s
  | .i5aCfg1 => failInit addr aux s
  | .i5bCfg2 => failInit addr aux s
  | .i5sStdby => failSetMode addr aux s
  | .i6Rxc => failSetMode addr aux s
  | .cmd => jobFails addr aux s

/-- `Txn` (40_register_access.md R133): the exchange, the length check, and the answer or the TransportError to the current step. -/
def performFrame (f : Frame) (s : State) : State :=
  if answerGood (exchange f s).1 then takeData (answerData (exchange f s).1) (exchange f s).2
  else takeError f.addr (answerAux (exchange f s).1) (exchange f s).2

/-- BUS_RD (30_encoding.md R90, 40_register_access.md R130, R133): the frame [a, 0x00] is exchanged for the current step. -/
def execBusRd (addr : Addr) (s : State) : Host.Outcome State Fault Refusal :=
  unlessUnwritten s (performFrame (.read addr) s)

/-- BUS_WR (30_encoding.md R90, 40_register_access.md R131, R133): the frame [a | 0x80, v] is exchanged for the current step. -/
def execBusWr (addr : Addr) (data : Byte) (s : State) : Host.Outcome State Fault Refusal :=
  unlessUnwritten s (performFrame (.write addr data) s)

/-- A step without bus traffic: S4_SPLIT, a burst with no read left, and the waits (45_rx_sequencer.md R227, 60_exceptions.md R290). -/
def internalStep (s : State) : State :=
  match s.step with
  | .s3Burst => endS3Burst s
  | .s4Split => stepS4Split s
  | .none => s
  | .s0Irq => s
  | .s1Len => s
  | .s2aCur => s
  | .s2bPtr => s
  | .s5aHmsb => s
  | .s5bHlsb => s
  | .s5cPmsb => s
  | .s5dPlsb => s
  | .s6Snr => s
  | .s7Rssi => s
  | .s8Ack => s
  | .i0Rst => s
  | .i1Ver => s
  | .i2Sleep => s
  | .i3aTxb => s
  | .i3bRxb => s
  | .i4aFmsb => s
  | .i4bFmid => s
  | .i4cFlsb => s
  | .i5aCfg1 => s
  | .i5bCfg2 => s
  | .i5sStdby => s
  | .i6Rxc => s
  | .cmd => s

end Sys2Proof.Machine
end

