-- ==== Sys2Proof/Machine/Dispatch.lean ====
section
/-! DEFINITION. exec: one arm for each constructor of Instr, one direct call of its meaning. -/
namespace Sys2Proof.Machine

def exec (i : Instr) (s : State) : Host.Outcome State Fault Refusal :=
  match i with
  | .enc bw cr hm sf crc => Sys2Proof.Machine.execEnc bw cr hm sf crc s
  | .encp preset => Sys2Proof.Machine.execEncp preset s
  | .f2r => Sys2Proof.Machine.execF2r s
  | .r2f msb mid lsb => Sys2Proof.Machine.execR2f msb mid lsb s
  | .irqd byte => Sys2Proof.Machine.execIrqd byte s
  | .snrc byte => Sys2Proof.Machine.execSnrc byte s
  | .rssic byte => Sys2Proof.Machine.execRssic byte s
  | .rd addr => Sys2Proof.Machine.execRd addr s
  | .wr addr value => Sys2Proof.Machine.execWr addr value s
  | .brd addr length => Sys2Proof.Machine.execBrd addr length s
  | .mode mcode => Sys2Proof.Machine.execMode mcode s
  | .sfrq => Sys2Proof.Machine.execSfrq s
  | .smdm c1 c2 => Sys2Proof.Machine.execSmdm c1 c2 s
  | .init preset => Sys2Proof.Machine.execInit preset s
  | .busRd addr => Sys2Proof.Machine.execBusRd addr s
  | .busWr addr data => Sys2Proof.Machine.execBusWr addr data s

end Sys2Proof.Machine
end

