-- ==== Sys2Proof/Machine/Inputs.lean ====
section
/-! DEFINITION. The host's input events (60_exceptions.md R277, R280, R290, R292; 70_reset_and_hazards.md R300, R311). -/
namespace Sys2Proof.Machine

/-- A sample of IRQ_LINE; a rising edge emits EDGE and sets PEND unless HALTED (60_exceptions.md R280). -/
def sampleIrq (level : Bool) (s : State) : State :=
  if level = true ∧ s.irqLine = false then
    emit .edge { s with irqLine := level, pend := if s.phase = .halted then s.pend else true }
  else { s with irqLine := level }

/-- SHUTDOWN, at a transaction boundary (60_exceptions.md R292). -/
def shutdown (s : State) : State :=
  emit (.rst false) { (unlock s) with pend := false, rstN := false, phase := .halted }

/-- BLOCK_RESET (70_reset_and_hazards.md R300): every block register to its reset value; the parameters and the host's side of
the ports stay (log 10). -/
def blockReset (s : State) : State :=
  { State.reset with cfg := s.cfg, port := s.port, mhzIn := s.mhzIn, irqLine := s.irqLine, inputs := s.inputs,
                     answers := s.answers, draws := s.draws, grants := s.grants, grantDraws := s.grantDraws, chip := s.chip }

/-- The host offers one more command; it waits behind those already offered (60_exceptions.md R276). -/
def offerCommand (o : Offer) (s : State) : State := { s with port := s.port ++ [o] }

/-- An input event takes effect; a SHUTDOWN that finds no transaction in flight takes effect at once. -/
def takeInput (e : Input) (s : State) : State :=
  match e with
  | .quiet => s
  | .irqSample level => sampleIrq level s
  | .timerLow => timerLowDone s
  | .timerHigh => timerHighDone s
  | .shutdown => shutdown s
  | .shutdownInFlight => shutdown s
  | .blockReset => blockReset s
  | .offer o => offerCommand o s

end Sys2Proof.Machine
end

