-- ==== Sys2Proof/Machine/Cycle.lean ====
section
/-! DEFINITION. What the block does in a step of its own: the sequencer's step while the lock is held, else a service, a command
or nothing (60_exceptions.md R276, R277, R281, R289), and how the host's word is placed where the next step reads it. -/
namespace Sys2Proof.Machine

/-- The offered word is taken from the port and decoded: its instruction is performed, or ILLEGAL is raised (30_encoding.md R99). -/
def acceptOffer (o : Offer) (rest : List Offer) (s : State) : Host.Outcome State Fault Refusal :=
  match decode (.command o.cw) with
  | .ok i => exec i { s with port := rest, mhzIn := o.mhz }
  | .error _ => .next (acceptIllegal o.cw { s with port := rest, mhzIn := o.mhz })

/-- Which of a waiting command and a waiting service takes the lock: the next listed grant, else a free value
(60_exceptions.md R277, log 2). -/
def arbitrate (s : State) : Agent × State :=
  match s.grants with
  | g :: rest => (g, { s with grants := rest })
  | [] => (Config.grantDraw s.grantDraws, { s with grantDraws := s.grantDraws + 1 })

/-- The sequencer's step while the lock is held: the current step's frame, or its work without a transaction. -/
def sequencerStep (s : State) : Host.Outcome State Fault Refusal :=
  match selectFrame s with
  | some f => exec f.instr s
  | none => unlessUnwritten s (internalStep s)

/-- The block's step with the lock free: a service, a command, or quiescence (60_exceptions.md R281, R276, R289). -/
def freeStep (s : State) : Host.Outcome State Fault Refusal :=
  match s.port with
  | [] => .next (if serviceReady s then serviceEntry s else s)
  | o :: rest =>
    if serviceReady s then
      match (arbitrate s).1 with
      | .service => .next (serviceEntry (arbitrate s).2)
      | .command => acceptOffer o rest (arbitrate s).2
    else acceptOffer o rest s

/-- The block's own step. -/
def ownStep (s : State) : Host.Outcome State Fault Refusal := if s.busy then sequencerStep s else freeStep s

/-- The transaction in flight while the lock is held: the current step's frame (45_rx_sequencer.md R238). -/
def inFlight (s : State) : Option Frame := if s.busy then selectFrame s else none

/-- SHUTDOWN while a transaction is in flight: the transaction completes, with its BUS event, and nothing of the command or the
service follows: its answer goes to no register, RESP and ERR are not written, no packet is emitted (60_exceptions.md R292,
log 25). The rule does not say whether a mode write completed so still moves the tracker; here MODEV and MODE stay, whether it
succeeds or fails (DEDUCED, log 25). -/
def shutdownDuring (s : State) : Host.Outcome State Fault Refusal :=
  match inFlight s with
  | some f => unlessUnwritten s (shutdown (exchange f s).2)
  | none => .next (takeInput .shutdownInFlight s)

/-- One step: the next input event if one is due, else the block's own step (92 D1, log 3). -/
def nextStep (s : State) : Host.Outcome State Fault Refusal :=
  match s.inputs with
  | [] => ownStep s
  | .quiet :: rest => ownStep { s with inputs := rest }
  | .shutdownInFlight :: rest => shutdownDuring { s with inputs := rest }
  | e :: rest => .next (takeInput e { s with inputs := rest })

/-- The state with a command word alone on the port, the lock free, no input due, and the command's turn next. -/
def placeCommand (cw : CommandWord) (s : State) : State :=
  { s with port := [⟨cw, s.mhzIn⟩], inputs := [], busy := false, owner := .command, step := .none, job := none,
           grants := if s.pend && s.phase = .run then .command :: s.grants else s.grants }

/-- The state with a frame as the next transaction of a command in progress, and no input due. -/
def placeFrame (kind : JobKind) (f : Frame) (s : State) : State :=
  { s with inputs := [], busy := true, owner := .command, step := .cmd, job := some ⟨kind, [f], []⟩ }

/-- The state in which the next step runs the word `w` of `nbits` bits: a command word on the port, or a frame as the next
transaction of an RD or WR in progress; an unknown frame is no instruction, and nothing is placed (log 17). -/
def placeWord (nbits w : Nat) (s : State) : State :=
  match wordOfTable nbits w with
  | .command cw => placeCommand cw s
  | .frame fw =>
    match decodeFrame fw with
    | .ok (.busRd a) => placeFrame .rd (.read a) s
    | .ok (.busWr a v) => placeFrame .wr (.write a v) s
    | _ => s

end Sys2Proof.Machine
end

