-- ==== Sys2Proof/Machine/Step.lean ====
section
/-! DEFINITION. The machine's step, and the host's placing of an instruction where the step fetches its next one. -/
namespace Sys2Proof.Machine

/-- One step of the machine (92 D1). -/
def step (s : State) : Host.Outcome State Fault Refusal := nextStep s

/-- `s` with the instruction of an opcode-table word where the next step fetches it (log 17). -/
def State.withFetchWord (s : State) (nbits w : Nat) : State := placeWord nbits w s

end Sys2Proof.Machine
end

