-- ==== Sys2Proof/Machine/Assembler.lean ====
section
/-! DEFINITION. The assembly language of 30_encoding.md R120 to R123: number forms, register names, operands, the
pseudo-instructions' expansions, and the input events of a program listing. A line is a list of characters. -/
namespace Sys2Proof.Machine

/-- What a line of a program listing stands for: a command with its side operand, or input events (30_encoding.md R121, R123). -/
inductive AsmItem where
  | command (i : Instr) (mhz : Option Rat)
  | events (es : List Input)
deriving DecidableEq, Repr

/-- Blanks between words: a space or a tab (DESIGN CHOICE, log 23: 30_encoding.md R120 does not say). -/
def isBlank (c : Char) : Bool := c = ' ' || c = '\t'

/-- A text without the blanks around it. -/
def trimBlanks (cs : List Char) : List Char := ((cs.dropWhile isBlank).reverse.dropWhile isBlank).reverse

/-- The text before the first character that `stop` holds of, and what follows it if there is one. -/
def cutWhere (stop : Char → Bool) : List Char → List Char × Option (List Char)
  | [] => ([], none)
  | c :: rest => if stop c then ([], some rest) else (c :: (cutWhere stop rest).1, (cutWhere stop rest).2)

/-- The text before the first `sep`, and what follows it if there is one. -/
def cutAt (sep : Char) (cs : List Char) : List Char × Option (List Char) := cutWhere (fun c => c = sep) cs

/-- A line's first word, ended by the first blank, and the text after that blank (DESIGN CHOICE, log 23). -/
def firstWord (cs : List Char) : List Char × Option (List Char) := cutWhere isBlank cs

/-- The pieces of a text between `sep` characters, each without the blanks around it. -/
def piecesAt (sep : Char) : List Char → List Char → List (List Char)
  | acc, [] => [trimBlanks acc.reverse]
  | acc, c :: rest => if c = sep then trimBlanks acc.reverse :: piecesAt sep [] rest else piecesAt sep (c :: acc) rest

/-- The value of a hex digit. -/
def hexDigit (c : Char) : Option Nat :=
  if '0' ≤ c ∧ c ≤ '9' then some (c.toNat - '0'.toNat)
  else if 'a' ≤ c ∧ c ≤ 'f' then some (c.toNat - 'a'.toNat + 10)
  else if 'A' ≤ c ∧ c ≤ 'F' then some (c.toNat - 'A'.toNat + 10)
  else none

/-- The value of a nonempty digit string in base `b`, `none` on any other character. -/
def digitsIn (b : Nat) : Nat → List Char → Option Nat
  | acc, [] => some acc
  | acc, c :: rest =>
    match hexDigit c with
    | some d => if d < b then digitsIn b (acc * b + d) rest else none
    | none => none

/-- A natural number: `0x` and hex digits, or decimal digits (30_encoding.md R120). -/
def parseNat : List Char → Option Nat
  | '0' :: 'x' :: c :: rest => digitsIn 16 0 (c :: rest)
  | c :: rest => digitsIn 10 0 (c :: rest)
  | [] => none

/-- A number of MHz: a natural number, or decimal digits with a fraction of digits, "read as an exact decimal rational"
(30_encoding.md R120). -/
def parseRational (cs : List Char) : Option Rat :=
  match cutAt '.' cs with
  | (whole, none) => (parseNat whole).map fun n => mkRat n 1
  | (w :: whole, some (d :: frac)) =>
    match digitsIn 10 0 (w :: whole), digitsIn 10 0 (d :: frac) with
    | some n, some f => some (mkRat (n * 10 ^ (frac.length + 1) + f) (10 ^ (frac.length + 1)))
    | _, _ => none
  | _ => none

/-- A character list in double quotes, "which stands for its ASCII bytes" (30_encoding.md R120). DESIGN CHOICE (log 23): R121
gives no mnemonic an operand of this form, so no line of a listing takes it, and a character outside ASCII is no form. -/
def parseChars : List Char → Option (List Byte)
  | '"' :: rest =>
    match rest.reverse with
    | '"' :: body => if body.all (fun c => c.toNat < 128) then some (body.reverse.map fun c => BitVec.ofNat 8 c.toNat) else none
    | _ => none
  | _ => none

/-- A number below 2^n. -/
def parseBits (n : Nat) (cs : List Char) : Option (BitVec n) :=
  (parseNat cs).bind fun v => if v < 2 ^ n then some (BitVec.ofNat n v) else none

/-- The text after a prefix. -/
def afterPrefix (lead cs : List Char) : Option (List Char) := if lead.isPrefixOf cs then some (cs.drop lead.length) else none

/-- The entry a text names in a list of names. -/
def lookupName {α : Type} (names : List (String × α)) (cs : List Char) : Option α :=
  (names.find? fun n => n.1.toList = cs).map fun n => n.2

/-- The role names of 10_state.md R40. -/
def roleNames : List (String × Role) :=
  [("FIFO", .fifo), ("OPMODE", .opMode), ("FRF_MSB", .frfMsb), ("FRF_MID", .frfMid), ("FRF_LSB", .frfLsb),
   ("FIFO_ADDR_PTR", .fifoAddrPtr), ("FIFO_TX_BASE", .fifoTxBase), ("FIFO_RX_BASE", .fifoRxBase),
   ("FIFO_RX_CUR", .fifoRxCur), ("IRQ_FLAGS", .irqFlags), ("RX_NB_BYTES", .rxNbBytes), ("HDR_CNT_MSB", .hdrCntMsb),
   ("HDR_CNT_LSB", .hdrCntLsb), ("PKT_CNT_MSB", .pktCntMsb), ("PKT_CNT_LSB", .pktCntLsb), ("PKT_SNR", .pktSnr),
   ("PKT_RSSI", .pktRssi), ("MODEM_CFG1", .modemCfg1), ("MODEM_CFG2", .modemCfg2), ("VERSION", .version)]

/-- A register address: a number in [0x00, 0x7F] or a role name (30_encoding.md R120). -/
def parseAddr (p : Params) (cs : List Char) : Option Addr :=
  match lookupName roleNames cs with
  | some r => some (addrOf p r)
  | none => parseBits 7 cs

/-- A bandwidth by name, or `#n` for a raw code (30_encoding.md R121). -/
def parseBw (p : Params) (cs : List Char) : Option (BitVec 4) :=
  match lookupName [("7.8k", Bandwidth.khz7p8), ("10.4k", .khz10p4), ("15.6k", .khz15p6), ("20.8k", .khz20p8),
      ("31.25k", .khz31p25), ("41.7k", .khz41p7), ("62.5k", .khz62p5), ("125k", .khz125), ("250k", .khz250),
      ("500k", .khz500)] cs with
  | some b => some (bwCodeOf p b)
  | none => (afterPrefix ['#'] cs).bind (parseBits 4)

/-- A coding rate by name, or `#n` for a raw code (30_encoding.md R121). -/
def parseCr (p : Params) (cs : List Char) : Option (BitVec 3) :=
  match lookupName [("4/5", CodingRate.cr4of5), ("4/6", .cr4of6), ("4/7", .cr4of7), ("4/8", .cr4of8)] cs with
  | some c => some (crCodeOf p c)
  | none => (afterPrefix ['#'] cs).bind (parseBits 3)

/-- A preset by name (30_encoding.md R121, 92 D37). -/
def parsePreset (cs : List Char) : Option (BitVec 2) :=
  lookupName [("default", 0#2), ("fast_short", 1#2), ("slow_long_1", 2#2), ("slow_long_2", 3#2)] cs

/-- ENC's five operands (30_encoding.md R121). -/
def parseEnc (p : Params) (bw cr hm sf crc : List Char) : Option Instr :=
  match (afterPrefix "bw=".toList bw).bind (parseBw p), (afterPrefix "cr=".toList cr).bind (parseCr p),
      (afterPrefix "hm=".toList hm).bind (lookupName [("explicit", 0#1), ("implicit", 1#1)]),
      (afterPrefix "sf=".toList sf).bind (parseBits 4),
      (afterPrefix "crc=".toList crc).bind (lookupName [("on", 1#1), ("off", 0#1)]) with
  | some bw, some cr, some hm, some sf, some crc => some (.enc bw cr hm sf crc)
  | _, _, _, _, _ => none

/-- A command with no side operand. -/
def plain (i : Option Instr) : Option AsmItem := i.map fun i => .command i none

/-- A mnemonic or pseudo-instruction with its operands (30_encoding.md R121, R122). -/
def parseCommand (p : Params) (name : List Char) (ops : List (List Char)) : Option AsmItem :=
  if name = "ENC".toList then
    match ops with
    | [bw, cr, hm, sf, crc] => plain (parseEnc p bw cr hm sf crc)
    | _ => none
  else if name = "R2F".toList then
    match ops.map (parseBits 8) with
    | [some msb, some mid, some lsb] => plain (some (.r2f msb mid lsb))
    | _ => none
  else if name = "INIT".toList then
    match ops with
    | [mhz, preset] =>
      match parseRational mhz, parsePreset preset with
      | some q, some i => some (.command (.init i) (some q))
      | _, _ => none
    | _ => none
  else if name = "SMDM".toList then
    match ops.map (parseBits 8) with
    | [some c1, some c2] => plain (some (.smdm c1 c2))
    | _ => none
  else
    match ops with
    | [] =>
      if name = "CLRIRQ".toList then plain (some (.wr (addrOf p .irqFlags) 0xFF#8))
      else if name = "SLEEP".toList then plain (some (.mode (modeCodeOf p .sleep)))
      else if name = "STANDBY".toList then plain (some (.mode (modeCodeOf p .standby)))
      else if name = "RXCONT".toList then plain (some (.mode (modeCodeOf p .receiveContinuous)))
      else none
    | [a] =>
      if name = "ENCP".toList then plain ((parsePreset a).map .encp)
      else if name = "F2R".toList then (parseRational a).map fun q => .command .f2r (some q)
      else if name = "SFRQ".toList then (parseRational a).map fun q => .command .sfrq (some q)
      else if name = "IRQD".toList then plain ((parseBits 8 a).map .irqd)
      else if name = "SNRC".toList then plain ((parseBits 8 a).map .snrc)
      else if name = "RSSIC".toList then plain ((parseBits 8 a).map .rssic)
      else if name = "RD".toList then plain ((parseAddr p a).map .rd)
      else if name = "MODE".toList then
        plain ((lookupName [("sleep", OpMode.sleep), ("standby", .standby), ("rxcont", .receiveContinuous)] a).map
          fun m => .mode (modeCodeOf p m))
      else if name = "APPLY".toList then
        plain ((parsePreset a).map fun i => .smdm (pack p (presetConfig i)).1 (pack p (presetConfig i)).2)
      else if name = "SETPTR".toList then plain ((parseBits 8 a).map fun v => .wr (addrOf p .fifoAddrPtr) v)
      else if name = "RDFIFO".toList then plain ((parseBits 8 a).map fun n => .brd (addrOf p .fifo) n)
      else none
    | [a, b] =>
      match parseAddr p a, parseBits 8 b with
      | some addr, some v =>
        if name = "WR".toList then plain (some (.wr addr v))
        else if name = "BRD".toList then plain (some (.brd addr v))
        else none
      | _, _ => none
    | _ => none

/-- The input events of a listing: a rising edge is a low sample and then a high one (30_encoding.md R123, 60_exceptions.md R280;
log 23). -/
def parseEvent (name : List Char) (operand : Option (List Char)) : Option AsmItem :=
  match operand.map trimBlanks with
  | none => if name = "@edge".toList then some (.events [.irqSample false, .irqSample true]) else none
  | some text =>
    if name = "@timer".toList then
      (lookupName [("low", Input.timerLow), ("high", Input.timerHigh)] text).map fun e => .events [e]
    else none

/-- One line of a listing, `MNEMONIC operand, operand, …`, its comment after `;` left out (30_encoding.md R120). The mnemonic ends
at the first blank, a space or a tab; R120 does not say which (DESIGN CHOICE, log 23). -/
def assembleLine (p : Params) (line : List Char) : Option AsmItem :=
  match firstWord (trimBlanks (cutAt ';' line).1) with
  | (name, operands) =>
    match parseEvent name operands with
    | some e => some e
    | none => parseCommand p name (operands.elim [] (piecesAt ',' []))

/-- A line's command as the host offers it on the port: the word, and MHZ_IN where the line gives one. -/
def AsmItem.offer : AsmItem → Option Offer
  | .command i mhz => some ⟨encodeCommand i, .rational (mhz.getD 0)⟩
  | .events _ => none

end Sys2Proof.Machine
end

