-- ==== Sys2Proof/Safety.lean ====
section
/-! DEFINITION. What every state of a run from reset satisfies: the lock and STEP agree (10_state.md R21 to R24), every register
a step reads is written (00_scope.md R11), the burst's lengths (45_rx_sequencer.md R226), the ranges of the working registers
(10_state.md R26), the history's frames and packets (30_encoding.md R91, 45_rx_sequencer.md R240), the reserved bits of ERR
(10_state.md R31), the tracked mode (10_state.md R25) and the canonical form of an attached chip's memories. -/
namespace Sys2Proof.Machine

/-- The steps of the receive sequence (10_state.md R23). -/
def isReceive : SeqStep → Bool
  | .s0Irq => true
  | .s1Len => true
  | .s2aCur => true
  | .s2bPtr => true
  | .s3Burst => true
  | .s4Split => true
  | .s5aHmsb => true
  | .s5bHlsb => true
  | .s5cPmsb => true
  | .s5dPlsb => true
  | .s6Snr => true
  | .s7Rssi => true
  | .s8Ack => true
  | _ => false

/-- The steps of INIT (10_state.md R23). -/
def isInit : SeqStep → Bool
  | .i0Rst => true
  | .i1Ver => true
  | .i2Sleep => true
  | .i3aTxb => true
  | .i3bRxb => true
  | .i4aFmsb => true
  | .i4bFmid => true
  | .i4cFlsb => true
  | .i5aCfg1 => true
  | .i5bCfg2 => true
  | .i5sStdby => true
  | .i6Rxc => true
  | _ => false

/-- A command in progress has a transaction to make, and a MODE command a legal code. -/
def jobOk (p : Params) : Option Job → Bool
  | some ⟨.mode m, _ :: _, _⟩ => legalMode p m
  | some ⟨_, _ :: _, _⟩ => true
  | _ => false

/-- The lock, OWNER, PHASE and STEP agree: no sequence without the lock, a service only in RUN, INIT only in IDLE, no sequence
and no pending edge in HALTED (10_state.md R21, R22, 60_exceptions.md R280, R282). -/
def lockOk (s : State) : Bool :=
  (if s.step = .none then !s.busy && s.owner = .command && s.job = none
   else if s.step = .cmd then s.busy && s.owner = .command && s.phase != .halted && jobOk s.cfg s.job
   else if isInit s.step then s.busy && s.owner = .command && s.phase = .idle && s.job = none
   else s.busy && s.owner = .service && s.phase = .run && s.job = none)
  && (s.phase != .halted || !s.pend)

/-- The working registers that hold a written value whenever STEP is at a step. -/
def stepHolds : SeqStep → List WorkReg
  | .none => []
  | .s0Irq => []
  | .s1Len => [.irq]
  | .s2aCur => [.irq, .len]
  | .s2bPtr => [.irq, .len, .cur]
  | .s3Burst => [.irq, .len, .cur, .cnt, .buf]
  | .s4Split => [.irq, .len, .cur, .cnt, .buf]
  | .s5aHmsb => [.irq, .len, .buf, .hdr, .pay]
  | .s5bHlsb => [.irq, .len, .buf, .hdr, .pay, .tmp]
  | .s5cPmsb => [.irq, .len, .buf, .hdr, .pay, .hdrcnt]
  | .s5dPlsb => [.irq, .len, .buf, .hdr, .pay, .hdrcnt, .tmp]
  | .s6Snr => [.irq, .len, .buf, .hdr, .pay, .hdrcnt, .pktcnt]
  | .s7Rssi => [.irq, .len, .buf, .hdr, .pay, .hdrcnt, .pktcnt, .snrq]
  | .s8Ack => []
  | .i0Rst => [.frf, .cfg1, .cfg2]
  | .i1Ver => [.frf, .cfg1, .cfg2]
  | .i2Sleep => [.frf, .cfg1, .cfg2, .ver]
  | .i3aTxb => [.frf, .cfg1, .cfg2, .ver]
  | .i3bRxb => [.frf, .cfg1, .cfg2, .ver]
  | .i4aFmsb => [.frf, .cfg1, .cfg2, .ver]
  | .i4bFmid => [.frf, .cfg1, .cfg2, .ver]
  | .i4cFlsb => [.frf, .cfg1, .cfg2, .ver]
  | .i5aCfg1 => [.frf, .cfg1, .cfg2, .ver]
  | .i5bCfg2 => [.frf, .cfg1, .cfg2, .ver]
  | .i5sStdby => [.frf, .cfg1, .cfg2, .ver]
  | .i6Rxc => [.frf, .cfg1, .cfg2, .ver]
  | .cmd => []

/-- Every register the current step, or a later step of its sequence, reads from an earlier one is written (00_scope.md R11). -/
def writtenOk (s : State) : Bool := (stepHolds s.step).all (isWritten s)

/-- The burst's lengths: CNT counts the bytes of BUF up to k, and header and payload make up k bytes (45_rx_sequencer.md R226, R227). -/
def burstOk (s : State) : Bool :=
  match s.step with
  | .s3Burst => s.buf.value.length = s.cnt.value.toNat && s.cnt.value.toNat ≤ burstReads s
  | .s4Split => s.buf.value.length = burstReads s
  | .s5aHmsb => s.pay.value.length + 4 = burstReads s
  | .s5bHlsb => s.pay.value.length + 4 = burstReads s
  | .s5cPmsb => s.pay.value.length + 4 = burstReads s
  | .s5dPlsb => s.pay.value.length + 4 = burstReads s
  | .s6Snr => s.pay.value.length + 4 = burstReads s
  | .s7Rssi => s.pay.value.length + 4 = burstReads s
  | _ => true

/-- The ranges of the working registers: BUF at most 255 bytes, PAY at most 251, SNRQ in [-64, 63], RSSI in [-137, 118]
(10_state.md R26). -/
def rangeOk (s : State) : Bool :=
  s.buf.value.length ≤ 255 && s.pay.value.length ≤ 251
    && (-64 ≤ s.snrq.value && s.snrq.value ≤ 63) && (-137 ≤ s.rssi.value.toInt && s.rssi.value.toInt ≤ 118)

/-- A legal event: a frame of 30_encoding.md R90, a packet within the ranges of 45_rx_sequencer.md R240, a nonzero ERR word. -/
def eventOk : Event → Bool
  | .bus b0 b1 _ _ => b0.getLsbD 7 || b1 = 0x00#8
  | .pkt r => r.payload.length ≤ 251 && (-64 ≤ r.snrq && r.snrq ≤ 63) && r.snrDb = snrDb r.snrq
      && (-137 ≤ r.rssi.toInt && r.rssi.toInt ≤ 118) && r.crcError = r.irq.getLsbD 5
  | .err w => w != 0
  | .rst _ => true
  | .edge => true
  | .cmd _ => true

/-- Every event of the history is legal. -/
def historyOk (s : State) : Bool := s.history.all eventOk

/-- ERR's reserved bits read 0 and CODE is never 7 (10_state.md R31, 60_exceptions.md R270). -/
def errOk (s : State) : Bool := s.err.extractLsb' 24 8 = 0#8 && s.err.extractLsb' 0 3 != 7#3

/-- MODE holds a `MODE_CODE` value while MODEV = 1 (10_state.md R25). -/
def modeOk (s : State) : Bool := !s.modev || legalMode s.cfg s.mode

/-- RST_N is low only in I0_RST and in HALTED (70_reset_and_hazards.md R311, 60_exceptions.md R292). -/
def rstOk (s : State) : Bool := s.rstN || s.step = .i0Rst || s.phase = .halted

/-- An attached chip's memories are in canonical form. -/
def chipOk (s : State) : Bool :=
  match s.chip with
  | none => true
  | some c => c.wf

/-- What every state of a run from reset satisfies. -/
def stateOk (s : State) : Bool :=
  lockOk s && writtenOk s && burstOk s && rangeOk s && historyOk s && errOk s && modeOk s && rstOk s && chipOk s

/-! The terms the statements use: the states a command leaves, written field by field, and runs of the machine. -/

/-- `s` after the envelope's opening for the word `cw` (60_exceptions.md R276). -/
def opened (cw : CommandWord) (s : State) : State :=
  { s with busy := true, owner := .command, step := .cmd, resp := ⟨.empty, Reg.unwritten 0⟩,
           history := s.history ++ [.cmd cw] }

/-- `s` after a command completed without an error and with the result `r` (60_exceptions.md R276). -/
def finished (r : RespResult) (s : State) : State :=
  { s with err := 0, resp := ⟨r, Reg.holding 0⟩, busy := false, owner := .command, step := .none, job := none }

/-- `s` after a command failed with the ERR word `w`: RESP holds only ERR (10_state.md R28, 60_exceptions.md R276). -/
def failed (w : BitVec 32) (s : State) : State :=
  { s with err := w, resp := ⟨.empty, Reg.holding w⟩, history := s.history ++ [.err w],
           busy := false, owner := .command, step := .none, job := none }

/-- `s` after the command `i` was accepted and refused with the error `e`, having done nothing (60_exceptions.md R275). -/
def refusedWith (e : ErrRec) (i : Instr) (s : State) : State :=
  { s with err := errWord e, resp := ⟨.empty, Reg.holding (errWord e)⟩,
           history := s.history ++ [.cmd (encodeCommand i), .err (errWord e)] }

/-- `s` with the frames `todo` of a command of kind `kind` still to be exchanged. -/
def withJob (kind : JobKind) (todo : List Frame) (s : State) : State := { s with job := some ⟨kind, todo, []⟩ }

/-- The BUS event of a frame and its answer (20_memory.md R60). -/
def busEvent (f : Frame) (a : Answer) : Event := .bus f.b0 f.b1 a.length a.bytes

/-- `s` after the frames `fs` were exchanged and answered, in order, by `as`, the first of the listed answers. -/
def afterFrames (fs : List Frame) (as rest : List Answer) (s : State) : State :=
  { s with answers := rest, history := s.history ++ List.zipWith busEvent fs as }

/-- `n` steps of the machine from `s` end in the next state `t`. -/
def runsTo (n : Nat) (s t : State) : Prop := Host.Core.run Sys2Proof.core n s = .next t

/-- The lock is free and no input event is due. -/
def free (s : State) : Prop := s.busy = false ∧ s.inputs = []

/-- The lock is free, no input event is due, and the phase permits bus commands (60_exceptions.md R282). -/
def freeForBus (s : State) : Prop := s.busy = false ∧ s.inputs = [] ∧ s.phase ≠ .halted

/-- The lock is held, no input event is due, and STEP is `st`. -/
def holdsAt (st : SeqStep) (s : State) : Prop := s.busy = true ∧ s.inputs = [] ∧ s.step = st

/-- Every bus event of the history is a frame of 30_encoding.md R90: byte 0 with bit 7, or byte 1 zero. -/
def framesLegal (h : List Event) : Prop :=
  ∀ b0 b1 l bs, Event.bus b0 b1 l bs ∈ h → b0.getLsbD 7 = true ∨ b1 = 0x00#8

end Sys2Proof.Machine
end

