-- ==== Sys2Proof/Certificates/Slice0/Obligations.lean ====
section
/-! DEFINITION. The statements for the provers, from the spec's numbered rules. Their helpers stand at
the end of Safety.lean. -/
open Sys2Proof Sys2Proof.Machine

/-! ## Encoding -/

/-- Decode and encode agree: decoding the encoding of an instruction gives it back, every operand at every value, and a word that
decodes is the encoding of what it decodes to, so no two words share an instruction (30_encoding.md R90, R96, R97). -/
def Obligations.DecodeAndEncodeAgree : Prop :=
  (∀ i : Instr, decode (encode i) = .ok i) ∧ ∀ (w : Encoded) (i : Instr), decode w = .ok i → encode i = w

/-- A word decodes exactly when it selects a row of the operation map, and the row names its OP and whether it makes bus
transactions (30_encoding.md R97). -/
def Obligations.WordSelectsRow : Prop :=
  (∀ w : CommandWord, (∃ i, decodeCommand w = .ok i) ↔ ∃ r ∈ commandRows, w &&& r.mask = r.value) ∧
  (∀ (w : CommandWord) (i : Instr), decodeCommand w = .ok i →
    ∃ r ∈ commandRows, w &&& r.mask = r.value ∧ r.op = w.extractLsb' 28 4 ∧ r.bus = usesBus i)

/-- The frame bytes (30_encoding.md R90): a read is `[a, 0x00]` with bit 7 clear, a write is `[a | 0x80, v]` with bit 7 set.
Any 16-bit value is a read frame, a write frame or unknown, and no step emits an unknown frame (R91). -/
def Obligations.OnlyLegalFramesEmitted : Prop :=
  (∀ a : Addr, (Frame.read a).b0 = a.setWidth 8 ∧ (Frame.read a).b1 = 0x00#8 ∧ (Frame.read a).b0.getLsbD 7 = false ∧
    encode (.busRd a) = .frame ((Frame.read a).b0 ++ (Frame.read a).b1)) ∧
  (∀ (a : Addr) (v : Byte), (Frame.write a v).b0 = a.setWidth 8 ||| 0x80#8 ∧ (Frame.write a v).b1 = v ∧
    (Frame.write a v).b0.getLsbD 7 = true ∧ encode (.busWr a v) = .frame ((Frame.write a v).b0 ++ (Frame.write a v).b1)) ∧
  (∀ w : FrameWord,
    (w.getLsbD 15 = true → decodeFrame w = .ok (.busWr (w.extractLsb' 8 7) (w.extractLsb' 0 8))) ∧
    (w.getLsbD 15 = false → w.extractLsb' 0 8 = 0#8 → decodeFrame w = .ok (.busRd (w.extractLsb' 8 7))) ∧
    (w.getLsbD 15 = false → w.extractLsb' 0 8 ≠ 0#8 → decodeFrame w = .error .unknownFrame)) ∧
  ∀ s t : State, framesLegal s.history → step s = .next t → framesLegal t.history

/-- A few words written out from the spec's examples decode to the instructions they stand for (95_test_vectors.md V2 to V5). -/
def Obligations.ExampleWordsDecode : Prop :=
  decodeTableWord 32 0x17278000 = some (.enc 7 1 0 7 1) ∧ decodeTableWord 32 0x40D90666 = some (.r2f 0xD9 0x06 0x66) ∧
  decodeTableWord 32 0x900012FF = some (.wr 0x12 0xFF) ∧ decodeTableWord 32 0xB0000005 = some (.mode 5) ∧
  decodeTableWord 32 0x80004201 = none ∧ decodeTableWord 16 0x92FF = some (.busWr 0x12 0xFF)

/-! ## Status, error and reset state -/

/-- STATUS: each field at its bits, OWNER 0 while BUSY = 0, MODE 0 while MODEV = 0, the reserved bits 0 (10_state.md R30). The ERR
word: each field at its bits, the reserved bits 0, CODE never 7 (10_state.md R31). The codes are the tables' own: PHASE
(10_state.md R21), OWNER (R22), STEP (R23) and ERR.CODE (R31, 60_exceptions.md R270). -/
def Obligations.StatusAndErrFields : Prop :=
  (∀ s : State,
    s.status.extractLsb' 0 2 = s.phase.code ∧ s.status.getLsbD 2 = s.busy ∧
    s.status.getLsbD 3 = (s.busy && s.owner = .service) ∧ s.status.getLsbD 4 = s.pend ∧ s.status.getLsbD 5 = s.modev ∧
    s.status.extractLsb' 6 3 = (if s.modev then s.mode else 0#3) ∧ s.status.extractLsb' 9 7 = 0#7) ∧
  (∀ e : ErrRec,
    (errWord e).extractLsb' 0 3 = e.code.code ∧ (errWord e).getLsbD 3 = e.ackfail ∧
    (errWord e).extractLsb' 4 5 = e.step.code ∧ (errWord e).extractLsb' 9 7 = e.addr ∧
    (errWord e).extractLsb' 16 8 = e.aux ∧ (errWord e).extractLsb' 24 8 = 0#8 ∧ (errWord e).extractLsb' 0 3 ≠ 7#3) ∧
  [Phase.idle, .run, .halted].map Phase.code = [0, 1, 2] ∧
  [SeqStep.none, .s0Irq, .s1Len, .s2aCur, .s2bPtr, .s3Burst, .s4Split, .s5aHmsb, .s5bHlsb, .s5cPmsb, .s5dPlsb, .s6Snr, .s7Rssi,
      .s8Ack].map SeqStep.code =
    [0x00, 0x01, 0x02, 0x03, 0x04, 0x05, 0x06, 0x07, 0x08, 0x09, 0x0A, 0x0B, 0x0C, 0x0D] ∧
  [SeqStep.i0Rst, .i1Ver, .i2Sleep, .i3aTxb, .i3bRxb, .i4aFmsb, .i4bFmid, .i4cFlsb, .i5aCfg1, .i5bCfg2, .i5sStdby, .i6Rxc,
      .cmd].map SeqStep.code =
    [0x10, 0x11, 0x12, 0x13, 0x14, 0x15, 0x16, 0x17, 0x18, 0x19, 0x1A, 0x1B, 0x1E] ∧
  [ErrCode.none, .transport, .ident, .framing, .illegal, .range, .notPermitted].map ErrCode.code = [0, 1, 2, 3, 4, 5, 6]

/-- The block's values after reset (10_state.md R53). -/
def Obligations.ResetValues : Prop :=
  State.reset.phase = .idle ∧ State.reset.busy = false ∧ State.reset.owner = .command ∧ State.reset.step = .none ∧
  State.reset.pend = false ∧ State.reset.modev = false ∧ State.reset.mode = 0 ∧ State.reset.err = 0 ∧
  State.reset.resp.result = .empty ∧ State.reset.resp.err.written = false ∧
  (∀ r : WorkReg, isWritten State.reset r = false) ∧ State.reset.rstN = true ∧ State.reset.history = []

/-- BLOCK_RESET takes effect in any state, whatever is in progress: every block register at its reset value, RST_N high with no
RST event, the history empty (70_reset_and_hazards.md R300). That the parameters, an attached chip and the host's side of the
ports stay is the model's reading (DEDUCED, log 10). -/
def Obligations.BlockResetResets : Prop := ∀ (s : State) (rest : List Input), s.inputs = .blockReset :: rest →
  ∃ t, step s = .next t ∧ t.phase = .idle ∧ t.busy = false ∧ t.owner = .command ∧ t.step = .none ∧ t.pend = false ∧
    t.modev = false ∧ t.mode = 0 ∧ t.err = 0 ∧ t.resp.result = .empty ∧ t.resp.err.written = false ∧
    (∀ r : WorkReg, isWritten t r = false) ∧ t.rstN = true ∧ t.history = [] ∧ t.job = none ∧
    t.cfg = s.cfg ∧ t.chip = s.chip ∧ t.inputs = rest ∧ t.port = s.port ∧ t.mhzIn = s.mhzIn ∧ t.irqLine = s.irqLine ∧
    t.answers = s.answers ∧ t.draws = s.draws ∧ t.grants = s.grants ∧ t.grantDraws = s.grantDraws

/-! ## The step around exec -/

/-- When a command is on the port, the lock is free and no service can start, the step is exec of the decoded instruction, with
the word taken from the port and its side operand in MHZ_IN (60_exceptions.md R276). -/
def Obligations.StepRunsOfferedCommand : Prop := ∀ (s : State) (o : Offer) (rest : List Offer) (i : Instr),
  free s → s.port = o :: rest → ¬ (s.pend = true ∧ s.phase = .run) → decode (.command o.cw) = .ok i →
  step s = exec i { s with port := rest, mhzIn := o.mhz }

/-- While the lock is held and the current step has a frame, the step is exec of that frame (45_rx_sequencer.md R238). -/
def Obligations.StepRunsSelectedFrame : Prop := ∀ (s : State) (f : Frame),
  s.busy = true → s.inputs = [] → selectFrame s = some f → step s = exec f.instr s

/-- A due `quiet` slot delays nothing: the step is the block's own step without it; any other due input is the whole step (log 3),
but for a SHUTDOWN that finds a transaction in flight, which `ShutdownAbandons` states (log 25). A due offer puts its word and side
operand on the port, behind those already offered, and changes nothing else (60_exceptions.md R276, R290). -/
def Obligations.DueInputIsTheStep : Prop := ∀ (s : State) (e : Input) (rest : List Input), s.inputs = e :: rest →
  (e = .quiet → step s = ownStep { s with inputs := rest }) ∧
  (e ≠ .quiet → e ≠ .shutdownInFlight → step s = .next (takeInput e { s with inputs := rest })) ∧
  (e = .shutdownInFlight → (∀ f, ¬ (s.busy = true ∧ selectFrame s = some f)) →
    step s = .next (takeInput e { s with inputs := rest })) ∧
  ∀ o : Offer, e = .offer o → step s = .next { s with inputs := rest, port := s.port ++ [o] }

/-- A word that selects no row is accepted and raises ILLEGAL with AUX = OP; nothing but the port, the history, RESP and ERR
changes (30_encoding.md R99). -/
def Obligations.UndecodableWordIsIllegal : Prop := ∀ (s : State) (o : Offer) (rest : List Offer) (e : DecodeError),
  free s → s.port = o :: rest → ¬ (s.pend = true ∧ s.phase = .run) → decode (.command o.cw) = .error e →
  step s = .next (failed (errWord ⟨.illegal, false, .cmd, 0, (o.cw.extractLsb' 28 4).setWidth 8⟩)
    (opened o.cw { s with port := rest, mhzIn := o.mhz }))

/-- The waits change nothing: quiescence, with nothing offered, no service to start and no input due (60_exceptions.md R289),
and exec of a command's instruction while BUSY = 1. The second is the model's reading (DEDUCED, log 14) of R276's words that the
port holds while BUSY = 1; step itself offers no command then. -/
def Obligations.WaitsChangeNothing : Prop :=
  (∀ s : State, free s → s.port = [] → ¬ (s.pend = true ∧ s.phase = .run) → step s = .next s) ∧
  (∀ (i : Instr) (s : State), s.busy = true → (∀ a, i ≠ .busRd a) → (∀ a v, i ≠ .busWr a v) → exec i s = .next s)

/-- A waiting command and a waiting service: either takes the lock, as the grant says (60_exceptions.md R277); a word that selects
no row takes it too, and raises ILLEGAL (30_encoding.md R99). -/
def Obligations.EitherAgentMayTakeTheLock : Prop := ∀ (s : State) (o : Offer) (rest : List Offer) (g : Agent) (gs : List Agent),
  free s → s.port = o :: rest → s.pend = true → s.phase = .run → s.grants = g :: gs →
  (g = .service → step s = .next (serviceEntry { s with grants := gs })) ∧
  (g = .command → ∀ i, decode (.command o.cw) = .ok i →
    step s = exec i { s with grants := gs, port := rest, mhzIn := o.mhz }) ∧
  (g = .command → ∀ e, decode (.command o.cw) = .error e →
    step s = .next (failed (errWord ⟨.illegal, false, .cmd, 0, (o.cw.extractLsb' 28 4).setWidth 8⟩)
      (opened o.cw { s with grants := gs, port := rest, mhzIn := o.mhz })))

/-! ## Pure commands -/

/-- ENC: the fields' places, the two bytes of legal codes in every phase, ILLEGAL otherwise (42_modem_config.md R172). -/
def Obligations.EncEncodesRawCodes : Prop :=
  (∀ w : CommandWord, w &&& 0xF0007FFF#32 = 0x10000000#32 → decodeCommand w = .ok (.enc (w.extractLsb' 24 4)
    (w.extractLsb' 21 3) (w.extractLsb' 20 1) (w.extractLsb' 16 4) (w.extractLsb' 15 1))) ∧
  ∀ (bw : BitVec 4) (cr : BitVec 3) (hm : BitVec 1) (sf : BitVec 4) (crc : BitVec 1) (s : State), s.busy = false →
    ((bw.toNat ≤ 9 ∧ 1 ≤ cr.toNat ∧ cr.toNat ≤ 4 ∧ 6 ≤ sf.toNat ∧ sf.toNat ≤ 12) →
      exec (.enc bw cr hm sf crc) s = .next (finished
        (.config (BitVec.ofNat 8 (bw.toNat * 16 + cr.toNat * 2 + hm.toNat)) (BitVec.ofNat 8 (sf.toNat * 16 + crc.toNat * 4)))
        (opened (encodeCommand (.enc bw cr hm sf crc)) s))) ∧
    (¬ (bw.toNat ≤ 9 ∧ 1 ≤ cr.toNat ∧ cr.toNat ≤ 4 ∧ 6 ≤ sf.toNat ∧ sf.toNat ≤ 12) →
      exec (.enc bw cr hm sf crc) s = .next (failed (errWord ⟨.illegal, false, .cmd, 0, 1⟩)
        (opened (encodeCommand (.enc bw cr hm sf crc)) s)))

/-- ENCP: the packed bytes of the named preset, in every phase; with the default codes, which the spec presumes (log 4),
they are the table's (42_modem_config.md R173). -/
def Obligations.EncpEncodesPreset : Prop :=
  (∀ (p : BitVec 2) (s : State), s.busy = false → exec (.encp p) s = .next (finished
    (.config (pack s.cfg (presetConfig p)).1 (pack s.cfg (presetConfig p)).2) (opened (encodeCommand (.encp p)) s))) ∧
  (∀ q : Params, q.bwCode = defaultBwCode → q.crCode = defaultCrCode →
    pack q (presetConfig 0) = (0x72, 0x74) ∧ pack q (presetConfig 1) = (0x92, 0x74) ∧
    pack q (presetConfig 2) = (0x48, 0x94) ∧ pack q (presetConfig 3) = (0x78, 0xC4))

/-- `Unpack` undoes `Pack` on a legal configuration, so `Pack` is injective there, for every injective code table whose
codes are within their fields' legal values; `Unpack` is defined only on bytes whose fields are all legal, and `Pack` gives those
bytes back (42_modem_config.md R171). -/
def Obligations.UnpackUndoesPack : Prop :=
  (∀ (p : Params) (c : ModemConfig),
    (∀ b b', bwCodeOf p b = bwCodeOf p b' → b = b') → (∀ r r', crCodeOf p r = crCodeOf p r' → r = r') →
    (∀ b, (bwCodeOf p b).toNat ≤ 9) → (∀ r, 1 ≤ (crCodeOf p r).toNat ∧ (crCodeOf p r).toNat ≤ 4) →
    6 ≤ c.spreadingFactor.toNat → c.spreadingFactor.toNat ≤ 12 → unpack p (pack p c).1 (pack p c).2 = some c) ∧
  ∀ (p : Params) (c1 c2 : Byte) (c : ModemConfig), unpack p c1 c2 = some c →
    (c1.toNat / 16 ≤ 9 ∧ 1 ≤ c1.toNat / 2 % 8 ∧ c1.toNat / 2 % 8 ≤ 4 ∧ 6 ≤ c2.toNat / 16 ∧ c2.toNat / 16 ≤ 12 ∧
      c2.getLsbD 3 = false ∧ c2.getLsbD 1 = false ∧ c2.getLsbD 0 = false) ∧ pack p c = (c1, c2)

/-- F2R: truncation of the quotient in [0, 2^24), its three bytes; otherwise RANGE; in every phase (41_frequency.md R151, R152).
Under Exact the quotient is the operand's value times 16384; under Binary64 it is the source's two operations in their order,
the product with 10^6 and then the quotient by 61.03515625 = 15625/256, each rounded (log 12). -/
def Obligations.F2rConvertsOrRaisesRange : Prop := ∀ s : State, s.busy = false →
  (∀ q : Rat, freqQuotient s.cfg.freqArith s.mhzIn = some q → 0 ≤ q → q < 16777216 →
    ∃ frf : BitVec 24, (frf.toNat : Rat) ≤ q ∧ q < (frf.toNat : Rat) + 1 ∧
      exec .f2r s = .next (finished (.f2r frf (frf.extractLsb' 16 8) (frf.extractLsb' 8 8) (frf.extractLsb' 0 8))
        (opened 0x30000000#32 s))) ∧
  ((freqQuotient s.cfg.freqArith s.mhzIn = none ∨
      ∃ q : Rat, freqQuotient s.cfg.freqArith s.mhzIn = some q ∧ (q < 0 ∨ 16777216 ≤ q)) →
    exec .f2r s = .next (failed (errWord ⟨.range, false, .cmd, 0, 0⟩) (opened 0x30000000#32 s))) ∧
  (∀ m : Rat, s.cfg.freqArith = .exact → s.mhzIn = .rational m → freqQuotient s.cfg.freqArith s.mhzIn = some (m * 16384)) ∧
  (∀ bits : BitVec 64, s.cfg.freqArith = .binary64 → s.mhzIn = .binary64 bits →
    freqQuotient s.cfg.freqArith s.mhzIn =
      (binary64Value bits).bind fun m => (fl64 (m * 1000000)).bind fun h => fl64 (h / (15625 / 256)))

/-- R2F: the word of the three bytes over 16384 MHz under Exact, in every phase (41_frequency.md R153). -/
def Obligations.R2fConverts : Prop := ∀ (msb mid lsb : Byte) (s : State), s.busy = false →
  (s.cfg.freqArith = .exact → exec (.r2f msb mid lsb) s = .next (finished
    (.r2f (((msb.toNat * 65536 + mid.toNat * 256 + lsb.toNat : Nat) : Rat) / 16384))
    (opened (encodeCommand (.r2f msb mid lsb)) s))) ∧
  (s.cfg.freqArith = .binary64 → ∃ mhz : Rat,
    ((fl64 (((msb.toNat * 65536 + mid.toNat * 256 + lsb.toNat : Nat) : Rat) * (15625 / 256))).bind
      fun hz => fl64 (hz / 1000000)) = some mhz ∧
    exec (.r2f msb mid lsb) s = .next (finished (.r2f mhz) (opened (encodeCommand (.r2f msb mid lsb)) s)))

/-- The round trips under Exact: the error of a frequency is in [0, 1/16384) MHz, and every word comes back (41_frequency.md R155). -/
def Obligations.FrequencyRoundTrips : Prop := ∀ p : Params, p.freqArith = .exact →
  (∀ m : Rat, 0 ≤ m → m < 1024 → ∃ frf, f2rFun p (.rational m) = some frf ∧
    0 ≤ m - r2fFun p frf ∧ m - r2fFun p frf < 1 / 16384) ∧
  (∀ frf : BitVec 24, f2rFun p (.rational (r2fFun p frf)) = some frf)

/-- `Decode(s)`: each flag is its own bit, cadClear is cadDone without cadDetected, valid is s ≠ 0 (44_irq_decoder.md R200, R202).
IRQD gives the ten results in their bits and the raw byte, in every phase (R201). The bits of five flags are the spec's own
inference (92 D8, log 20). -/
def Obligations.IrqdDecodesFlags : Prop :=
  (∀ b : Byte,
    (irqDecode b).timeout = b.getLsbD 7 ∧ (irqDecode b).rxDone = b.getLsbD 6 ∧ (irqDecode b).payloadCrcError = b.getLsbD 5 ∧
    (irqDecode b).validHeader = b.getLsbD 4 ∧ (irqDecode b).txDone = b.getLsbD 3 ∧ (irqDecode b).cadDone = b.getLsbD 2 ∧
    (irqDecode b).fhssChannelChange = b.getLsbD 1 ∧ (irqDecode b).cadDetected = b.getLsbD 0 ∧
    (irqDecode b).cadClear = (b.getLsbD 2 && !b.getLsbD 0) ∧ ((irqDecode b).valid = true ↔ b ≠ 0)) ∧
  ∀ (b : Byte) (s : State), s.busy = false →
    ∃ flags : BitVec 10, flags.extractLsb' 0 8 = b ∧ flags.getLsbD 8 = (irqDecode b).cadClear ∧
      flags.getLsbD 9 = (irqDecode b).valid ∧
      exec (.irqd b) s = .next (finished (.irqd flags b) (opened (encodeCommand (.irqd b)) s))

/-- SNRC: bit 7 dropped, the rest read as 7-bit two's complement, the dB value a quarter of it, in every phase (45_rx_sequencer.md R235). -/
def Obligations.SnrcConverts : Prop := ∀ (b : Byte) (s : State), s.busy = false →
  ∃ (v : Int) (db : Rat),
    ((b.toNat % 128 < 64 → v = (b.toNat % 128 : Nat)) ∧ (64 ≤ b.toNat % 128 → v = (b.toNat % 128 : Nat) - 128)) ∧
    -64 ≤ v ∧ v ≤ 63 ∧ db * 4 = v ∧
    exec (.snrc b) s = .next (finished (.snrc v db) (opened (encodeCommand (.snrc b)) s))

/-- RSSIC: the byte less 137 as 16-bit two's complement, in every phase (45_rx_sequencer.md R236). -/
def Obligations.RssicConverts : Prop := ∀ (b : Byte) (s : State), s.busy = false →
  ∃ r : BitVec 16, r.toInt = (b.toNat : Int) - 137 ∧
    exec (.rssic b) s = .next (finished (.rssic r) (opened (encodeCommand (.rssic b)) s))

/-! ## Transactions and bus commands -/

/-- One transaction: the frame's BUS event is emitted with its answer (20_memory.md R60), and nothing else of the block changes
before the answer is checked. That the answer comes from the listed answers, else from an attached reference chip, is the
model's own order (DESIGN CHOICE, log 1, log 16); the chip's answer is 20_memory.md R75's. -/
def Obligations.ExchangeEmitsBusEvent : Prop := ∀ (f : Frame) (s : State),
  (∀ a rest, s.answers = a :: rest → exchange f s = (a, { s with answers := rest, history := s.history ++ [busEvent f a] })) ∧
  (∀ c, s.answers = [] → s.chip = some c → exchange f s = (⟨2, [0x00, (c.exchange s.cfg f).1]⟩,
    { s with
      chip := some (c.exchange s.cfg f).2, history := s.history ++ [busEvent f ⟨2, [0x00, (c.exchange s.cfg f).1]⟩] })) ∧
  (∃ as d c, (exchange f s).2 =
    { s with answers := as, draws := d, chip := c, history := s.history ++ [busEvent f (exchange f s).1] })

/-- BUS_RD and BUS_WR complete: for a command in progress, a good answer's second byte is delivered and the command completes;
an answer of another length raises TRANSPORT with the frame's address and the clamped length (40_register_access.md R133). -/
def Obligations.BusFramesCompleteCommands : Prop := ∀ (s : State) (a : Addr) (v : Byte) (ans : Answer) (rest : List Answer),
  s.step = .cmd → s.owner = .command → s.answers = ans :: rest →
  ((answerGood ans = true ↔ ans.length = 2 ∧ ans.bytes.length = 2) ∧
   (0 ≤ ans.length → ans.length ≤ 255 → (answerAux ans).toNat = ans.length.toNat) ∧
   (ans.length < 0 → answerAux ans = 0) ∧ (255 < ans.length → answerAux ans = 255)) ∧
  (∀ b0 d, s.job = some ⟨.rd, [.read a], []⟩ → ans = ⟨2, [b0, d]⟩ →
    exec (.busRd a) s = .next (finished (.rd d) (afterFrames [.read a] [ans] rest s))) ∧
  (s.job = some ⟨.rd, [.read a], []⟩ → answerGood ans = false →
    exec (.busRd a) s = .next (failed (errWord ⟨.transport, false, .cmd, a, answerAux ans⟩)
      (afterFrames [.read a] [ans] rest s))) ∧
  (∀ b0 d, s.job = some ⟨.wr, [.write a v], []⟩ → ans = ⟨2, [b0, d]⟩ →
    exec (.busWr a v) s = .next (finished (.wr d) (afterFrames [.write a v] [ans] rest s))) ∧
  (s.job = some ⟨.wr, [.write a v], []⟩ → answerGood ans = false →
    exec (.busWr a v) s = .next (failed (errWord ⟨.transport, false, .cmd, a, answerAux ans⟩)
      (afterFrames [.write a v] [ans] rest s)))

/-- RD: one read frame; the answer's second byte is RESP.data (40_register_access.md R130). -/
def Obligations.RdReadsOneByte : Prop := ∀ (a : Addr) (s : State), freeForBus s →
  ∃ t, exec (.rd a) s = .next t ∧ t = withJob .rd [.read a] (opened (encodeCommand (.rd a)) s) ∧
    ∀ (b0 d : Byte) (rest : List Answer), s.answers = ⟨2, [b0, d]⟩ :: rest →
      runsTo 1 t (finished (.rd d) (afterFrames [.read a] [⟨2, [b0, d]⟩] rest t))

/-- WR: one write frame; the answer's second byte is RESP.echo, and MODEV and MODE do not move (40_register_access.md R131). -/
def Obligations.WrWritesOneByte : Prop := ∀ (a : Addr) (v : Byte) (s : State), freeForBus s →
  ∃ t, exec (.wr a v) s = .next t ∧ t = withJob .wr [.write a v] (opened (encodeCommand (.wr a v)) s) ∧
    ∀ (b0 d : Byte) (rest : List Answer), s.answers = ⟨2, [b0, d]⟩ :: rest →
      runsTo 1 t (finished (.wr d) (afterFrames [.write a v] [⟨2, [b0, d]⟩] rest t))

/-- BRD: n − 1 reads under Source (none for n = 0), n under Corrected, of one address; RESP.bytes is what they returned, in
order (40_register_access.md R132). -/
def Obligations.BrdReadsBurst : Prop := ∀ (a : Addr) (n : Byte) (s : State), freeForBus s →
  ∃ k : Nat, (s.cfg.burstMode = .source → k = n.toNat - 1) ∧ (s.cfg.burstMode = .corrected → k = n.toNat) ∧
    (k = 0 → exec (.brd a n) s = .next (finished (.brd []) (opened (encodeCommand (.brd a n)) s))) ∧
    (0 < k → ∃ t, exec (.brd a n) s = .next t ∧
      t = withJob .brd (List.replicate k (.read a)) (opened (encodeCommand (.brd a n)) s) ∧
      ∀ as rest : List Answer, s.answers = as ++ rest → as.length = k → (∀ x ∈ as, answerGood x = true) →
        runsTo k t (finished (.brd (as.map answerData)) (afterFrames (List.replicate k (.read a)) as rest t)))

/-- MODE: one OPMODE write of the code with the LoRa flag; then MODEV = 1 and MODE is the code; a failed write clears MODEV; a
reserved code raises ILLEGAL (43_mode.md R191). That a failed write leaves MODE's stored bits is the model's reading (log 13). -/
def Obligations.ModeWritesOpMode : Prop := ∀ (m : BitVec 3) (s : State), freeForBus s →
  (m = s.cfg.modeCode.sleep ∨ m = s.cfg.modeCode.standby ∨ m = s.cfg.modeCode.receiveContinuous →
    ∃ t, exec (.mode m) s = .next t ∧
    t = withJob (.mode m) [.write s.cfg.regAddr.opMode (s.cfg.loraFlag ||| m.setWidth 8)] (opened (encodeCommand (.mode m)) s) ∧
    ∀ (ans : Answer) (rest : List Answer), s.answers = ans :: rest →
      (answerGood ans = true → runsTo 1 t (finished (.mode (s.cfg.loraFlag ||| m.setWidth 8))
        { (afterFrames [.write s.cfg.regAddr.opMode (s.cfg.loraFlag ||| m.setWidth 8)] [ans] rest t) with
          modev := true, mode := m })) ∧
      (answerGood ans = false → runsTo 1 t (failed (errWord ⟨.transport, false, .cmd, s.cfg.regAddr.opMode, answerAux ans⟩)
        { (afterFrames [.write s.cfg.regAddr.opMode (s.cfg.loraFlag ||| m.setWidth 8)] [ans] rest t) with modev := false }))) ∧
  (m ≠ s.cfg.modeCode.sleep → m ≠ s.cfg.modeCode.standby → m ≠ s.cfg.modeCode.receiveContinuous →
    exec (.mode m) s = .next (failed (errWord ⟨.illegal, false, .cmd, 0, 0x0B⟩) (opened (encodeCommand (.mode m)) s)))

/-- SFRQ: the three writes MSB, MID, LSB of the converted frequency, then RESP.frf; FRF is not moved; RANGE before any write
(41_frequency.md R154). -/
def Obligations.SfrqWritesThreeBytes : Prop := ∀ s : State, freeForBus s →
  (∀ frf, f2rFun s.cfg s.mhzIn = some frf → ∃ t, exec .sfrq s = .next t ∧
    t = withJob (.sfrq frf) [.write s.cfg.regAddr.frfMsb (frf.extractLsb' 16 8), .write s.cfg.regAddr.frfMid (frf.extractLsb' 8 8),
      .write s.cfg.regAddr.frfLsb (frf.extractLsb' 0 8)] (opened 0xC0000000#32 s) ∧
    ∀ (a1 a2 a3 : Answer) (rest : List Answer), s.answers = a1 :: a2 :: a3 :: rest →
      answerGood a1 = true → answerGood a2 = true → answerGood a3 = true →
      runsTo 3 t (finished (.sfrq frf) (afterFrames [.write s.cfg.regAddr.frfMsb (frf.extractLsb' 16 8),
        .write s.cfg.regAddr.frfMid (frf.extractLsb' 8 8), .write s.cfg.regAddr.frfLsb (frf.extractLsb' 0 8)]
        [a1, a2, a3] rest t))) ∧
  (f2rFun s.cfg s.mhzIn = none →
    exec .sfrq s = .next (failed (errWord ⟨.range, false, .cmd, 0, 0⟩) (opened 0xC0000000#32 s)))

/-- SMDM: register 1, then register 2; CFG1 and CFG2 are not moved; reserved fields raise ILLEGAL before any write
(42_modem_config.md R174). -/
def Obligations.SmdmWritesTwoBytes : Prop := ∀ (c1 c2 : Byte) (s : State), freeForBus s →
  ((c1.toNat / 16 ≤ 9 ∧ 1 ≤ c1.toNat / 2 % 8 ∧ c1.toNat / 2 % 8 ≤ 4 ∧ 6 ≤ c2.toNat / 16 ∧ c2.toNat / 16 ≤ 12 ∧
      c2.getLsbD 3 = false ∧ c2.getLsbD 1 = false ∧ c2.getLsbD 0 = false) →
    ∃ t, exec (.smdm c1 c2) s = .next t ∧
      t = withJob .smdm [.write s.cfg.regAddr.modemCfg1 c1, .write s.cfg.regAddr.modemCfg2 c2]
        (opened (encodeCommand (.smdm c1 c2)) s) ∧
      ∀ (a1 a2 : Answer) (rest : List Answer), s.answers = a1 :: a2 :: rest → answerGood a1 = true → answerGood a2 = true →
        runsTo 2 t (finished .empty (afterFrames [.write s.cfg.regAddr.modemCfg1 c1, .write s.cfg.regAddr.modemCfg2 c2]
          [a1, a2] rest t))) ∧
  (¬ (c1.toNat / 16 ≤ 9 ∧ 1 ≤ c1.toNat / 2 % 8 ∧ c1.toNat / 2 % 8 ≤ 4 ∧ 6 ≤ c2.toNat / 16 ∧ c2.toNat / 16 ≤ 12 ∧
      c2.getLsbD 3 = false ∧ c2.getLsbD 1 = false ∧ c2.getLsbD 0 = false) →
    exec (.smdm c1 c2) s = .next (failed (errWord ⟨.illegal, false, .cmd, 0, 0x0D⟩) (opened (encodeCommand (.smdm c1 c2)) s)))

/-- The first failing transaction ends a command: the earlier frames were exchanged, the failing one is in the history, no later
one is made, ERR names it, and of the block's registers only the lock, RESP, ERR and a MODE command's MODEV change
(60_exceptions.md R271, R272, 43_mode.md R191). That MODE's stored bits stay where MODEV is cleared is the model's reading (log 13). -/
def Obligations.FirstFailureEndsCommand : Prop :=
  ∀ (s : State) (kind : JobKind) (before : List Frame) (f : Frame) (later : List Frame) (as : List Answer) (bad : Answer)
    (rest : List Answer),
  holdsAt .cmd s → s.owner = .command → s.job = some ⟨kind, before ++ f :: later, []⟩ → s.answers = as ++ bad :: rest →
  as.length = before.length → (∀ x ∈ as, answerGood x = true) → answerGood bad = false →
  runsTo (before.length + 1) s (failed (errWord ⟨.transport, false, .cmd, f.addr, answerAux bad⟩)
    { (afterFrames (before ++ [f]) (as ++ [bad]) rest s) with
      modev := (match kind with | .mode _ => false | _ => s.modev) })

/-- ILLEGAL and NOT_PERMITTED are raised before a command does anything, ILLEGAL first, and RANGE before its first transaction:
nothing but the history, RESP and ERR changes (60_exceptions.md R275). ERR is the whole word: STEP = CMD, ADDR 0, AUX = OP, or 0
for RANGE (10_state.md R31, 60_exceptions.md R270). -/
def Obligations.RefusalsChangeOnlyRespAndErr : Prop := ∀ (i : Instr) (s : State), s.busy = false → s.step = .none →
  s.owner = .command → s.job = none → (∀ a, i ≠ .busRd a) → (∀ a v, i ≠ .busWr a v) →
  (i.wellFormed s.cfg = false → exec i s = .next
    (refusedWith ⟨.illegal, false, .cmd, 0, ((encodeCommand i).extractLsb' 28 4).setWidth 8⟩ i s)) ∧
  (i.wellFormed s.cfg = true → usesBus i = true → s.phase = .halted → exec i s = .next
    (refusedWith ⟨.notPermitted, false, .cmd, 0, ((encodeCommand i).extractLsb' 28 4).setWidth 8⟩ i s)) ∧
  ((i = .f2r ∨ ((i = .sfrq ∨ ∃ p, i = .init p) ∧ s.phase ≠ .halted)) → f2rFun s.cfg s.mhzIn = none → exec i s = .next
    (refusedWith ⟨.range, false, .cmd, 0, 0⟩ i s))

/-! ## The receive service -/

/-- Service entry: from PEND = 1, PHASE = RUN, BUSY = 0 (no command offered) the lock is taken, PEND and the error record are
cleared, STEP is S0_IRQ, and no transaction is made (45_rx_sequencer.md R220). -/
def Obligations.ServiceEntryTakesLock : Prop := ∀ s : State, free s → s.port = [] → s.pend = true → s.phase = .run →
  step s = .next { s with busy := true, owner := .service, pend := false, svcErr := ⟨.none, false, .none, 0, 0⟩, step := .s0Irq }

/-- S0_IRQ reads IRQ_FLAGS into IRQ, and rxDone alone decides between S1_LEN and S8_ACK (45_rx_sequencer.md R221, R222). -/
def Obligations.RxDoneGatesService : Prop := ∀ (s : State) (ans : Answer) (rest : List Answer),
  holdsAt .s0Irq s → s.answers = ans :: rest → answerGood ans = true →
  step s = .next { (afterFrames [.read s.cfg.regAddr.irqFlags] [ans] rest s) with
    irq := Reg.holding (answerData ans), step := if (answerData ans).getLsbD 6 then .s1Len else .s8Ack }

/-- S1_LEN, S2A_CUR and S2B_PTR: LEN and CUR are read, and CUR is written to FIFO_ADDR_PTR (45_rx_sequencer.md R223, R224, R225). -/
def Obligations.LengthAndCursorSteps : Prop := ∀ (s : State) (ans : Answer) (rest : List Answer),
  s.answers = ans :: rest → answerGood ans = true →
  (holdsAt .s1Len s → step s = .next { (afterFrames [.read s.cfg.regAddr.rxNbBytes] [ans] rest s) with
    len := Reg.holding (answerData ans), step := .s2aCur }) ∧
  (holdsAt .s2aCur s → step s = .next { (afterFrames [.read s.cfg.regAddr.fifoRxCur] [ans] rest s) with
    cur := Reg.holding (answerData ans), step := .s2bPtr }) ∧
  (holdsAt .s2bPtr s → s.cur.written = true →
    step s = .next { (afterFrames [.write s.cfg.regAddr.fifoAddrPtr s.cur.value] [ans] rest s) with
      cnt := Reg.holding 0, buf := Reg.holding [], step := .s3Burst })

/-- S3_BURST: k FIFO reads, k = LEN − 1 (0 for LEN 0) under Source and LEN under Corrected; then STEP is S4_SPLIT, CNT is k and
BUF holds the bytes in order; with k = 0 no transaction is made (45_rx_sequencer.md R226). That an empty burst is one step of its own is the model's granularity
(DEDUCED, log 7). -/
def Obligations.BurstFillsBuffer : Prop := ∀ (s : State) (n : Byte) (k : Nat) (as rest : List Answer),
  holdsAt .s3Burst s → s.len = Reg.holding n → s.cnt = Reg.holding 0 → s.buf = Reg.holding [] →
  (s.cfg.burstMode = .source → k = n.toNat - 1) → (s.cfg.burstMode = .corrected → k = n.toNat) →
  s.answers = as ++ rest → as.length = k → (∀ x ∈ as, answerGood x = true) →
  (0 < k → runsTo k s { (afterFrames (List.replicate k (.read s.cfg.regAddr.fifo)) as rest s) with
    cnt := Reg.holding (BitVec.ofNat 8 k), buf := Reg.holding (as.map answerData), step := .s4Split }) ∧
  (k = 0 → runsTo 1 s { s with step := .s4Split })

/-- S4_SPLIT: the first four bytes are the header and the rest the payload; fewer than four raise FramingError with AUX = |BUF|,
S8_ACK follows, and no transaction is made (45_rx_sequencer.md R227, R234). -/
def Obligations.SplitHeaderOrFramingError : Prop := ∀ (s : State), holdsAt .s4Split s → s.buf.written = true →
  (∀ b0 b1 b2 b3 p, s.buf.value = b0 :: b1 :: b2 :: b3 :: p →
    step s = .next { s with hdr := Reg.holding ⟨b0, b1, b2, b3⟩, pay := Reg.holding p, step := .s5aHmsb }) ∧
  (s.buf.value.length < 4 → s.owner = .service →
    step s = .next { s with svcErr := ⟨.framing, false, .s4Split, 0, BitVec.ofNat 8 s.buf.value.length⟩, step := .s8Ack })

/-- S5A to S5D: the header counter and then the packet counter, MSB and then LSB, combined as msb·256 + lsb
(45_rx_sequencer.md R228, R229, R237). -/
def Obligations.CountersAreAssembled : Prop := ∀ (s : State) (ans : Answer) (rest : List Answer),
  s.answers = ans :: rest → answerGood ans = true →
  (holdsAt .s5aHmsb s → step s = .next { (afterFrames [.read s.cfg.regAddr.hdrCntMsb] [ans] rest s) with
    tmp := Reg.holding (answerData ans), step := .s5bHlsb }) ∧
  (holdsAt .s5bHlsb s → s.tmp.written = true →
    step s = .next { (afterFrames [.read s.cfg.regAddr.hdrCntLsb] [ans] rest s) with
      hdrcnt := Reg.holding (BitVec.ofNat 16 (s.tmp.value.toNat * 256 + (answerData ans).toNat)), step := .s5cPmsb }) ∧
  (holdsAt .s5cPmsb s → step s = .next { (afterFrames [.read s.cfg.regAddr.pktCntMsb] [ans] rest s) with
    tmp := Reg.holding (answerData ans), step := .s5dPlsb }) ∧
  (holdsAt .s5dPlsb s → s.tmp.written = true →
    step s = .next { (afterFrames [.read s.cfg.regAddr.pktCntLsb] [ans] rest s) with
      pktcnt := Reg.holding (BitVec.ofNat 16 (s.tmp.value.toNat * 256 + (answerData ans).toNat)), step := .s6Snr })

/-- S6_SNR and S7_RSSI: SNRQ and RSSI are converted, and then the packet of the working registers is emitted, before S8_ACK
(45_rx_sequencer.md R230, R231, R240). That bit 5 is the CRC flag is the spec's own inference (92 D8, log 20). -/
def Obligations.PacketIsEmitted : Prop := ∀ (s : State) (ans : Answer) (rest : List Answer),
  s.answers = ans :: rest → answerGood ans = true →
  (holdsAt .s6Snr s → step s = .next { (afterFrames [.read s.cfg.regAddr.pktSnr] [ans] rest s) with
    snrq := Reg.holding (sx7 (answerData ans &&& 0x7F)), step := .s7Rssi }) ∧
  (holdsAt .s7Rssi s → s.irq.written = true → s.hdr.written = true → s.pay.written = true → s.hdrcnt.written = true →
    s.pktcnt.written = true → s.snrq.written = true →
    ∃ (t : State) (r : BitVec 16) (db : Rat), r.toInt = ((answerData ans).toNat : Int) - 137 ∧ db * 4 = s.snrq.value ∧
      t = { (afterFrames [.read s.cfg.regAddr.pktRssi] [ans] rest s) with rssi := Reg.holding r, step := .s8Ack } ∧
      step s = .next { t with history := t.history ++ [.pkt ⟨s.hdr.value.src, s.hdr.value.dst, s.hdr.value.id, s.hdr.value.flg,
        s.pay.value, s.snrq.value, db, r, s.hdrcnt.value, s.pktcnt.value, s.irq.value, s.irq.value.getLsbD 5⟩] })

/-- S8_ACK writes 0xFF to IRQ_FLAGS once, and the service ends whether it succeeded or not: ERR, the ERR event if it is nonzero,
STEP NONE, the lock free; a failed write sets ACKFAIL, and is the recorded error only if there is no earlier one; the working
registers keep their values (45_rx_sequencer.md R232, R233). -/
def Obligations.AcknowledgementEndsService : Prop := ∀ (s : State) (ans : Answer) (rest : List Answer),
  holdsAt .s8Ack s → s.answers = ans :: rest →
  ∃ e : ErrRec, (answerGood ans = true → e = s.svcErr) ∧
    (answerGood ans = false → s.svcErr.code = .none → e = ⟨.transport, true, .s8Ack, s.cfg.regAddr.irqFlags, answerAux ans⟩) ∧
    (answerGood ans = false → s.svcErr.code ≠ .none →
      e = ⟨s.svcErr.code, true, s.svcErr.step, s.svcErr.addr, s.svcErr.aux⟩) ∧
    step s = .next { (afterFrames [.write s.cfg.regAddr.irqFlags 0xFF] [ans] rest s) with
      svcErr := e, err := errWord e, busy := false, owner := .command, step := .none, job := none,
      history := s.history ++ [busEvent (.write s.cfg.regAddr.irqFlags 0xFF) ans] ++
        (if errWord e = 0 then [] else [.err (errWord e)]) }

/-- A TransportError in any of S0 to S7 is recorded with its STEP, address and AUX, abandons the data steps, emits no packet and
goes to S8_ACK (45_rx_sequencer.md R239). Going on to S8_ACK after a TransportError is the spec's own reading (92 D18). -/
def Obligations.ServiceErrorGoesToAck : Prop := ∀ (s : State) (f : Frame) (ans : Answer) (rest : List Answer),
  s.busy = true → s.inputs = [] → s.owner = .service → isReceive s.step = true → s.step ≠ .s8Ack →
  (∀ r ∈ stepReads s.step, isWritten s r = true) → selectFrame s = some f → s.answers = ans :: rest → answerGood ans = false →
  step s = .next { (afterFrames [f] [ans] rest s) with
    svcErr := ⟨.transport, false, s.step, f.addr, answerAux ans⟩, step := .s8Ack }

/-- A whole service that receives a packet: 11 + k transactions in the order of 45_rx_sequencer.md R238, one packet between the
last data read and the acknowledgement, ERR = 0 and the lock free again, in the model's steps (log 7).
That bit 5 of IRQ is the CRC flag is the spec's own inference (92 D8, log 20). -/
def Obligations.ServiceDeliversPacket : Prop :=
  ∀ (s : State) (aIrq aLen aCur aPtr : Answer) (fifo : List Answer) (aHm aHl aPm aPl aSnr aRssi aAck : Answer) (rest : List Answer)
    (b0 b1 b2 b3 : Byte) (payload : List Byte),
  free s → s.port = [] → s.pend = true → s.phase = .run →
  s.answers = [aIrq, aLen, aCur, aPtr] ++ fifo ++ [aHm, aHl, aPm, aPl, aSnr, aRssi, aAck] ++ rest →
  (∀ x ∈ [aIrq, aLen, aCur, aPtr] ++ fifo ++ [aHm, aHl, aPm, aPl, aSnr, aRssi, aAck], answerGood x = true) →
  (answerData aIrq).getLsbD 6 = true → fifo.length = burstCount s.cfg.burstMode (answerData aLen) →
  fifo.map answerData = b0 :: b1 :: b2 :: b3 :: payload →
  ∃ u r db, runsTo (fifo.length + 13) s u ∧ r.toInt = ((answerData aRssi).toNat : Int) - 137 ∧
    db * 4 = (sx7 (answerData aSnr &&& 0x7F) : Rat) ∧
    u.history = s.history ++
      List.zipWith busEvent
        ([.read s.cfg.regAddr.irqFlags, .read s.cfg.regAddr.rxNbBytes, .read s.cfg.regAddr.fifoRxCur,
          .write s.cfg.regAddr.fifoAddrPtr (answerData aCur)] ++ List.replicate fifo.length (.read s.cfg.regAddr.fifo) ++
          [.read s.cfg.regAddr.hdrCntMsb, .read s.cfg.regAddr.hdrCntLsb, .read s.cfg.regAddr.pktCntMsb,
           .read s.cfg.regAddr.pktCntLsb, .read s.cfg.regAddr.pktSnr, .read s.cfg.regAddr.pktRssi])
        ([aIrq, aLen, aCur, aPtr] ++ fifo ++ [aHm, aHl, aPm, aPl, aSnr, aRssi]) ++
      [.pkt ⟨b0, b1, b2, b3, payload, sx7 (answerData aSnr &&& 0x7F), db, r,
        BitVec.ofNat 16 ((answerData aHm).toNat * 256 + (answerData aHl).toNat),
        BitVec.ofNat 16 ((answerData aPm).toNat * 256 + (answerData aPl).toNat), answerData aIrq, (answerData aIrq).getLsbD 5⟩,
       busEvent (.write s.cfg.regAddr.irqFlags 0xFF) aAck] ∧
    u.answers = rest ∧ u.err = 0 ∧ u.busy = false ∧ u.step = .none ∧ u.phase = .run ∧ u.pend = false ∧ u.resp = s.resp ∧
    u.modev = s.modev ∧ u.mode = s.mode ∧ u.frf = s.frf ∧ u.cfg1 = s.cfg1 ∧ u.cfg2 = s.cfg2 ∧ u.ver = s.ver ∧
    u.cfg = s.cfg ∧ u.rstN = s.rstN ∧ u.port = s.port ∧ u.inputs = s.inputs ∧ u.irqLine = s.irqLine ∧ u.chip = s.chip

/-! ## INIT -/

/-- INIT's start: with the frequency in range it takes PHASE to IDLE, the tracker to unknown, FRF, CFG1 and CFG2 to the new
values, RST_N low with RST(0), and waits in I0_RST; it makes no transaction yet (70_reset_and_hazards.md R310, R311). -/
def Obligations.InitStartsWithResetPulse : Prop := ∀ (p : BitVec 2) (s : State) (frf : BitVec 24), freeForBus s →
  f2rFun s.cfg s.mhzIn = some frf →
  ∃ t, exec (.init p) s = .next t ∧ t = { s with
    busy := true, owner := .command, step := .i0Rst, resp := ⟨.empty, Reg.unwritten 0⟩, phase := .idle, modev := false, mode := 0,
    frf := Reg.holding frf, cfg1 := Reg.holding (pack s.cfg (presetConfig p)).1,
    cfg2 := Reg.holding (pack s.cfg (presetConfig p)).2, rstN := false,
    history := s.history ++ [.cmd (encodeCommand (.init p)), .rst false] } ∧ step t = .next t

/-- I0_RST: T_LOW_DONE drives RST_N high with RST(1), T_HIGH_DONE goes on to I1_VER; until they come the step waits
(70_reset_and_hazards.md R311, 60_exceptions.md R290). -/
def Obligations.ResetPulseAwaitsTimers : Prop := ∀ (s : State) (rest : List Input), s.step = .i0Rst →
  (s.rstN = false → s.inputs = .timerLow :: rest →
    step s = .next { s with inputs := rest, rstN := true, history := s.history ++ [.rst true] }) ∧
  (s.rstN = true → s.inputs = .timerHigh :: rest → step s = .next { s with inputs := rest, step := .i1Ver }) ∧
  (s.busy = true → s.inputs = [] → step s = .next s)

/-- I1_VER: the version register is read into VER; the expected value goes on, any other is IDENT: HALTED, PEND cleared, ERR with
the version register's address and value, and no further transaction (70_reset_and_hazards.md R312). -/
def Obligations.WrongVersionHalts : Prop := ∀ (s : State) (ans : Answer) (rest : List Answer),
  holdsAt .i1Ver s → s.owner = .command → s.answers = ans :: rest →
  (answerGood ans = true → answerData ans = s.cfg.expectedVersion →
    step s = .next { (afterFrames [.read s.cfg.regAddr.version] [ans] rest s) with
      ver := Reg.holding (answerData ans), step := .i2Sleep }) ∧
  (answerGood ans = true → answerData ans ≠ s.cfg.expectedVersion →
    step s = .next (failed (errWord ⟨.ident, false, .i1Ver, s.cfg.regAddr.version, answerData ans⟩)
      { (afterFrames [.read s.cfg.regAddr.version] [ans] rest s) with
        ver := Reg.holding (answerData ans), phase := .halted, pend := false })) ∧
  (answerGood ans = false →
    step s = .next (failed (errWord ⟨.transport, false, .i1Ver, s.cfg.regAddr.version, answerAux ans⟩)
      (afterFrames [.read s.cfg.regAddr.version] [ans] rest s)))

/-- I2_SLEEP to I5S_STDBY: the Sleep write, the tracker and RESP.opmode (43_mode.md R191, log 24), the two FIFO bases, the three
frequency bytes, the two modem bytes, in order, and Standby only if INIT_STANDBY (70_reset_and_hazards.md R313, R314, R315, R316, R317). -/
def Obligations.InitWritesInOrder : Prop := ∀ (s : State) (ans : Answer) (rest : List Answer),
  s.answers = ans :: rest → answerGood ans = true →
  (holdsAt .i2Sleep s → step s = .next
    { (afterFrames [.write s.cfg.regAddr.opMode (s.cfg.loraFlag ||| s.cfg.modeCode.sleep.setWidth 8)] [ans] rest s) with
      modev := true, mode := s.cfg.modeCode.sleep,
      resp := ⟨.mode (s.cfg.loraFlag ||| s.cfg.modeCode.sleep.setWidth 8), s.resp.err⟩, step := .i3aTxb }) ∧
  (holdsAt .i3aTxb s → step s = .next
    { (afterFrames [.write s.cfg.regAddr.fifoTxBase s.cfg.fifoTxBase] [ans] rest s) with step := .i3bRxb }) ∧
  (holdsAt .i3bRxb s → step s = .next
    { (afterFrames [.write s.cfg.regAddr.fifoRxBase s.cfg.fifoRxBase] [ans] rest s) with step := .i4aFmsb }) ∧
  (holdsAt .i4aFmsb s → s.frf.written = true → step s = .next
    { (afterFrames [.write s.cfg.regAddr.frfMsb (s.frf.value.extractLsb' 16 8)] [ans] rest s) with step := .i4bFmid }) ∧
  (holdsAt .i4bFmid s → s.frf.written = true → step s = .next
    { (afterFrames [.write s.cfg.regAddr.frfMid (s.frf.value.extractLsb' 8 8)] [ans] rest s) with step := .i4cFlsb }) ∧
  (holdsAt .i4cFlsb s → s.frf.written = true → step s = .next
    { (afterFrames [.write s.cfg.regAddr.frfLsb (s.frf.value.extractLsb' 0 8)] [ans] rest s) with step := .i5aCfg1 }) ∧
  (holdsAt .i5aCfg1 s → s.cfg1.written = true → step s = .next
    { (afterFrames [.write s.cfg.regAddr.modemCfg1 s.cfg1.value] [ans] rest s) with step := .i5bCfg2 }) ∧
  (holdsAt .i5bCfg2 s → s.cfg2.written = true → step s = .next
    { (afterFrames [.write s.cfg.regAddr.modemCfg2 s.cfg2.value] [ans] rest s) with
      step := if s.cfg.initStandby then .i5sStdby else .i6Rxc }) ∧
  (holdsAt .i5sStdby s → step s = .next
    { (afterFrames [.write s.cfg.regAddr.opMode (s.cfg.loraFlag ||| s.cfg.modeCode.standby.setWidth 8)] [ans] rest s) with
      modev := true, mode := s.cfg.modeCode.standby,
      resp := ⟨.mode (s.cfg.loraFlag ||| s.cfg.modeCode.standby.setWidth 8), s.resp.err⟩, step := .i6Rxc })

/-- A failing transaction of INIT after the version check stops it with TRANSPORT at its own STEP; PHASE stays, and a failed mode
write clears MODEV (70_reset_and_hazards.md R310, 43_mode.md R191). That it leaves MODE's stored bits is the model's reading (log 13). -/
def Obligations.InitStopsAtTransportError : Prop := ∀ (s : State) (f : Frame) (ans : Answer) (rest : List Answer),
  s.busy = true → s.inputs = [] → s.owner = .command → isInit s.step = true → (∀ r ∈ stepReads s.step, isWritten s r = true) →
  selectFrame s = some f → s.answers = ans :: rest → answerGood ans = false →
  step s = .next (failed (errWord ⟨.transport, false, s.step, f.addr, answerAux ans⟩)
    { (afterFrames [f] [ans] rest s) with
      modev := if s.step = .i2Sleep ∨ s.step = .i5sStdby ∨ s.step = .i6Rxc then false else s.modev })

/-- A whole INIT with good answers and the expected version: exactly 10 transactions (11 with INIT_STANDBY) in the order of
70_reset_and_hazards.md R319 after the reset pulse, ending in RUN with ReceiveContinuous tracked and ERR = 0, in the model's
steps (log 7) and with the two timer events next in the schedule (log 3). RESP holds SetMode's opmode beside INIT's four fields (log 24). -/
def Obligations.InitReachesRun : Prop :=
  ∀ (p : BitVec 2) (s : State) (frf : BitVec 24) (as rest : List Answer) (frames : List Frame) (c : Byte × Byte),
  s.busy = false → s.phase ≠ .halted → s.inputs = [.timerLow, .timerHigh] →
  f2rFun s.cfg s.mhzIn = some frf → c = pack s.cfg (presetConfig p) →
  frames = [.read s.cfg.regAddr.version, .write s.cfg.regAddr.opMode (s.cfg.loraFlag ||| s.cfg.modeCode.sleep.setWidth 8),
      .write s.cfg.regAddr.fifoTxBase s.cfg.fifoTxBase, .write s.cfg.regAddr.fifoRxBase s.cfg.fifoRxBase,
      .write s.cfg.regAddr.frfMsb (frf.extractLsb' 16 8), .write s.cfg.regAddr.frfMid (frf.extractLsb' 8 8),
      .write s.cfg.regAddr.frfLsb (frf.extractLsb' 0 8), .write s.cfg.regAddr.modemCfg1 c.1, .write s.cfg.regAddr.modemCfg2 c.2] ++
    (if s.cfg.initStandby then [.write s.cfg.regAddr.opMode (s.cfg.loraFlag ||| s.cfg.modeCode.standby.setWidth 8)] else []) ++
    [.write s.cfg.regAddr.opMode (s.cfg.loraFlag ||| s.cfg.modeCode.receiveContinuous.setWidth 8)] →
  s.answers = as ++ rest → as.length = frames.length → (∀ x ∈ as, answerGood x = true) →
  (∀ a ∈ as.head?, answerData a = s.cfg.expectedVersion) →
  ∃ t, exec (.init p) s = .next t ∧ runsTo (frames.length + 2) t { s with
    history := s.history ++ [.cmd (encodeCommand (.init p)), .rst false, .rst true] ++ List.zipWith busEvent frames as,
    answers := rest, inputs := [], phase := .run, modev := true, mode := s.cfg.modeCode.receiveContinuous,
    frf := Reg.holding frf, cfg1 := Reg.holding c.1, cfg2 := Reg.holding c.2, ver := Reg.holding s.cfg.expectedVersion,
    err := 0, resp := ⟨.init (s.cfg.loraFlag ||| s.cfg.modeCode.receiveContinuous.setWidth 8) s.cfg.expectedVersion frf c.1 c.2,
      Reg.holding 0⟩,
    busy := false, owner := .command, step := .none, job := none, rstN := true }

/-! ## The host's events and the whole machine -/

/-- A rising edge of IRQ_LINE emits EDGE and sets PEND unless HALTED, whatever the block does; no other sample does
(60_exceptions.md R280). -/
def Obligations.RisingEdgeSetsPend : Prop := ∀ (s : State) (level : Bool) (rest : List Input), s.inputs = .irqSample level :: rest →
  (level = true → s.irqLine = false → s.phase ≠ .halted →
    step s = .next { s with inputs := rest, irqLine := true, pend := true, history := s.history ++ [.edge] }) ∧
  (level = true → s.irqLine = false → s.phase = .halted →
    step s = .next { s with inputs := rest, irqLine := true, history := s.history ++ [.edge] }) ∧
  ((level = false ∨ s.irqLine = true) → step s = .next { s with inputs := rest, irqLine := level })

/-- SHUTDOWN abandons what is in progress at the transaction boundary: no further step, RESP and ERR not written, RST_N low with
RST(0), HALTED. A transaction in flight completes first, with its BUS event, and nothing of its step follows: no register takes
its answer, whatever it is (60_exceptions.md R292; the two input events: log 25). That a mode write completed so moves neither
MODEV nor MODE is the model's reading (DEDUCED, log 25). -/
def Obligations.ShutdownAbandons : Prop := ∀ (s : State) (rest : List Input),
  ((s.inputs = .shutdown :: rest ∨ (s.inputs = .shutdownInFlight :: rest ∧ ∀ f, ¬ (s.busy = true ∧ selectFrame s = some f))) →
    step s = .next { s with
      inputs := rest, step := .none, busy := false, owner := .command, pend := false, job := none, rstN := false, phase := .halted,
      history := s.history ++ [.rst false] }) ∧
  (∀ (f : Frame) (ans : Answer) (as : List Answer), s.inputs = .shutdownInFlight :: rest → s.busy = true → selectFrame s = some f →
    (∀ r ∈ stepReads s.step, isWritten s r = true) → s.answers = ans :: as →
    step s = .next { s with
      inputs := rest, answers := as, step := .none, busy := false, owner := .command, pend := false, job := none, rstN := false,
      phase := .halted, history := s.history ++ [busEvent f ans, .rst false] })

/-- Only BLOCK_RESET leaves HALTED, and in HALTED no transaction is made: every other step from a well-formed halted state stays
HALTED and adds no BUS event (60_exceptions.md R282, R273). -/
def Obligations.OnlyBlockResetLeavesHalted : Prop := ∀ s t : State, stateOk s = true → s.phase = .halted → step s = .next t →
  s.inputs.head? ≠ some .blockReset →
  t.phase = .halted ∧ ∃ h, t.history = s.history ++ h ∧ ∀ e ∈ h, ∀ b0 b1 l bs, e ≠ .bus b0 b1 l bs

/-- PHASE becomes RUN only by the last step of INIT: "PHASE becomes RUN only here" (70_reset_and_hazards.md R318). -/
def Obligations.RunOnlyEnteredByInit : Prop := ∀ s t : State, step s = .next t → t.phase = .run → s.phase ≠ .run →
  s.step = .i6Rxc ∧ t.step = .none ∧ t.modev = true ∧ t.mode = s.cfg.modeCode.receiveContinuous

/-- The history is append-only, but for BLOCK_RESET, which empties it (00_scope.md R12). -/
def Obligations.HistoryIsAppendOnly : Prop := ∀ s t : State, step s = .next t →
  (s.inputs.head? ≠ some .blockReset → ∃ h, t.history = s.history ++ h) ∧ (s.inputs.head? = some .blockReset → t.history = [])

/-- No step moves STEP backwards: while a sequence goes on its code does not fall, and of the block's own steps only S3_BURST, a
command's CMD and the wait in I0_RST leave it where it is; otherwise it moves on, or returns to NONE (10_state.md R24). -/
def Obligations.StepNeverMovesBackwards : Prop := ∀ s t : State, stateOk s = true → step s = .next t → s.busy = true → t.step ≠ .none →
  s.step.code.toNat ≤ t.step.code.toNat ∧
  (t.step = s.step → s.step = .s3Burst ∨ s.step = .cmd ∨ s.step = .i0Rst ∨ ∃ e rest, s.inputs = e :: rest ∧ e ≠ .quiet)

/-- A service never starts inside a command or another service, nor a command inside either: while the lock is held OWNER does
not change, no step enters S0_IRQ, where a service starts, and none clears PEND, as a service's start does; and no word leaves
the port, in the step that frees the lock either (60_exceptions.md R279, 20_memory.md R72). -/
def Obligations.OwnerKeepsTheLock : Prop := ∀ s t : State, stateOk s = true → step s = .next t → s.busy = true →
  (∃ more, t.port = s.port ++ more) ∧
  (t.busy = true → t.owner = s.owner ∧ (t.step = .s0Irq → s.step = .s0Irq) ∧ (s.pend = true → t.pend = true))

/-- No step changes a parameter (00_scope.md R7). -/
def Obligations.ParametersNeverChange : Prop := ∀ s t : State, step s = .next t → t.cfg = s.cfg

/-- The invariant holds at reset. -/
def Obligations.ResetIsWellFormed : Prop := stateOk State.reset = true

/-- Every step keeps the invariant: the lock, STEP and PHASE agree, the registers to be read are written, the ranges and lengths
hold, the history holds legal frames and packets, ERR's reserved bits are 0, the tracked mode is a mode code, RST_N is low only
in I0_RST or HALTED, and an attached chip's memories are canonical. -/
def Obligations.StepKeepsInvariant : Prop := ∀ s t : State, stateOk s = true → step s = .next t → stateOk t = true

/-- From a well-formed state every step answers a next state: no well-formed run meets `UnwrittenRead`, and nothing is refused.
Where the current step reads a register that is unwritten, its frame stops with the model fault `UnwrittenRead` of such a register,
"never a value" (00_scope.md R11). -/
def Obligations.NoWellFormedRunFaults : Prop :=
  (∀ s : State, stateOk s = true → ∃ t, step s = .next t) ∧
  ∀ (s : State) (f : Frame) (r : WorkReg), r ∈ stepReads s.step → isWritten s r = false →
    ∃ q, q ∈ stepReads s.step ∧ isWritten s q = false ∧ exec f.instr s = .fault (.unwrittenRead q)

/-- CHIP_REF: a register read returns the byte, a FIFO read the byte at the cursor and advances it, a FIFO write stores and
advances, a pointer write moves the cursor, an IRQ_FLAGS write clears the written bits, any other write stores; no other register
byte changes (20_memory.md R75). -/
def Obligations.ReferenceChipAnswers : Prop := ∀ (p : Params) (c : RefChip) (a b : Addr) (v : Byte), c.wf = true →
  (a ≠ p.regAddr.fifo → c.exchange p (.read a) = (c.readReg a, c)) ∧
  (a = p.regAddr.fifo → c.exchange p (.read a) = (cellRead c.fifo c.ptr.toNat, ⟨c.reg, c.fifo, c.ptr + 1⟩)) ∧
  (a ≠ p.regAddr.fifo → (c.exchange p (.write a v)).1 = 0 ∧ (c.exchange p (.write a v)).2.fifo = c.fifo ∧
    (c.exchange p (.write a v)).2.ptr = (if a = p.regAddr.fifoAddrPtr then v else c.ptr) ∧
    (c.exchange p (.write a v)).2.readReg b =
      (if b ≠ a then c.readReg b
       else if a = p.regAddr.irqFlags ∧ a ≠ p.regAddr.fifoAddrPtr then c.readReg a &&& ~~~v else v)) ∧
  (a = p.regAddr.fifo → (c.exchange p (.write a v)).1 = 0 ∧ (c.exchange p (.write a v)).2.reg = c.reg ∧
    (c.exchange p (.write a v)).2.ptr = c.ptr + 1 ∧
    ∀ n, cellRead (c.exchange p (.write a v)).2.fifo n = if n = c.ptr.toNat then v else cellRead c.fifo n) ∧
  (c.exchange p (.read a)).2.wf = true ∧ (c.exchange p (.write a v)).2.wf = true
end

