-- ==== Sys2Proof/Laws/Binary64.lean ====
section
/-! SUPPORT. Rounding to binary64 stays finite and near: a rational far below the largest binary64 value rounds to a rational of
about its size. -/
namespace Sys2Proof.Machine

/-- `pow2` is the power of two. -/
theorem pow2_eq (e : Int) : pow2 e = (2 : Rat) ^ e := by
  unfold pow2
  split
  · rename_i h
    obtain ⟨k, rfl⟩ := Int.eq_ofNat_of_zero_le h
    simp [Rat.mkRat_eq_div]
  · rename_i h
    obtain ⟨k, hk⟩ := Int.eq_ofNat_of_zero_le (show 0 ≤ -e by omega)
    have he : e = -(k : Int) := by omega
    subst he
    simp [Rat.mkRat_eq_div]

/-- Rounding to a natural number adds less than one. -/
theorem roundHalfEven_le (n d : Nat) : roundHalfEven n d ≤ n / d + 1 := by
  unfold roundHalfEven
  simp only
  split_ifs <;> omega

/-- The exponent is not too large: half of its power of two is below the quotient. -/
theorem floorLog2_le {n d : Nat} (hn : n ≠ 0) (hd : d ≠ 0) : (2 : Rat) ^ (floorLog2 n d) ≤ 2 * ((n : Rat) / d) := by
  have h1 : 2 ^ n.log2 ≤ n := Nat.log2_self_le hn
  have h2 : d < 2 ^ (d.log2 + 1) := Nat.lt_log2_self
  have hle : floorLog2 n d ≤ (n.log2 : Int) - d.log2 := by
    unfold floorLog2
    simp only
    split_ifs <;> omega
  have hp : (2 : Rat) ^ (floorLog2 n d) ≤ (2 : Rat) ^ ((n.log2 : Int) - d.log2) := zpow_le_zpow_right₀ (by norm_num) hle
  have hd' : (0 : Rat) < d := by exact_mod_cast Nat.pos_of_ne_zero hd
  have h1' : (2 : Rat) ^ n.log2 ≤ n := by exact_mod_cast h1
  have h2' : (d : Rat) ≤ 2 * 2 ^ d.log2 := by
    have : (d : Rat) < 2 ^ (d.log2 + 1) := by exact_mod_cast h2
    rw [pow_succ] at this
    linarith
  have hq : (2 : Rat) ^ ((n.log2 : Int) - d.log2) ≤ 2 * ((n : Rat) / d) := by
    rw [zpow_sub₀ (by norm_num), zpow_natCast, zpow_natCast, mul_div_assoc', div_le_div_iff₀ (by positivity) hd']
    nlinarith [pow_pos (show (0 : Rat) < 2 by norm_num) n.log2, pow_pos (show (0 : Rat) < 2 by norm_num) d.log2]
  exact hp.trans hq

/-- The overflow bound, from below. -/
theorem pow2_1024_large : (2 : Rat) ^ 100 < pow2 1024 := by
  rw [pow2_eq, ← zpow_natCast]
  exact zpow_lt_zpow_right₀ (by norm_num) (by norm_num)

/-- A rational of magnitude at most `b`, far below the overflow bound, rounds to a finite value of magnitude at most `2 b + 1`. -/
theorem fl64_finite {q b : Rat} (hq : |q| ≤ b) (hb : b ≤ 2 ^ 90) : ∃ v, fl64 q = some v ∧ |v| ≤ 2 * b + 1 := by
  have hb0 : 0 ≤ b := (abs_nonneg q).trans hq
  by_cases h0 : q.num = 0
  · exact ⟨0, by simp [fl64, h0], by simp; linarith⟩
  have hn : q.num.natAbs ≠ 0 := by omega
  have habs : |q| = (q.num.natAbs : Rat) / q.den := by
    conv_lhs => rw [← Rat.num_div_den q]
    rw [abs_div, Nat.abs_cast, Nat.cast_natAbs, Int.cast_abs]
  set n := q.num.natAbs with hndef
  set d := q.den with hddef
  have hd : (0 : Rat) < d := by exact_mod_cast q.den_pos
  set u : Int := max (floorLog2 n d - 52) (-1074) with hu
  set m : Nat := if 0 ≤ u then roundHalfEven n (d * 2 ^ u.toNat) else roundHalfEven (n * 2 ^ (-u).toNat) d with hm
  have h2u : (2 : Rat) ^ u ≤ |q| + 1 := by
    rcases max_choice (floorLog2 n d - 52) (-1074) with h | h
    · rw [hu, h, zpow_sub₀ (by norm_num)]
      have := floorLog2_le hn q.den_pos.ne'
      rw [← habs] at this
      have h52 : (2 : Rat) ^ (52 : Int) = 4503599627370496 := by norm_num
      rw [h52, div_le_iff₀ (by norm_num)]
      nlinarith [abs_nonneg q]
    · rw [hu, h]
      have : (2 : Rat) ^ (-1074 : Int) ≤ 2 ^ (0 : Int) := zpow_le_zpow_right₀ (by norm_num) (by norm_num)
      simp only [zpow_zero] at this
      linarith [abs_nonneg q]
  have hpos : (0 : Rat) < 2 ^ u := zpow_pos (by norm_num) u
  have hmle : (m : Rat) * 2 ^ u ≤ |q| + 2 ^ u := by
    have key : (m : Rat) ≤ |q| / 2 ^ u + 1 := by
      rw [hm]
      split
      · rename_i h
        obtain ⟨k, hk⟩ := Int.eq_ofNat_of_zero_le h
        rw [hk]
        have h1 : (roundHalfEven n (d * 2 ^ k) : Rat) ≤ ((n / (d * 2 ^ k) : Nat) : Rat) + 1 := by
          exact_mod_cast roundHalfEven_le n (d * 2 ^ k)
        have h2 : ((n / (d * 2 ^ k) : Nat) : Rat) ≤ (n : Rat) / ((d * 2 ^ k : Nat) : Rat) := Nat.cast_div_le
        have h3 : (n : Rat) / ((d * 2 ^ k : Nat) : Rat) = |q| / 2 ^ (k : Int) := by
          rw [habs]; push_cast; rw [zpow_natCast, div_div]
        simp only [Int.toNat_natCast]
        linarith
      · rename_i h
        obtain ⟨k, hk⟩ := Int.eq_ofNat_of_zero_le (show 0 ≤ -u by omega)
        have hk' : u = -(k : Int) := by omega
        rw [hk']
        have h1 : (roundHalfEven (n * 2 ^ k) d : Rat) ≤ ((n * 2 ^ k / d : Nat) : Rat) + 1 := by
          exact_mod_cast roundHalfEven_le (n * 2 ^ k) d
        have h2 : ((n * 2 ^ k / d : Nat) : Rat) ≤ ((n * 2 ^ k : Nat) : Rat) / (d : Rat) := Nat.cast_div_le
        have h3 : ((n * 2 ^ k : Nat) : Rat) / (d : Rat) = |q| / 2 ^ (-(k : Int)) := by
          rw [habs]; push_cast; rw [zpow_neg, zpow_natCast, div_inv_eq_mul]; ring
        simp only [neg_neg, Int.toNat_natCast]
        linarith
    calc (m : Rat) * 2 ^ u ≤ (|q| / 2 ^ u + 1) * 2 ^ u := mul_le_mul_of_nonneg_right key hpos.le
      _ = |q| + 2 ^ u := by rw [add_mul, one_mul, div_mul_cancel₀ _ hpos.ne']
  have hv : mkRat m 1 * pow2 u = (m : Rat) * 2 ^ u := by rw [pow2_eq]; simp [Rat.mkRat_eq_div]
  have hle : (m : Rat) * 2 ^ u ≤ 2 * b + 1 := by
    clear_value m u
    clear hb
    linarith
  have h0v : (0 : Rat) ≤ (m : Rat) * 2 ^ u := mul_nonneg (Nat.cast_nonneg m) hpos.le
  have heq : fl64 q = some (if q.num < 0 then -((m : Rat) * 2 ^ u) else (m : Rat) * 2 ^ u) := by
    unfold fl64
    rw [if_neg h0]
    simp only
    rw [← hndef, ← hddef, ← hu, ← hm, hv, if_neg]
    rw [not_le]
    refine hle.trans_lt (lt_trans ?_ pow2_1024_large)
    clear_value m u
    norm_num at hb ⊢
    linarith
  refine ⟨_, heq, ?_⟩
  split
  · rw [abs_neg, abs_of_nonneg h0v]; exact hle
  · rw [abs_of_nonneg h0v]; exact hle

end Sys2Proof.Machine
end

