-- ==== Sys2Proof/Laws/State.lean ====
section
/-! SUPPORT. One lemma for each field under each update of the state: what the update sets it to, or that it leaves it alone.
All hold by computation; later proofs rewrite with them and unfold no record update. -/
namespace Sys2Proof.Machine

/-! `emit` only appends to the history (00_scope.md R12). -/

@[simp] theorem emit_cfg (e : Event) (s : State) : (emit e s).cfg = s.cfg := rfl
@[simp] theorem emit_phase (e : Event) (s : State) : (emit e s).phase = s.phase := rfl
@[simp] theorem emit_busy (e : Event) (s : State) : (emit e s).busy = s.busy := rfl
@[simp] theorem emit_owner (e : Event) (s : State) : (emit e s).owner = s.owner := rfl
@[simp] theorem emit_step (e : Event) (s : State) : (emit e s).step = s.step := rfl
@[simp] theorem emit_pend (e : Event) (s : State) : (emit e s).pend = s.pend := rfl
@[simp] theorem emit_modev (e : Event) (s : State) : (emit e s).modev = s.modev := rfl
@[simp] theorem emit_mode (e : Event) (s : State) : (emit e s).mode = s.mode := rfl
@[simp] theorem emit_irq (e : Event) (s : State) : (emit e s).irq = s.irq := rfl
@[simp] theorem emit_len (e : Event) (s : State) : (emit e s).len = s.len := rfl
@[simp] theorem emit_cur (e : Event) (s : State) : (emit e s).cur = s.cur := rfl
@[simp] theorem emit_cnt (e : Event) (s : State) : (emit e s).cnt = s.cnt := rfl
@[simp] theorem emit_buf (e : Event) (s : State) : (emit e s).buf = s.buf := rfl
@[simp] theorem emit_hdr (e : Event) (s : State) : (emit e s).hdr = s.hdr := rfl
@[simp] theorem emit_pay (e : Event) (s : State) : (emit e s).pay = s.pay := rfl
@[simp] theorem emit_tmp (e : Event) (s : State) : (emit e s).tmp = s.tmp := rfl
@[simp] theorem emit_hdrcnt (e : Event) (s : State) : (emit e s).hdrcnt = s.hdrcnt := rfl
@[simp] theorem emit_pktcnt (e : Event) (s : State) : (emit e s).pktcnt = s.pktcnt := rfl
@[simp] theorem emit_snrq (e : Event) (s : State) : (emit e s).snrq = s.snrq := rfl
@[simp] theorem emit_rssi (e : Event) (s : State) : (emit e s).rssi = s.rssi := rfl
@[simp] theorem emit_ver (e : Event) (s : State) : (emit e s).ver = s.ver := rfl
@[simp] theorem emit_frf (e : Event) (s : State) : (emit e s).frf = s.frf := rfl
@[simp] theorem emit_cfg1 (e : Event) (s : State) : (emit e s).cfg1 = s.cfg1 := rfl
@[simp] theorem emit_cfg2 (e : Event) (s : State) : (emit e s).cfg2 = s.cfg2 := rfl
@[simp] theorem emit_resp (e : Event) (s : State) : (emit e s).resp = s.resp := rfl
@[simp] theorem emit_err (e : Event) (s : State) : (emit e s).err = s.err := rfl
@[simp] theorem emit_rstN (e : Event) (s : State) : (emit e s).rstN = s.rstN := rfl
@[simp] theorem emit_history (e : Event) (s : State) : (emit e s).history = s.history ++ [e] := rfl
@[simp] theorem emit_svcErr (e : Event) (s : State) : (emit e s).svcErr = s.svcErr := rfl
@[simp] theorem emit_job (e : Event) (s : State) : (emit e s).job = s.job := rfl
@[simp] theorem emit_port (e : Event) (s : State) : (emit e s).port = s.port := rfl
@[simp] theorem emit_mhzIn (e : Event) (s : State) : (emit e s).mhzIn = s.mhzIn := rfl
@[simp] theorem emit_irqLine (e : Event) (s : State) : (emit e s).irqLine = s.irqLine := rfl
@[simp] theorem emit_inputs (e : Event) (s : State) : (emit e s).inputs = s.inputs := rfl
@[simp] theorem emit_answers (e : Event) (s : State) : (emit e s).answers = s.answers := rfl
@[simp] theorem emit_draws (e : Event) (s : State) : (emit e s).draws = s.draws := rfl
@[simp] theorem emit_grants (e : Event) (s : State) : (emit e s).grants = s.grants := rfl
@[simp] theorem emit_grantDraws (e : Event) (s : State) : (emit e s).grantDraws = s.grantDraws := rfl
@[simp] theorem emit_chip (e : Event) (s : State) : (emit e s).chip = s.chip := rfl

/-! `lock` only takes the lock and sets STEP (45_rx_sequencer.md R220, 60_exceptions.md R276). -/

@[simp] theorem lock_cfg (a : Agent) (st : SeqStep) (s : State) : (lock a st s).cfg = s.cfg := rfl
@[simp] theorem lock_phase (a : Agent) (st : SeqStep) (s : State) : (lock a st s).phase = s.phase := rfl
@[simp] theorem lock_busy (a : Agent) (st : SeqStep) (s : State) : (lock a st s).busy = true := rfl
@[simp] theorem lock_owner (a : Agent) (st : SeqStep) (s : State) : (lock a st s).owner = a := rfl
@[simp] theorem lock_step (a : Agent) (st : SeqStep) (s : State) : (lock a st s).step = st := rfl
@[simp] theorem lock_pend (a : Agent) (st : SeqStep) (s : State) : (lock a st s).pend = s.pend := rfl
@[simp] theorem lock_modev (a : Agent) (st : SeqStep) (s : State) : (lock a st s).modev = s.modev := rfl
@[simp] theorem lock_mode (a : Agent) (st : SeqStep) (s : State) : (lock a st s).mode = s.mode := rfl
@[simp] theorem lock_irq (a : Agent) (st : SeqStep) (s : State) : (lock a st s).irq = s.irq := rfl
@[simp] theorem lock_len (a : Agent) (st : SeqStep) (s : State) : (lock a st s).len = s.len := rfl
@[simp] theorem lock_cur (a : Agent) (st : SeqStep) (s : State) : (lock a st s).cur = s.cur := rfl
@[simp] theorem lock_cnt (a : Agent) (st : SeqStep) (s : State) : (lock a st s).cnt = s.cnt := rfl
@[simp] theorem lock_buf (a : Agent) (st : SeqStep) (s : State) : (lock a st s).buf = s.buf := rfl
@[simp] theorem lock_hdr (a : Agent) (st : SeqStep) (s : State) : (lock a st s).hdr = s.hdr := rfl
@[simp] theorem lock_pay (a : Agent) (st : SeqStep) (s : State) : (lock a st s).pay = s.pay := rfl
@[simp] theorem lock_tmp (a : Agent) (st : SeqStep) (s : State) : (lock a st s).tmp = s.tmp := rfl
@[simp] theorem lock_hdrcnt (a : Agent) (st : SeqStep) (s : State) : (lock a st s).hdrcnt = s.hdrcnt := rfl
@[simp] theorem lock_pktcnt (a : Agent) (st : SeqStep) (s : State) : (lock a st s).pktcnt = s.pktcnt := rfl
@[simp] theorem lock_snrq (a : Agent) (st : SeqStep) (s : State) : (lock a st s).snrq = s.snrq := rfl
@[simp] theorem lock_rssi (a : Agent) (st : SeqStep) (s : State) : (lock a st s).rssi = s.rssi := rfl
@[simp] theorem lock_ver (a : Agent) (st : SeqStep) (s : State) : (lock a st s).ver = s.ver := rfl
@[simp] theorem lock_frf (a : Agent) (st : SeqStep) (s : State) : (lock a st s).frf = s.frf := rfl
@[simp] theorem lock_cfg1 (a : Agent) (st : SeqStep) (s : State) : (lock a st s).cfg1 = s.cfg1 := rfl
@[simp] theorem lock_cfg2 (a : Agent) (st : SeqStep) (s : State) : (lock a st s).cfg2 = s.cfg2 := rfl
@[simp] theorem lock_resp (a : Agent) (st : SeqStep) (s : State) : (lock a st s).resp = s.resp := rfl
@[simp] theorem lock_err (a : Agent) (st : SeqStep) (s : State) : (lock a st s).err = s.err := rfl
@[simp] theorem lock_rstN (a : Agent) (st : SeqStep) (s : State) : (lock a st s).rstN = s.rstN := rfl
@[simp] theorem lock_history (a : Agent) (st : SeqStep) (s : State) : (lock a st s).history = s.history := rfl
@[simp] theorem lock_svcErr (a : Agent) (st : SeqStep) (s : State) : (lock a st s).svcErr = s.svcErr := rfl
@[simp] theorem lock_job (a : Agent) (st : SeqStep) (s : State) : (lock a st s).job = s.job := rfl
@[simp] theorem lock_port (a : Agent) (st : SeqStep) (s : State) : (lock a st s).port = s.port := rfl
@[simp] theorem lock_mhzIn (a : Agent) (st : SeqStep) (s : State) : (lock a st s).mhzIn = s.mhzIn := rfl
@[simp] theorem lock_irqLine (a : Agent) (st : SeqStep) (s : State) : (lock a st s).irqLine = s.irqLine := rfl
@[simp] theorem lock_inputs (a : Agent) (st : SeqStep) (s : State) : (lock a st s).inputs = s.inputs := rfl
@[simp] theorem lock_answers (a : Agent) (st : SeqStep) (s : State) : (lock a st s).answers = s.answers := rfl
@[simp] theorem lock_draws (a : Agent) (st : SeqStep) (s : State) : (lock a st s).draws = s.draws := rfl
@[simp] theorem lock_grants (a : Agent) (st : SeqStep) (s : State) : (lock a st s).grants = s.grants := rfl
@[simp] theorem lock_grantDraws (a : Agent) (st : SeqStep) (s : State) : (lock a st s).grantDraws = s.grantDraws := rfl
@[simp] theorem lock_chip (a : Agent) (st : SeqStep) (s : State) : (lock a st s).chip = s.chip := rfl

/-! `unlock` only frees the lock and ends what was in progress (60_exceptions.md R276). -/

@[simp] theorem unlock_cfg (s : State) : (unlock s).cfg = s.cfg := rfl
@[simp] theorem unlock_phase (s : State) : (unlock s).phase = s.phase := rfl
@[simp] theorem unlock_busy (s : State) : (unlock s).busy = false := rfl
@[simp] theorem unlock_owner (s : State) : (unlock s).owner = .command := rfl
@[simp] theorem unlock_step (s : State) : (unlock s).step = .none := rfl
@[simp] theorem unlock_pend (s : State) : (unlock s).pend = s.pend := rfl
@[simp] theorem unlock_modev (s : State) : (unlock s).modev = s.modev := rfl
@[simp] theorem unlock_mode (s : State) : (unlock s).mode = s.mode := rfl
@[simp] theorem unlock_irq (s : State) : (unlock s).irq = s.irq := rfl
@[simp] theorem unlock_len (s : State) : (unlock s).len = s.len := rfl
@[simp] theorem unlock_cur (s : State) : (unlock s).cur = s.cur := rfl
@[simp] theorem unlock_cnt (s : State) : (unlock s).cnt = s.cnt := rfl
@[simp] theorem unlock_buf (s : State) : (unlock s).buf = s.buf := rfl
@[simp] theorem unlock_hdr (s : State) : (unlock s).hdr = s.hdr := rfl
@[simp] theorem unlock_pay (s : State) : (unlock s).pay = s.pay := rfl
@[simp] theorem unlock_tmp (s : State) : (unlock s).tmp = s.tmp := rfl
@[simp] theorem unlock_hdrcnt (s : State) : (unlock s).hdrcnt = s.hdrcnt := rfl
@[simp] theorem unlock_pktcnt (s : State) : (unlock s).pktcnt = s.pktcnt := rfl
@[simp] theorem unlock_snrq (s : State) : (unlock s).snrq = s.snrq := rfl
@[simp] theorem unlock_rssi (s : State) : (unlock s).rssi = s.rssi := rfl
@[simp] theorem unlock_ver (s : State) : (unlock s).ver = s.ver := rfl
@[simp] theorem unlock_frf (s : State) : (unlock s).frf = s.frf := rfl
@[simp] theorem unlock_cfg1 (s : State) : (unlock s).cfg1 = s.cfg1 := rfl
@[simp] theorem unlock_cfg2 (s : State) : (unlock s).cfg2 = s.cfg2 := rfl
@[simp] theorem unlock_resp (s : State) : (unlock s).resp = s.resp := rfl
@[simp] theorem unlock_err (s : State) : (unlock s).err = s.err := rfl
@[simp] theorem unlock_rstN (s : State) : (unlock s).rstN = s.rstN := rfl
@[simp] theorem unlock_history (s : State) : (unlock s).history = s.history := rfl
@[simp] theorem unlock_svcErr (s : State) : (unlock s).svcErr = s.svcErr := rfl
@[simp] theorem unlock_job (s : State) : (unlock s).job = none := rfl
@[simp] theorem unlock_port (s : State) : (unlock s).port = s.port := rfl
@[simp] theorem unlock_mhzIn (s : State) : (unlock s).mhzIn = s.mhzIn := rfl
@[simp] theorem unlock_irqLine (s : State) : (unlock s).irqLine = s.irqLine := rfl
@[simp] theorem unlock_inputs (s : State) : (unlock s).inputs = s.inputs := rfl
@[simp] theorem unlock_answers (s : State) : (unlock s).answers = s.answers := rfl
@[simp] theorem unlock_draws (s : State) : (unlock s).draws = s.draws := rfl
@[simp] theorem unlock_grants (s : State) : (unlock s).grants = s.grants := rfl
@[simp] theorem unlock_grantDraws (s : State) : (unlock s).grantDraws = s.grantDraws := rfl
@[simp] theorem unlock_chip (s : State) : (unlock s).chip = s.chip := rfl

/-! `writeErr` writes ERR and emits the ERR event of a nonzero word (10_state.md R31). -/

@[simp] theorem writeErr_cfg (w : BitVec 32) (s : State) : (writeErr w s).cfg = s.cfg := rfl
@[simp] theorem writeErr_phase (w : BitVec 32) (s : State) : (writeErr w s).phase = s.phase := rfl
@[simp] theorem writeErr_busy (w : BitVec 32) (s : State) : (writeErr w s).busy = s.busy := rfl
@[simp] theorem writeErr_owner (w : BitVec 32) (s : State) : (writeErr w s).owner = s.owner := rfl
@[simp] theorem writeErr_step (w : BitVec 32) (s : State) : (writeErr w s).step = s.step := rfl
@[simp] theorem writeErr_pend (w : BitVec 32) (s : State) : (writeErr w s).pend = s.pend := rfl
@[simp] theorem writeErr_modev (w : BitVec 32) (s : State) : (writeErr w s).modev = s.modev := rfl
@[simp] theorem writeErr_mode (w : BitVec 32) (s : State) : (writeErr w s).mode = s.mode := rfl
@[simp] theorem writeErr_irq (w : BitVec 32) (s : State) : (writeErr w s).irq = s.irq := rfl
@[simp] theorem writeErr_len (w : BitVec 32) (s : State) : (writeErr w s).len = s.len := rfl
@[simp] theorem writeErr_cur (w : BitVec 32) (s : State) : (writeErr w s).cur = s.cur := rfl
@[simp] theorem writeErr_cnt (w : BitVec 32) (s : State) : (writeErr w s).cnt = s.cnt := rfl
@[simp] theorem writeErr_buf (w : BitVec 32) (s : State) : (writeErr w s).buf = s.buf := rfl
@[simp] theorem writeErr_hdr (w : BitVec 32) (s : State) : (writeErr w s).hdr = s.hdr := rfl
@[simp] theorem writeErr_pay (w : BitVec 32) (s : State) : (writeErr w s).pay = s.pay := rfl
@[simp] theorem writeErr_tmp (w : BitVec 32) (s : State) : (writeErr w s).tmp = s.tmp := rfl
@[simp] theorem writeErr_hdrcnt (w : BitVec 32) (s : State) : (writeErr w s).hdrcnt = s.hdrcnt := rfl
@[simp] theorem writeErr_pktcnt (w : BitVec 32) (s : State) : (writeErr w s).pktcnt = s.pktcnt := rfl
@[simp] theorem writeErr_snrq (w : BitVec 32) (s : State) : (writeErr w s).snrq = s.snrq := rfl
@[simp] theorem writeErr_rssi (w : BitVec 32) (s : State) : (writeErr w s).rssi = s.rssi := rfl
@[simp] theorem writeErr_ver (w : BitVec 32) (s : State) : (writeErr w s).ver = s.ver := rfl
@[simp] theorem writeErr_frf (w : BitVec 32) (s : State) : (writeErr w s).frf = s.frf := rfl
@[simp] theorem writeErr_cfg1 (w : BitVec 32) (s : State) : (writeErr w s).cfg1 = s.cfg1 := rfl
@[simp] theorem writeErr_cfg2 (w : BitVec 32) (s : State) : (writeErr w s).cfg2 = s.cfg2 := rfl
@[simp] theorem writeErr_resp (w : BitVec 32) (s : State) : (writeErr w s).resp = s.resp := rfl
@[simp] theorem writeErr_err (w : BitVec 32) (s : State) : (writeErr w s).err = w := rfl
@[simp] theorem writeErr_rstN (w : BitVec 32) (s : State) : (writeErr w s).rstN = s.rstN := rfl
@[simp] theorem writeErr_history (w : BitVec 32) (s : State) : (writeErr w s).history = if w = 0 then s.history else s.history ++ [.err w] := rfl
@[simp] theorem writeErr_svcErr (w : BitVec 32) (s : State) : (writeErr w s).svcErr = s.svcErr := rfl
@[simp] theorem writeErr_job (w : BitVec 32) (s : State) : (writeErr w s).job = s.job := rfl
@[simp] theorem writeErr_port (w : BitVec 32) (s : State) : (writeErr w s).port = s.port := rfl
@[simp] theorem writeErr_mhzIn (w : BitVec 32) (s : State) : (writeErr w s).mhzIn = s.mhzIn := rfl
@[simp] theorem writeErr_irqLine (w : BitVec 32) (s : State) : (writeErr w s).irqLine = s.irqLine := rfl
@[simp] theorem writeErr_inputs (w : BitVec 32) (s : State) : (writeErr w s).inputs = s.inputs := rfl
@[simp] theorem writeErr_answers (w : BitVec 32) (s : State) : (writeErr w s).answers = s.answers := rfl
@[simp] theorem writeErr_draws (w : BitVec 32) (s : State) : (writeErr w s).draws = s.draws := rfl
@[simp] theorem writeErr_grants (w : BitVec 32) (s : State) : (writeErr w s).grants = s.grants := rfl
@[simp] theorem writeErr_grantDraws (w : BitVec 32) (s : State) : (writeErr w s).grantDraws = s.grantDraws := rfl
@[simp] theorem writeErr_chip (w : BitVec 32) (s : State) : (writeErr w s).chip = s.chip := rfl

/-! The envelope's opening (60_exceptions.md R276). -/

@[simp] theorem openCommand_cfg (cw : CommandWord) (s : State) : (openCommand cw s).cfg = s.cfg := rfl
@[simp] theorem openCommand_phase (cw : CommandWord) (s : State) : (openCommand cw s).phase = s.phase := rfl
@[simp] theorem openCommand_busy (cw : CommandWord) (s : State) : (openCommand cw s).busy = true := rfl
@[simp] theorem openCommand_owner (cw : CommandWord) (s : State) : (openCommand cw s).owner = .command := rfl
@[simp] theorem openCommand_step (cw : CommandWord) (s : State) : (openCommand cw s).step = .cmd := rfl
@[simp] theorem openCommand_pend (cw : CommandWord) (s : State) : (openCommand cw s).pend = s.pend := rfl
@[simp] theorem openCommand_modev (cw : CommandWord) (s : State) : (openCommand cw s).modev = s.modev := rfl
@[simp] theorem openCommand_mode (cw : CommandWord) (s : State) : (openCommand cw s).mode = s.mode := rfl
@[simp] theorem openCommand_irq (cw : CommandWord) (s : State) : (openCommand cw s).irq = s.irq := rfl
@[simp] theorem openCommand_len (cw : CommandWord) (s : State) : (openCommand cw s).len = s.len := rfl
@[simp] theorem openCommand_cur (cw : CommandWord) (s : State) : (openCommand cw s).cur = s.cur := rfl
@[simp] theorem openCommand_cnt (cw : CommandWord) (s : State) : (openCommand cw s).cnt = s.cnt := rfl
@[simp] theorem openCommand_buf (cw : CommandWord) (s : State) : (openCommand cw s).buf = s.buf := rfl
@[simp] theorem openCommand_hdr (cw : CommandWord) (s : State) : (openCommand cw s).hdr = s.hdr := rfl
@[simp] theorem openCommand_pay (cw : CommandWord) (s : State) : (openCommand cw s).pay = s.pay := rfl
@[simp] theorem openCommand_tmp (cw : CommandWord) (s : State) : (openCommand cw s).tmp = s.tmp := rfl
@[simp] theorem openCommand_hdrcnt (cw : CommandWord) (s : State) : (openCommand cw s).hdrcnt = s.hdrcnt := rfl
@[simp] theorem openCommand_pktcnt (cw : CommandWord) (s : State) : (openCommand cw s).pktcnt = s.pktcnt := rfl
@[simp] theorem openCommand_snrq (cw : CommandWord) (s : State) : (openCommand cw s).snrq = s.snrq := rfl
@[simp] theorem openCommand_rssi (cw : CommandWord) (s : State) : (openCommand cw s).rssi = s.rssi := rfl
@[simp] theorem openCommand_ver (cw : CommandWord) (s : State) : (openCommand cw s).ver = s.ver := rfl
@[simp] theorem openCommand_frf (cw : CommandWord) (s : State) : (openCommand cw s).frf = s.frf := rfl
@[simp] theorem openCommand_cfg1 (cw : CommandWord) (s : State) : (openCommand cw s).cfg1 = s.cfg1 := rfl
@[simp] theorem openCommand_cfg2 (cw : CommandWord) (s : State) : (openCommand cw s).cfg2 = s.cfg2 := rfl
@[simp] theorem openCommand_resp (cw : CommandWord) (s : State) : (openCommand cw s).resp = Resp.unwritten := rfl
@[simp] theorem openCommand_err (cw : CommandWord) (s : State) : (openCommand cw s).err = s.err := rfl
@[simp] theorem openCommand_rstN (cw : CommandWord) (s : State) : (openCommand cw s).rstN = s.rstN := rfl
@[simp] theorem openCommand_history (cw : CommandWord) (s : State) : (openCommand cw s).history = s.history ++ [.cmd cw] := rfl
@[simp] theorem openCommand_svcErr (cw : CommandWord) (s : State) : (openCommand cw s).svcErr = s.svcErr := rfl
@[simp] theorem openCommand_job (cw : CommandWord) (s : State) : (openCommand cw s).job = s.job := rfl
@[simp] theorem openCommand_port (cw : CommandWord) (s : State) : (openCommand cw s).port = s.port := rfl
@[simp] theorem openCommand_mhzIn (cw : CommandWord) (s : State) : (openCommand cw s).mhzIn = s.mhzIn := rfl
@[simp] theorem openCommand_irqLine (cw : CommandWord) (s : State) : (openCommand cw s).irqLine = s.irqLine := rfl
@[simp] theorem openCommand_inputs (cw : CommandWord) (s : State) : (openCommand cw s).inputs = s.inputs := rfl
@[simp] theorem openCommand_answers (cw : CommandWord) (s : State) : (openCommand cw s).answers = s.answers := rfl
@[simp] theorem openCommand_draws (cw : CommandWord) (s : State) : (openCommand cw s).draws = s.draws := rfl
@[simp] theorem openCommand_grants (cw : CommandWord) (s : State) : (openCommand cw s).grants = s.grants := rfl
@[simp] theorem openCommand_grantDraws (cw : CommandWord) (s : State) : (openCommand cw s).grantDraws = s.grantDraws := rfl
@[simp] theorem openCommand_chip (cw : CommandWord) (s : State) : (openCommand cw s).chip = s.chip := rfl

/-! The envelope's completion (60_exceptions.md R276). -/

@[simp] theorem completeCommand_cfg (r : RespResult) (e : ErrRec) (s : State) : (completeCommand r e s).cfg = s.cfg := rfl
@[simp] theorem completeCommand_phase (r : RespResult) (e : ErrRec) (s : State) : (completeCommand r e s).phase = s.phase := rfl
@[simp] theorem completeCommand_busy (r : RespResult) (e : ErrRec) (s : State) : (completeCommand r e s).busy = false := rfl
@[simp] theorem completeCommand_owner (r : RespResult) (e : ErrRec) (s : State) : (completeCommand r e s).owner = .command := rfl
@[simp] theorem completeCommand_step (r : RespResult) (e : ErrRec) (s : State) : (completeCommand r e s).step = .none := rfl
@[simp] theorem completeCommand_pend (r : RespResult) (e : ErrRec) (s : State) : (completeCommand r e s).pend = s.pend := rfl
@[simp] theorem completeCommand_modev (r : RespResult) (e : ErrRec) (s : State) : (completeCommand r e s).modev = s.modev := rfl
@[simp] theorem completeCommand_mode (r : RespResult) (e : ErrRec) (s : State) : (completeCommand r e s).mode = s.mode := rfl
@[simp] theorem completeCommand_irq (r : RespResult) (e : ErrRec) (s : State) : (completeCommand r e s).irq = s.irq := rfl
@[simp] theorem completeCommand_len (r : RespResult) (e : ErrRec) (s : State) : (completeCommand r e s).len = s.len := rfl
@[simp] theorem completeCommand_cur (r : RespResult) (e : ErrRec) (s : State) : (completeCommand r e s).cur = s.cur := rfl
@[simp] theorem completeCommand_cnt (r : RespResult) (e : ErrRec) (s : State) : (completeCommand r e s).cnt = s.cnt := rfl
@[simp] theorem completeCommand_buf (r : RespResult) (e : ErrRec) (s : State) : (completeCommand r e s).buf = s.buf := rfl
@[simp] theorem completeCommand_hdr (r : RespResult) (e : ErrRec) (s : State) : (completeCommand r e s).hdr = s.hdr := rfl
@[simp] theorem completeCommand_pay (r : RespResult) (e : ErrRec) (s : State) : (completeCommand r e s).pay = s.pay := rfl
@[simp] theorem completeCommand_tmp (r : RespResult) (e : ErrRec) (s : State) : (completeCommand r e s).tmp = s.tmp := rfl
@[simp] theorem completeCommand_hdrcnt (r : RespResult) (e : ErrRec) (s : State) : (completeCommand r e s).hdrcnt = s.hdrcnt := rfl
@[simp] theorem completeCommand_pktcnt (r : RespResult) (e : ErrRec) (s : State) : (completeCommand r e s).pktcnt = s.pktcnt := rfl
@[simp] theorem completeCommand_snrq (r : RespResult) (e : ErrRec) (s : State) : (completeCommand r e s).snrq = s.snrq := rfl
@[simp] theorem completeCommand_rssi (r : RespResult) (e : ErrRec) (s : State) : (completeCommand r e s).rssi = s.rssi := rfl
@[simp] theorem completeCommand_ver (r : RespResult) (e : ErrRec) (s : State) : (completeCommand r e s).ver = s.ver := rfl
@[simp] theorem completeCommand_frf (r : RespResult) (e : ErrRec) (s : State) : (completeCommand r e s).frf = s.frf := rfl
@[simp] theorem completeCommand_cfg1 (r : RespResult) (e : ErrRec) (s : State) : (completeCommand r e s).cfg1 = s.cfg1 := rfl
@[simp] theorem completeCommand_cfg2 (r : RespResult) (e : ErrRec) (s : State) : (completeCommand r e s).cfg2 = s.cfg2 := rfl
@[simp] theorem completeCommand_resp (r : RespResult) (e : ErrRec) (s : State) : (completeCommand r e s).resp = ⟨r, Reg.holding (errWord e)⟩ := rfl
@[simp] theorem completeCommand_err (r : RespResult) (e : ErrRec) (s : State) : (completeCommand r e s).err = errWord e := rfl
@[simp] theorem completeCommand_rstN (r : RespResult) (e : ErrRec) (s : State) : (completeCommand r e s).rstN = s.rstN := rfl
@[simp] theorem completeCommand_history (r : RespResult) (e : ErrRec) (s : State) : (completeCommand r e s).history = if errWord e = 0 then s.history else s.history ++ [.err (errWord e)] := rfl
@[simp] theorem completeCommand_svcErr (r : RespResult) (e : ErrRec) (s : State) : (completeCommand r e s).svcErr = s.svcErr := rfl
@[simp] theorem completeCommand_job (r : RespResult) (e : ErrRec) (s : State) : (completeCommand r e s).job = none := rfl
@[simp] theorem completeCommand_port (r : RespResult) (e : ErrRec) (s : State) : (completeCommand r e s).port = s.port := rfl
@[simp] theorem completeCommand_mhzIn (r : RespResult) (e : ErrRec) (s : State) : (completeCommand r e s).mhzIn = s.mhzIn := rfl
@[simp] theorem completeCommand_irqLine (r : RespResult) (e : ErrRec) (s : State) : (completeCommand r e s).irqLine = s.irqLine := rfl
@[simp] theorem completeCommand_inputs (r : RespResult) (e : ErrRec) (s : State) : (completeCommand r e s).inputs = s.inputs := rfl
@[simp] theorem completeCommand_answers (r : RespResult) (e : ErrRec) (s : State) : (completeCommand r e s).answers = s.answers := rfl
@[simp] theorem completeCommand_draws (r : RespResult) (e : ErrRec) (s : State) : (completeCommand r e s).draws = s.draws := rfl
@[simp] theorem completeCommand_grants (r : RespResult) (e : ErrRec) (s : State) : (completeCommand r e s).grants = s.grants := rfl
@[simp] theorem completeCommand_grantDraws (r : RespResult) (e : ErrRec) (s : State) : (completeCommand r e s).grantDraws = s.grantDraws := rfl
@[simp] theorem completeCommand_chip (r : RespResult) (e : ErrRec) (s : State) : (completeCommand r e s).chip = s.chip := rfl

/-! The service's end (45_rx_sequencer.md R233). -/

@[simp] theorem endService_cfg (s : State) : (endService s).cfg = s.cfg := rfl
@[simp] theorem endService_phase (s : State) : (endService s).phase = s.phase := rfl
@[simp] theorem endService_busy (s : State) : (endService s).busy = false := rfl
@[simp] theorem endService_owner (s : State) : (endService s).owner = .command := rfl
@[simp] theorem endService_step (s : State) : (endService s).step = .none := rfl
@[simp] theorem endService_pend (s : State) : (endService s).pend = s.pend := rfl
@[simp] theorem endService_modev (s : State) : (endService s).modev = s.modev := rfl
@[simp] theorem endService_mode (s : State) : (endService s).mode = s.mode := rfl
@[simp] theorem endService_irq (s : State) : (endService s).irq = s.irq := rfl
@[simp] theorem endService_len (s : State) : (endService s).len = s.len := rfl
@[simp] theorem endService_cur (s : State) : (endService s).cur = s.cur := rfl
@[simp] theorem endService_cnt (s : State) : (endService s).cnt = s.cnt := rfl
@[simp] theorem endService_buf (s : State) : (endService s).buf = s.buf := rfl
@[simp] theorem endService_hdr (s : State) : (endService s).hdr = s.hdr := rfl
@[simp] theorem endService_pay (s : State) : (endService s).pay = s.pay := rfl
@[simp] theorem endService_tmp (s : State) : (endService s).tmp = s.tmp := rfl
@[simp] theorem endService_hdrcnt (s : State) : (endService s).hdrcnt = s.hdrcnt := rfl
@[simp] theorem endService_pktcnt (s : State) : (endService s).pktcnt = s.pktcnt := rfl
@[simp] theorem endService_snrq (s : State) : (endService s).snrq = s.snrq := rfl
@[simp] theorem endService_rssi (s : State) : (endService s).rssi = s.rssi := rfl
@[simp] theorem endService_ver (s : State) : (endService s).ver = s.ver := rfl
@[simp] theorem endService_frf (s : State) : (endService s).frf = s.frf := rfl
@[simp] theorem endService_cfg1 (s : State) : (endService s).cfg1 = s.cfg1 := rfl
@[simp] theorem endService_cfg2 (s : State) : (endService s).cfg2 = s.cfg2 := rfl
@[simp] theorem endService_resp (s : State) : (endService s).resp = s.resp := rfl
@[simp] theorem endService_err (s : State) : (endService s).err = errWord s.svcErr := rfl
@[simp] theorem endService_rstN (s : State) : (endService s).rstN = s.rstN := rfl
@[simp] theorem endService_history (s : State) : (endService s).history = if errWord s.svcErr = 0 then s.history else s.history ++ [.err (errWord s.svcErr)] := rfl
@[simp] theorem endService_svcErr (s : State) : (endService s).svcErr = s.svcErr := rfl
@[simp] theorem endService_job (s : State) : (endService s).job = none := rfl
@[simp] theorem endService_port (s : State) : (endService s).port = s.port := rfl
@[simp] theorem endService_mhzIn (s : State) : (endService s).mhzIn = s.mhzIn := rfl
@[simp] theorem endService_irqLine (s : State) : (endService s).irqLine = s.irqLine := rfl
@[simp] theorem endService_inputs (s : State) : (endService s).inputs = s.inputs := rfl
@[simp] theorem endService_answers (s : State) : (endService s).answers = s.answers := rfl
@[simp] theorem endService_draws (s : State) : (endService s).draws = s.draws := rfl
@[simp] theorem endService_grants (s : State) : (endService s).grants = s.grants := rfl
@[simp] theorem endService_grantDraws (s : State) : (endService s).grantDraws = s.grantDraws := rfl
@[simp] theorem endService_chip (s : State) : (endService s).chip = s.chip := rfl

/-! Service entry (45_rx_sequencer.md R220). -/

@[simp] theorem serviceEntry_cfg (s : State) : (serviceEntry s).cfg = s.cfg := rfl
@[simp] theorem serviceEntry_phase (s : State) : (serviceEntry s).phase = s.phase := rfl
@[simp] theorem serviceEntry_busy (s : State) : (serviceEntry s).busy = true := rfl
@[simp] theorem serviceEntry_owner (s : State) : (serviceEntry s).owner = .service := rfl
@[simp] theorem serviceEntry_step (s : State) : (serviceEntry s).step = .s0Irq := rfl
@[simp] theorem serviceEntry_pend (s : State) : (serviceEntry s).pend = false := rfl
@[simp] theorem serviceEntry_modev (s : State) : (serviceEntry s).modev = s.modev := rfl
@[simp] theorem serviceEntry_mode (s : State) : (serviceEntry s).mode = s.mode := rfl
@[simp] theorem serviceEntry_irq (s : State) : (serviceEntry s).irq = s.irq := rfl
@[simp] theorem serviceEntry_len (s : State) : (serviceEntry s).len = s.len := rfl
@[simp] theorem serviceEntry_cur (s : State) : (serviceEntry s).cur = s.cur := rfl
@[simp] theorem serviceEntry_cnt (s : State) : (serviceEntry s).cnt = s.cnt := rfl
@[simp] theorem serviceEntry_buf (s : State) : (serviceEntry s).buf = s.buf := rfl
@[simp] theorem serviceEntry_hdr (s : State) : (serviceEntry s).hdr = s.hdr := rfl
@[simp] theorem serviceEntry_pay (s : State) : (serviceEntry s).pay = s.pay := rfl
@[simp] theorem serviceEntry_tmp (s : State) : (serviceEntry s).tmp = s.tmp := rfl
@[simp] theorem serviceEntry_hdrcnt (s : State) : (serviceEntry s).hdrcnt = s.hdrcnt := rfl
@[simp] theorem serviceEntry_pktcnt (s : State) : (serviceEntry s).pktcnt = s.pktcnt := rfl
@[simp] theorem serviceEntry_snrq (s : State) : (serviceEntry s).snrq = s.snrq := rfl
@[simp] theorem serviceEntry_rssi (s : State) : (serviceEntry s).rssi = s.rssi := rfl
@[simp] theorem serviceEntry_ver (s : State) : (serviceEntry s).ver = s.ver := rfl
@[simp] theorem serviceEntry_frf (s : State) : (serviceEntry s).frf = s.frf := rfl
@[simp] theorem serviceEntry_cfg1 (s : State) : (serviceEntry s).cfg1 = s.cfg1 := rfl
@[simp] theorem serviceEntry_cfg2 (s : State) : (serviceEntry s).cfg2 = s.cfg2 := rfl
@[simp] theorem serviceEntry_resp (s : State) : (serviceEntry s).resp = s.resp := rfl
@[simp] theorem serviceEntry_err (s : State) : (serviceEntry s).err = s.err := rfl
@[simp] theorem serviceEntry_rstN (s : State) : (serviceEntry s).rstN = s.rstN := rfl
@[simp] theorem serviceEntry_history (s : State) : (serviceEntry s).history = s.history := rfl
@[simp] theorem serviceEntry_svcErr (s : State) : (serviceEntry s).svcErr = ErrRec.clear := rfl
@[simp] theorem serviceEntry_job (s : State) : (serviceEntry s).job = s.job := rfl
@[simp] theorem serviceEntry_port (s : State) : (serviceEntry s).port = s.port := rfl
@[simp] theorem serviceEntry_mhzIn (s : State) : (serviceEntry s).mhzIn = s.mhzIn := rfl
@[simp] theorem serviceEntry_irqLine (s : State) : (serviceEntry s).irqLine = s.irqLine := rfl
@[simp] theorem serviceEntry_inputs (s : State) : (serviceEntry s).inputs = s.inputs := rfl
@[simp] theorem serviceEntry_answers (s : State) : (serviceEntry s).answers = s.answers := rfl
@[simp] theorem serviceEntry_draws (s : State) : (serviceEntry s).draws = s.draws := rfl
@[simp] theorem serviceEntry_grants (s : State) : (serviceEntry s).grants = s.grants := rfl
@[simp] theorem serviceEntry_grantDraws (s : State) : (serviceEntry s).grantDraws = s.grantDraws := rfl
@[simp] theorem serviceEntry_chip (s : State) : (serviceEntry s).chip = s.chip := rfl

/-! `trackMode` only moves the mode tracker (43_mode.md R191). -/

@[simp] theorem trackMode_cfg (m : BitVec 3) (s : State) : (trackMode m s).cfg = s.cfg := rfl
@[simp] theorem trackMode_phase (m : BitVec 3) (s : State) : (trackMode m s).phase = s.phase := rfl
@[simp] theorem trackMode_busy (m : BitVec 3) (s : State) : (trackMode m s).busy = s.busy := rfl
@[simp] theorem trackMode_owner (m : BitVec 3) (s : State) : (trackMode m s).owner = s.owner := rfl
@[simp] theorem trackMode_step (m : BitVec 3) (s : State) : (trackMode m s).step = s.step := rfl
@[simp] theorem trackMode_pend (m : BitVec 3) (s : State) : (trackMode m s).pend = s.pend := rfl
@[simp] theorem trackMode_modev (m : BitVec 3) (s : State) : (trackMode m s).modev = true := rfl
@[simp] theorem trackMode_mode (m : BitVec 3) (s : State) : (trackMode m s).mode = m := rfl
@[simp] theorem trackMode_irq (m : BitVec 3) (s : State) : (trackMode m s).irq = s.irq := rfl
@[simp] theorem trackMode_len (m : BitVec 3) (s : State) : (trackMode m s).len = s.len := rfl
@[simp] theorem trackMode_cur (m : BitVec 3) (s : State) : (trackMode m s).cur = s.cur := rfl
@[simp] theorem trackMode_cnt (m : BitVec 3) (s : State) : (trackMode m s).cnt = s.cnt := rfl
@[simp] theorem trackMode_buf (m : BitVec 3) (s : State) : (trackMode m s).buf = s.buf := rfl
@[simp] theorem trackMode_hdr (m : BitVec 3) (s : State) : (trackMode m s).hdr = s.hdr := rfl
@[simp] theorem trackMode_pay (m : BitVec 3) (s : State) : (trackMode m s).pay = s.pay := rfl
@[simp] theorem trackMode_tmp (m : BitVec 3) (s : State) : (trackMode m s).tmp = s.tmp := rfl
@[simp] theorem trackMode_hdrcnt (m : BitVec 3) (s : State) : (trackMode m s).hdrcnt = s.hdrcnt := rfl
@[simp] theorem trackMode_pktcnt (m : BitVec 3) (s : State) : (trackMode m s).pktcnt = s.pktcnt := rfl
@[simp] theorem trackMode_snrq (m : BitVec 3) (s : State) : (trackMode m s).snrq = s.snrq := rfl
@[simp] theorem trackMode_rssi (m : BitVec 3) (s : State) : (trackMode m s).rssi = s.rssi := rfl
@[simp] theorem trackMode_ver (m : BitVec 3) (s : State) : (trackMode m s).ver = s.ver := rfl
@[simp] theorem trackMode_frf (m : BitVec 3) (s : State) : (trackMode m s).frf = s.frf := rfl
@[simp] theorem trackMode_cfg1 (m : BitVec 3) (s : State) : (trackMode m s).cfg1 = s.cfg1 := rfl
@[simp] theorem trackMode_cfg2 (m : BitVec 3) (s : State) : (trackMode m s).cfg2 = s.cfg2 := rfl
@[simp] theorem trackMode_resp (m : BitVec 3) (s : State) : (trackMode m s).resp = s.resp := rfl
@[simp] theorem trackMode_err (m : BitVec 3) (s : State) : (trackMode m s).err = s.err := rfl
@[simp] theorem trackMode_rstN (m : BitVec 3) (s : State) : (trackMode m s).rstN = s.rstN := rfl
@[simp] theorem trackMode_history (m : BitVec 3) (s : State) : (trackMode m s).history = s.history := rfl
@[simp] theorem trackMode_svcErr (m : BitVec 3) (s : State) : (trackMode m s).svcErr = s.svcErr := rfl
@[simp] theorem trackMode_job (m : BitVec 3) (s : State) : (trackMode m s).job = s.job := rfl
@[simp] theorem trackMode_port (m : BitVec 3) (s : State) : (trackMode m s).port = s.port := rfl
@[simp] theorem trackMode_mhzIn (m : BitVec 3) (s : State) : (trackMode m s).mhzIn = s.mhzIn := rfl
@[simp] theorem trackMode_irqLine (m : BitVec 3) (s : State) : (trackMode m s).irqLine = s.irqLine := rfl
@[simp] theorem trackMode_inputs (m : BitVec 3) (s : State) : (trackMode m s).inputs = s.inputs := rfl
@[simp] theorem trackMode_answers (m : BitVec 3) (s : State) : (trackMode m s).answers = s.answers := rfl
@[simp] theorem trackMode_draws (m : BitVec 3) (s : State) : (trackMode m s).draws = s.draws := rfl
@[simp] theorem trackMode_grants (m : BitVec 3) (s : State) : (trackMode m s).grants = s.grants := rfl
@[simp] theorem trackMode_grantDraws (m : BitVec 3) (s : State) : (trackMode m s).grantDraws = s.grantDraws := rfl
@[simp] theorem trackMode_chip (m : BitVec 3) (s : State) : (trackMode m s).chip = s.chip := rfl

/-! `modeSet` moves the mode tracker and writes RESP.opmode (43_mode.md R191). -/

@[simp] theorem modeSet_cfg (m : BitVec 3) (s : State) : (modeSet m s).cfg = s.cfg := rfl
@[simp] theorem modeSet_phase (m : BitVec 3) (s : State) : (modeSet m s).phase = s.phase := rfl
@[simp] theorem modeSet_busy (m : BitVec 3) (s : State) : (modeSet m s).busy = s.busy := rfl
@[simp] theorem modeSet_owner (m : BitVec 3) (s : State) : (modeSet m s).owner = s.owner := rfl
@[simp] theorem modeSet_step (m : BitVec 3) (s : State) : (modeSet m s).step = s.step := rfl
@[simp] theorem modeSet_pend (m : BitVec 3) (s : State) : (modeSet m s).pend = s.pend := rfl
@[simp] theorem modeSet_modev (m : BitVec 3) (s : State) : (modeSet m s).modev = true := rfl
@[simp] theorem modeSet_mode (m : BitVec 3) (s : State) : (modeSet m s).mode = m := rfl
@[simp] theorem modeSet_irq (m : BitVec 3) (s : State) : (modeSet m s).irq = s.irq := rfl
@[simp] theorem modeSet_len (m : BitVec 3) (s : State) : (modeSet m s).len = s.len := rfl
@[simp] theorem modeSet_cur (m : BitVec 3) (s : State) : (modeSet m s).cur = s.cur := rfl
@[simp] theorem modeSet_cnt (m : BitVec 3) (s : State) : (modeSet m s).cnt = s.cnt := rfl
@[simp] theorem modeSet_buf (m : BitVec 3) (s : State) : (modeSet m s).buf = s.buf := rfl
@[simp] theorem modeSet_hdr (m : BitVec 3) (s : State) : (modeSet m s).hdr = s.hdr := rfl
@[simp] theorem modeSet_pay (m : BitVec 3) (s : State) : (modeSet m s).pay = s.pay := rfl
@[simp] theorem modeSet_tmp (m : BitVec 3) (s : State) : (modeSet m s).tmp = s.tmp := rfl
@[simp] theorem modeSet_hdrcnt (m : BitVec 3) (s : State) : (modeSet m s).hdrcnt = s.hdrcnt := rfl
@[simp] theorem modeSet_pktcnt (m : BitVec 3) (s : State) : (modeSet m s).pktcnt = s.pktcnt := rfl
@[simp] theorem modeSet_snrq (m : BitVec 3) (s : State) : (modeSet m s).snrq = s.snrq := rfl
@[simp] theorem modeSet_rssi (m : BitVec 3) (s : State) : (modeSet m s).rssi = s.rssi := rfl
@[simp] theorem modeSet_ver (m : BitVec 3) (s : State) : (modeSet m s).ver = s.ver := rfl
@[simp] theorem modeSet_frf (m : BitVec 3) (s : State) : (modeSet m s).frf = s.frf := rfl
@[simp] theorem modeSet_cfg1 (m : BitVec 3) (s : State) : (modeSet m s).cfg1 = s.cfg1 := rfl
@[simp] theorem modeSet_cfg2 (m : BitVec 3) (s : State) : (modeSet m s).cfg2 = s.cfg2 := rfl
@[simp] theorem modeSet_resp (m : BitVec 3) (s : State) : (modeSet m s).resp = ⟨.mode (modeByte s.cfg m), s.resp.err⟩ := rfl
@[simp] theorem modeSet_err (m : BitVec 3) (s : State) : (modeSet m s).err = s.err := rfl
@[simp] theorem modeSet_rstN (m : BitVec 3) (s : State) : (modeSet m s).rstN = s.rstN := rfl
@[simp] theorem modeSet_history (m : BitVec 3) (s : State) : (modeSet m s).history = s.history := rfl
@[simp] theorem modeSet_svcErr (m : BitVec 3) (s : State) : (modeSet m s).svcErr = s.svcErr := rfl
@[simp] theorem modeSet_job (m : BitVec 3) (s : State) : (modeSet m s).job = s.job := rfl
@[simp] theorem modeSet_port (m : BitVec 3) (s : State) : (modeSet m s).port = s.port := rfl
@[simp] theorem modeSet_mhzIn (m : BitVec 3) (s : State) : (modeSet m s).mhzIn = s.mhzIn := rfl
@[simp] theorem modeSet_irqLine (m : BitVec 3) (s : State) : (modeSet m s).irqLine = s.irqLine := rfl
@[simp] theorem modeSet_inputs (m : BitVec 3) (s : State) : (modeSet m s).inputs = s.inputs := rfl
@[simp] theorem modeSet_answers (m : BitVec 3) (s : State) : (modeSet m s).answers = s.answers := rfl
@[simp] theorem modeSet_draws (m : BitVec 3) (s : State) : (modeSet m s).draws = s.draws := rfl
@[simp] theorem modeSet_grants (m : BitVec 3) (s : State) : (modeSet m s).grants = s.grants := rfl
@[simp] theorem modeSet_grantDraws (m : BitVec 3) (s : State) : (modeSet m s).grantDraws = s.grantDraws := rfl
@[simp] theorem modeSet_chip (m : BitVec 3) (s : State) : (modeSet m s).chip = s.chip := rfl

/-! `loseMode` only clears MODEV (43_mode.md R191). -/

@[simp] theorem loseMode_cfg (s : State) : (loseMode s).cfg = s.cfg := rfl
@[simp] theorem loseMode_phase (s : State) : (loseMode s).phase = s.phase := rfl
@[simp] theorem loseMode_busy (s : State) : (loseMode s).busy = s.busy := rfl
@[simp] theorem loseMode_owner (s : State) : (loseMode s).owner = s.owner := rfl
@[simp] theorem loseMode_step (s : State) : (loseMode s).step = s.step := rfl
@[simp] theorem loseMode_pend (s : State) : (loseMode s).pend = s.pend := rfl
@[simp] theorem loseMode_modev (s : State) : (loseMode s).modev = false := rfl
@[simp] theorem loseMode_mode (s : State) : (loseMode s).mode = s.mode := rfl
@[simp] theorem loseMode_irq (s : State) : (loseMode s).irq = s.irq := rfl
@[simp] theorem loseMode_len (s : State) : (loseMode s).len = s.len := rfl
@[simp] theorem loseMode_cur (s : State) : (loseMode s).cur = s.cur := rfl
@[simp] theorem loseMode_cnt (s : State) : (loseMode s).cnt = s.cnt := rfl
@[simp] theorem loseMode_buf (s : State) : (loseMode s).buf = s.buf := rfl
@[simp] theorem loseMode_hdr (s : State) : (loseMode s).hdr = s.hdr := rfl
@[simp] theorem loseMode_pay (s : State) : (loseMode s).pay = s.pay := rfl
@[simp] theorem loseMode_tmp (s : State) : (loseMode s).tmp = s.tmp := rfl
@[simp] theorem loseMode_hdrcnt (s : State) : (loseMode s).hdrcnt = s.hdrcnt := rfl
@[simp] theorem loseMode_pktcnt (s : State) : (loseMode s).pktcnt = s.pktcnt := rfl
@[simp] theorem loseMode_snrq (s : State) : (loseMode s).snrq = s.snrq := rfl
@[simp] theorem loseMode_rssi (s : State) : (loseMode s).rssi = s.rssi := rfl
@[simp] theorem loseMode_ver (s : State) : (loseMode s).ver = s.ver := rfl
@[simp] theorem loseMode_frf (s : State) : (loseMode s).frf = s.frf := rfl
@[simp] theorem loseMode_cfg1 (s : State) : (loseMode s).cfg1 = s.cfg1 := rfl
@[simp] theorem loseMode_cfg2 (s : State) : (loseMode s).cfg2 = s.cfg2 := rfl
@[simp] theorem loseMode_resp (s : State) : (loseMode s).resp = s.resp := rfl
@[simp] theorem loseMode_err (s : State) : (loseMode s).err = s.err := rfl
@[simp] theorem loseMode_rstN (s : State) : (loseMode s).rstN = s.rstN := rfl
@[simp] theorem loseMode_history (s : State) : (loseMode s).history = s.history := rfl
@[simp] theorem loseMode_svcErr (s : State) : (loseMode s).svcErr = s.svcErr := rfl
@[simp] theorem loseMode_job (s : State) : (loseMode s).job = s.job := rfl
@[simp] theorem loseMode_port (s : State) : (loseMode s).port = s.port := rfl
@[simp] theorem loseMode_mhzIn (s : State) : (loseMode s).mhzIn = s.mhzIn := rfl
@[simp] theorem loseMode_irqLine (s : State) : (loseMode s).irqLine = s.irqLine := rfl
@[simp] theorem loseMode_inputs (s : State) : (loseMode s).inputs = s.inputs := rfl
@[simp] theorem loseMode_answers (s : State) : (loseMode s).answers = s.answers := rfl
@[simp] theorem loseMode_draws (s : State) : (loseMode s).draws = s.draws := rfl
@[simp] theorem loseMode_grants (s : State) : (loseMode s).grants = s.grants := rfl
@[simp] theorem loseMode_grantDraws (s : State) : (loseMode s).grantDraws = s.grantDraws := rfl
@[simp] theorem loseMode_chip (s : State) : (loseMode s).chip = s.chip := rfl

/-! SHUTDOWN (60_exceptions.md R292). -/

@[simp] theorem shutdown_cfg (s : State) : (shutdown s).cfg = s.cfg := rfl
@[simp] theorem shutdown_phase (s : State) : (shutdown s).phase = .halted := rfl
@[simp] theorem shutdown_busy (s : State) : (shutdown s).busy = false := rfl
@[simp] theorem shutdown_owner (s : State) : (shutdown s).owner = .command := rfl
@[simp] theorem shutdown_step (s : State) : (shutdown s).step = .none := rfl
@[simp] theorem shutdown_pend (s : State) : (shutdown s).pend = false := rfl
@[simp] theorem shutdown_modev (s : State) : (shutdown s).modev = s.modev := rfl
@[simp] theorem shutdown_mode (s : State) : (shutdown s).mode = s.mode := rfl
@[simp] theorem shutdown_irq (s : State) : (shutdown s).irq = s.irq := rfl
@[simp] theorem shutdown_len (s : State) : (shutdown s).len = s.len := rfl
@[simp] theorem shutdown_cur (s : State) : (shutdown s).cur = s.cur := rfl
@[simp] theorem shutdown_cnt (s : State) : (shutdown s).cnt = s.cnt := rfl
@[simp] theorem shutdown_buf (s : State) : (shutdown s).buf = s.buf := rfl
@[simp] theorem shutdown_hdr (s : State) : (shutdown s).hdr = s.hdr := rfl
@[simp] theorem shutdown_pay (s : State) : (shutdown s).pay = s.pay := rfl
@[simp] theorem shutdown_tmp (s : State) : (shutdown s).tmp = s.tmp := rfl
@[simp] theorem shutdown_hdrcnt (s : State) : (shutdown s).hdrcnt = s.hdrcnt := rfl
@[simp] theorem shutdown_pktcnt (s : State) : (shutdown s).pktcnt = s.pktcnt := rfl
@[simp] theorem shutdown_snrq (s : State) : (shutdown s).snrq = s.snrq := rfl
@[simp] theorem shutdown_rssi (s : State) : (shutdown s).rssi = s.rssi := rfl
@[simp] theorem shutdown_ver (s : State) : (shutdown s).ver = s.ver := rfl
@[simp] theorem shutdown_frf (s : State) : (shutdown s).frf = s.frf := rfl
@[simp] theorem shutdown_cfg1 (s : State) : (shutdown s).cfg1 = s.cfg1 := rfl
@[simp] theorem shutdown_cfg2 (s : State) : (shutdown s).cfg2 = s.cfg2 := rfl
@[simp] theorem shutdown_resp (s : State) : (shutdown s).resp = s.resp := rfl
@[simp] theorem shutdown_err (s : State) : (shutdown s).err = s.err := rfl
@[simp] theorem shutdown_rstN (s : State) : (shutdown s).rstN = false := rfl
@[simp] theorem shutdown_history (s : State) : (shutdown s).history = s.history ++ [.rst false] := rfl
@[simp] theorem shutdown_svcErr (s : State) : (shutdown s).svcErr = s.svcErr := rfl
@[simp] theorem shutdown_job (s : State) : (shutdown s).job = none := rfl
@[simp] theorem shutdown_port (s : State) : (shutdown s).port = s.port := rfl
@[simp] theorem shutdown_mhzIn (s : State) : (shutdown s).mhzIn = s.mhzIn := rfl
@[simp] theorem shutdown_irqLine (s : State) : (shutdown s).irqLine = s.irqLine := rfl
@[simp] theorem shutdown_inputs (s : State) : (shutdown s).inputs = s.inputs := rfl
@[simp] theorem shutdown_answers (s : State) : (shutdown s).answers = s.answers := rfl
@[simp] theorem shutdown_draws (s : State) : (shutdown s).draws = s.draws := rfl
@[simp] theorem shutdown_grants (s : State) : (shutdown s).grants = s.grants := rfl
@[simp] theorem shutdown_grantDraws (s : State) : (shutdown s).grantDraws = s.grantDraws := rfl
@[simp] theorem shutdown_chip (s : State) : (shutdown s).chip = s.chip := rfl

/-! The state after the envelope's opening. -/

@[simp] theorem opened_cfg (cw : CommandWord) (s : State) : (opened cw s).cfg = s.cfg := rfl
@[simp] theorem opened_phase (cw : CommandWord) (s : State) : (opened cw s).phase = s.phase := rfl
@[simp] theorem opened_busy (cw : CommandWord) (s : State) : (opened cw s).busy = true := rfl
@[simp] theorem opened_owner (cw : CommandWord) (s : State) : (opened cw s).owner = .command := rfl
@[simp] theorem opened_step (cw : CommandWord) (s : State) : (opened cw s).step = .cmd := rfl
@[simp] theorem opened_pend (cw : CommandWord) (s : State) : (opened cw s).pend = s.pend := rfl
@[simp] theorem opened_modev (cw : CommandWord) (s : State) : (opened cw s).modev = s.modev := rfl
@[simp] theorem opened_mode (cw : CommandWord) (s : State) : (opened cw s).mode = s.mode := rfl
@[simp] theorem opened_irq (cw : CommandWord) (s : State) : (opened cw s).irq = s.irq := rfl
@[simp] theorem opened_len (cw : CommandWord) (s : State) : (opened cw s).len = s.len := rfl
@[simp] theorem opened_cur (cw : CommandWord) (s : State) : (opened cw s).cur = s.cur := rfl
@[simp] theorem opened_cnt (cw : CommandWord) (s : State) : (opened cw s).cnt = s.cnt := rfl
@[simp] theorem opened_buf (cw : CommandWord) (s : State) : (opened cw s).buf = s.buf := rfl
@[simp] theorem opened_hdr (cw : CommandWord) (s : State) : (opened cw s).hdr = s.hdr := rfl
@[simp] theorem opened_pay (cw : CommandWord) (s : State) : (opened cw s).pay = s.pay := rfl
@[simp] theorem opened_tmp (cw : CommandWord) (s : State) : (opened cw s).tmp = s.tmp := rfl
@[simp] theorem opened_hdrcnt (cw : CommandWord) (s : State) : (opened cw s).hdrcnt = s.hdrcnt := rfl
@[simp] theorem opened_pktcnt (cw : CommandWord) (s : State) : (opened cw s).pktcnt = s.pktcnt := rfl
@[simp] theorem opened_snrq (cw : CommandWord) (s : State) : (opened cw s).snrq = s.snrq := rfl
@[simp] theorem opened_rssi (cw : CommandWord) (s : State) : (opened cw s).rssi = s.rssi := rfl
@[simp] theorem opened_ver (cw : CommandWord) (s : State) : (opened cw s).ver = s.ver := rfl
@[simp] theorem opened_frf (cw : CommandWord) (s : State) : (opened cw s).frf = s.frf := rfl
@[simp] theorem opened_cfg1 (cw : CommandWord) (s : State) : (opened cw s).cfg1 = s.cfg1 := rfl
@[simp] theorem opened_cfg2 (cw : CommandWord) (s : State) : (opened cw s).cfg2 = s.cfg2 := rfl
@[simp] theorem opened_resp (cw : CommandWord) (s : State) : (opened cw s).resp = ⟨.empty, Reg.unwritten 0⟩ := rfl
@[simp] theorem opened_err (cw : CommandWord) (s : State) : (opened cw s).err = s.err := rfl
@[simp] theorem opened_rstN (cw : CommandWord) (s : State) : (opened cw s).rstN = s.rstN := rfl
@[simp] theorem opened_history (cw : CommandWord) (s : State) : (opened cw s).history = s.history ++ [.cmd cw] := rfl
@[simp] theorem opened_svcErr (cw : CommandWord) (s : State) : (opened cw s).svcErr = s.svcErr := rfl
@[simp] theorem opened_job (cw : CommandWord) (s : State) : (opened cw s).job = s.job := rfl
@[simp] theorem opened_port (cw : CommandWord) (s : State) : (opened cw s).port = s.port := rfl
@[simp] theorem opened_mhzIn (cw : CommandWord) (s : State) : (opened cw s).mhzIn = s.mhzIn := rfl
@[simp] theorem opened_irqLine (cw : CommandWord) (s : State) : (opened cw s).irqLine = s.irqLine := rfl
@[simp] theorem opened_inputs (cw : CommandWord) (s : State) : (opened cw s).inputs = s.inputs := rfl
@[simp] theorem opened_answers (cw : CommandWord) (s : State) : (opened cw s).answers = s.answers := rfl
@[simp] theorem opened_draws (cw : CommandWord) (s : State) : (opened cw s).draws = s.draws := rfl
@[simp] theorem opened_grants (cw : CommandWord) (s : State) : (opened cw s).grants = s.grants := rfl
@[simp] theorem opened_grantDraws (cw : CommandWord) (s : State) : (opened cw s).grantDraws = s.grantDraws := rfl
@[simp] theorem opened_chip (cw : CommandWord) (s : State) : (opened cw s).chip = s.chip := rfl

/-! The state after a command without an error. -/

@[simp] theorem finished_cfg (r : RespResult) (s : State) : (finished r s).cfg = s.cfg := rfl
@[simp] theorem finished_phase (r : RespResult) (s : State) : (finished r s).phase = s.phase := rfl
@[simp] theorem finished_busy (r : RespResult) (s : State) : (finished r s).busy = false := rfl
@[simp] theorem finished_owner (r : RespResult) (s : State) : (finished r s).owner = .command := rfl
@[simp] theorem finished_step (r : RespResult) (s : State) : (finished r s).step = .none := rfl
@[simp] theorem finished_pend (r : RespResult) (s : State) : (finished r s).pend = s.pend := rfl
@[simp] theorem finished_modev (r : RespResult) (s : State) : (finished r s).modev = s.modev := rfl
@[simp] theorem finished_mode (r : RespResult) (s : State) : (finished r s).mode = s.mode := rfl
@[simp] theorem finished_irq (r : RespResult) (s : State) : (finished r s).irq = s.irq := rfl
@[simp] theorem finished_len (r : RespResult) (s : State) : (finished r s).len = s.len := rfl
@[simp] theorem finished_cur (r : RespResult) (s : State) : (finished r s).cur = s.cur := rfl
@[simp] theorem finished_cnt (r : RespResult) (s : State) : (finished r s).cnt = s.cnt := rfl
@[simp] theorem finished_buf (r : RespResult) (s : State) : (finished r s).buf = s.buf := rfl
@[simp] theorem finished_hdr (r : RespResult) (s : State) : (finished r s).hdr = s.hdr := rfl
@[simp] theorem finished_pay (r : RespResult) (s : State) : (finished r s).pay = s.pay := rfl
@[simp] theorem finished_tmp (r : RespResult) (s : State) : (finished r s).tmp = s.tmp := rfl
@[simp] theorem finished_hdrcnt (r : RespResult) (s : State) : (finished r s).hdrcnt = s.hdrcnt := rfl
@[simp] theorem finished_pktcnt (r : RespResult) (s : State) : (finished r s).pktcnt = s.pktcnt := rfl
@[simp] theorem finished_snrq (r : RespResult) (s : State) : (finished r s).snrq = s.snrq := rfl
@[simp] theorem finished_rssi (r : RespResult) (s : State) : (finished r s).rssi = s.rssi := rfl
@[simp] theorem finished_ver (r : RespResult) (s : State) : (finished r s).ver = s.ver := rfl
@[simp] theorem finished_frf (r : RespResult) (s : State) : (finished r s).frf = s.frf := rfl
@[simp] theorem finished_cfg1 (r : RespResult) (s : State) : (finished r s).cfg1 = s.cfg1 := rfl
@[simp] theorem finished_cfg2 (r : RespResult) (s : State) : (finished r s).cfg2 = s.cfg2 := rfl
@[simp] theorem finished_resp (r : RespResult) (s : State) : (finished r s).resp = ⟨r, Reg.holding 0⟩ := rfl
@[simp] theorem finished_err (r : RespResult) (s : State) : (finished r s).err = 0 := rfl
@[simp] theorem finished_rstN (r : RespResult) (s : State) : (finished r s).rstN = s.rstN := rfl
@[simp] theorem finished_history (r : RespResult) (s : State) : (finished r s).history = s.history := rfl
@[simp] theorem finished_svcErr (r : RespResult) (s : State) : (finished r s).svcErr = s.svcErr := rfl
@[simp] theorem finished_job (r : RespResult) (s : State) : (finished r s).job = none := rfl
@[simp] theorem finished_port (r : RespResult) (s : State) : (finished r s).port = s.port := rfl
@[simp] theorem finished_mhzIn (r : RespResult) (s : State) : (finished r s).mhzIn = s.mhzIn := rfl
@[simp] theorem finished_irqLine (r : RespResult) (s : State) : (finished r s).irqLine = s.irqLine := rfl
@[simp] theorem finished_inputs (r : RespResult) (s : State) : (finished r s).inputs = s.inputs := rfl
@[simp] theorem finished_answers (r : RespResult) (s : State) : (finished r s).answers = s.answers := rfl
@[simp] theorem finished_draws (r : RespResult) (s : State) : (finished r s).draws = s.draws := rfl
@[simp] theorem finished_grants (r : RespResult) (s : State) : (finished r s).grants = s.grants := rfl
@[simp] theorem finished_grantDraws (r : RespResult) (s : State) : (finished r s).grantDraws = s.grantDraws := rfl
@[simp] theorem finished_chip (r : RespResult) (s : State) : (finished r s).chip = s.chip := rfl

/-! The state after a command with an error. -/

@[simp] theorem failed_cfg (w : BitVec 32) (s : State) : (failed w s).cfg = s.cfg := rfl
@[simp] theorem failed_phase (w : BitVec 32) (s : State) : (failed w s).phase = s.phase := rfl
@[simp] theorem failed_busy (w : BitVec 32) (s : State) : (failed w s).busy = false := rfl
@[simp] theorem failed_owner (w : BitVec 32) (s : State) : (failed w s).owner = .command := rfl
@[simp] theorem failed_step (w : BitVec 32) (s : State) : (failed w s).step = .none := rfl
@[simp] theorem failed_pend (w : BitVec 32) (s : State) : (failed w s).pend = s.pend := rfl
@[simp] theorem failed_modev (w : BitVec 32) (s : State) : (failed w s).modev = s.modev := rfl
@[simp] theorem failed_mode (w : BitVec 32) (s : State) : (failed w s).mode = s.mode := rfl
@[simp] theorem failed_irq (w : BitVec 32) (s : State) : (failed w s).irq = s.irq := rfl
@[simp] theorem failed_len (w : BitVec 32) (s : State) : (failed w s).len = s.len := rfl
@[simp] theorem failed_cur (w : BitVec 32) (s : State) : (failed w s).cur = s.cur := rfl
@[simp] theorem failed_cnt (w : BitVec 32) (s : State) : (failed w s).cnt = s.cnt := rfl
@[simp] theorem failed_buf (w : BitVec 32) (s : State) : (failed w s).buf = s.buf := rfl
@[simp] theorem failed_hdr (w : BitVec 32) (s : State) : (failed w s).hdr = s.hdr := rfl
@[simp] theorem failed_pay (w : BitVec 32) (s : State) : (failed w s).pay = s.pay := rfl
@[simp] theorem failed_tmp (w : BitVec 32) (s : State) : (failed w s).tmp = s.tmp := rfl
@[simp] theorem failed_hdrcnt (w : BitVec 32) (s : State) : (failed w s).hdrcnt = s.hdrcnt := rfl
@[simp] theorem failed_pktcnt (w : BitVec 32) (s : State) : (failed w s).pktcnt = s.pktcnt := rfl
@[simp] theorem failed_snrq (w : BitVec 32) (s : State) : (failed w s).snrq = s.snrq := rfl
@[simp] theorem failed_rssi (w : BitVec 32) (s : State) : (failed w s).rssi = s.rssi := rfl
@[simp] theorem failed_ver (w : BitVec 32) (s : State) : (failed w s).ver = s.ver := rfl
@[simp] theorem failed_frf (w : BitVec 32) (s : State) : (failed w s).frf = s.frf := rfl
@[simp] theorem failed_cfg1 (w : BitVec 32) (s : State) : (failed w s).cfg1 = s.cfg1 := rfl
@[simp] theorem failed_cfg2 (w : BitVec 32) (s : State) : (failed w s).cfg2 = s.cfg2 := rfl
@[simp] theorem failed_resp (w : BitVec 32) (s : State) : (failed w s).resp = ⟨.empty, Reg.holding w⟩ := rfl
@[simp] theorem failed_err (w : BitVec 32) (s : State) : (failed w s).err = w := rfl
@[simp] theorem failed_rstN (w : BitVec 32) (s : State) : (failed w s).rstN = s.rstN := rfl
@[simp] theorem failed_history (w : BitVec 32) (s : State) : (failed w s).history = s.history ++ [.err w] := rfl
@[simp] theorem failed_svcErr (w : BitVec 32) (s : State) : (failed w s).svcErr = s.svcErr := rfl
@[simp] theorem failed_job (w : BitVec 32) (s : State) : (failed w s).job = none := rfl
@[simp] theorem failed_port (w : BitVec 32) (s : State) : (failed w s).port = s.port := rfl
@[simp] theorem failed_mhzIn (w : BitVec 32) (s : State) : (failed w s).mhzIn = s.mhzIn := rfl
@[simp] theorem failed_irqLine (w : BitVec 32) (s : State) : (failed w s).irqLine = s.irqLine := rfl
@[simp] theorem failed_inputs (w : BitVec 32) (s : State) : (failed w s).inputs = s.inputs := rfl
@[simp] theorem failed_answers (w : BitVec 32) (s : State) : (failed w s).answers = s.answers := rfl
@[simp] theorem failed_draws (w : BitVec 32) (s : State) : (failed w s).draws = s.draws := rfl
@[simp] theorem failed_grants (w : BitVec 32) (s : State) : (failed w s).grants = s.grants := rfl
@[simp] theorem failed_grantDraws (w : BitVec 32) (s : State) : (failed w s).grantDraws = s.grantDraws := rfl
@[simp] theorem failed_chip (w : BitVec 32) (s : State) : (failed w s).chip = s.chip := rfl

/-! The state with a command in progress. -/

@[simp] theorem withJob_cfg (k : JobKind) (fs : List Frame) (s : State) : (withJob k fs s).cfg = s.cfg := rfl
@[simp] theorem withJob_phase (k : JobKind) (fs : List Frame) (s : State) : (withJob k fs s).phase = s.phase := rfl
@[simp] theorem withJob_busy (k : JobKind) (fs : List Frame) (s : State) : (withJob k fs s).busy = s.busy := rfl
@[simp] theorem withJob_owner (k : JobKind) (fs : List Frame) (s : State) : (withJob k fs s).owner = s.owner := rfl
@[simp] theorem withJob_step (k : JobKind) (fs : List Frame) (s : State) : (withJob k fs s).step = s.step := rfl
@[simp] theorem withJob_pend (k : JobKind) (fs : List Frame) (s : State) : (withJob k fs s).pend = s.pend := rfl
@[simp] theorem withJob_modev (k : JobKind) (fs : List Frame) (s : State) : (withJob k fs s).modev = s.modev := rfl
@[simp] theorem withJob_mode (k : JobKind) (fs : List Frame) (s : State) : (withJob k fs s).mode = s.mode := rfl
@[simp] theorem withJob_irq (k : JobKind) (fs : List Frame) (s : State) : (withJob k fs s).irq = s.irq := rfl
@[simp] theorem withJob_len (k : JobKind) (fs : List Frame) (s : State) : (withJob k fs s).len = s.len := rfl
@[simp] theorem withJob_cur (k : JobKind) (fs : List Frame) (s : State) : (withJob k fs s).cur = s.cur := rfl
@[simp] theorem withJob_cnt (k : JobKind) (fs : List Frame) (s : State) : (withJob k fs s).cnt = s.cnt := rfl
@[simp] theorem withJob_buf (k : JobKind) (fs : List Frame) (s : State) : (withJob k fs s).buf = s.buf := rfl
@[simp] theorem withJob_hdr (k : JobKind) (fs : List Frame) (s : State) : (withJob k fs s).hdr = s.hdr := rfl
@[simp] theorem withJob_pay (k : JobKind) (fs : List Frame) (s : State) : (withJob k fs s).pay = s.pay := rfl
@[simp] theorem withJob_tmp (k : JobKind) (fs : List Frame) (s : State) : (withJob k fs s).tmp = s.tmp := rfl
@[simp] theorem withJob_hdrcnt (k : JobKind) (fs : List Frame) (s : State) : (withJob k fs s).hdrcnt = s.hdrcnt := rfl
@[simp] theorem withJob_pktcnt (k : JobKind) (fs : List Frame) (s : State) : (withJob k fs s).pktcnt = s.pktcnt := rfl
@[simp] theorem withJob_snrq (k : JobKind) (fs : List Frame) (s : State) : (withJob k fs s).snrq = s.snrq := rfl
@[simp] theorem withJob_rssi (k : JobKind) (fs : List Frame) (s : State) : (withJob k fs s).rssi = s.rssi := rfl
@[simp] theorem withJob_ver (k : JobKind) (fs : List Frame) (s : State) : (withJob k fs s).ver = s.ver := rfl
@[simp] theorem withJob_frf (k : JobKind) (fs : List Frame) (s : State) : (withJob k fs s).frf = s.frf := rfl
@[simp] theorem withJob_cfg1 (k : JobKind) (fs : List Frame) (s : State) : (withJob k fs s).cfg1 = s.cfg1 := rfl
@[simp] theorem withJob_cfg2 (k : JobKind) (fs : List Frame) (s : State) : (withJob k fs s).cfg2 = s.cfg2 := rfl
@[simp] theorem withJob_resp (k : JobKind) (fs : List Frame) (s : State) : (withJob k fs s).resp = s.resp := rfl
@[simp] theorem withJob_err (k : JobKind) (fs : List Frame) (s : State) : (withJob k fs s).err = s.err := rfl
@[simp] theorem withJob_rstN (k : JobKind) (fs : List Frame) (s : State) : (withJob k fs s).rstN = s.rstN := rfl
@[simp] theorem withJob_history (k : JobKind) (fs : List Frame) (s : State) : (withJob k fs s).history = s.history := rfl
@[simp] theorem withJob_svcErr (k : JobKind) (fs : List Frame) (s : State) : (withJob k fs s).svcErr = s.svcErr := rfl
@[simp] theorem withJob_job (k : JobKind) (fs : List Frame) (s : State) : (withJob k fs s).job = some ⟨k, fs, []⟩ := rfl
@[simp] theorem withJob_port (k : JobKind) (fs : List Frame) (s : State) : (withJob k fs s).port = s.port := rfl
@[simp] theorem withJob_mhzIn (k : JobKind) (fs : List Frame) (s : State) : (withJob k fs s).mhzIn = s.mhzIn := rfl
@[simp] theorem withJob_irqLine (k : JobKind) (fs : List Frame) (s : State) : (withJob k fs s).irqLine = s.irqLine := rfl
@[simp] theorem withJob_inputs (k : JobKind) (fs : List Frame) (s : State) : (withJob k fs s).inputs = s.inputs := rfl
@[simp] theorem withJob_answers (k : JobKind) (fs : List Frame) (s : State) : (withJob k fs s).answers = s.answers := rfl
@[simp] theorem withJob_draws (k : JobKind) (fs : List Frame) (s : State) : (withJob k fs s).draws = s.draws := rfl
@[simp] theorem withJob_grants (k : JobKind) (fs : List Frame) (s : State) : (withJob k fs s).grants = s.grants := rfl
@[simp] theorem withJob_grantDraws (k : JobKind) (fs : List Frame) (s : State) : (withJob k fs s).grantDraws = s.grantDraws := rfl
@[simp] theorem withJob_chip (k : JobKind) (fs : List Frame) (s : State) : (withJob k fs s).chip = s.chip := rfl

/-! The state after some frames were exchanged and answered. -/

@[simp] theorem afterFrames_cfg (fs : List Frame) (as rest : List Answer) (s : State) : (afterFrames fs as rest s).cfg = s.cfg := rfl
@[simp] theorem afterFrames_phase (fs : List Frame) (as rest : List Answer) (s : State) : (afterFrames fs as rest s).phase = s.phase := rfl
@[simp] theorem afterFrames_busy (fs : List Frame) (as rest : List Answer) (s : State) : (afterFrames fs as rest s).busy = s.busy := rfl
@[simp] theorem afterFrames_owner (fs : List Frame) (as rest : List Answer) (s : State) : (afterFrames fs as rest s).owner = s.owner := rfl
@[simp] theorem afterFrames_step (fs : List Frame) (as rest : List Answer) (s : State) : (afterFrames fs as rest s).step = s.step := rfl
@[simp] theorem afterFrames_pend (fs : List Frame) (as rest : List Answer) (s : State) : (afterFrames fs as rest s).pend = s.pend := rfl
@[simp] theorem afterFrames_modev (fs : List Frame) (as rest : List Answer) (s : State) : (afterFrames fs as rest s).modev = s.modev := rfl
@[simp] theorem afterFrames_mode (fs : List Frame) (as rest : List Answer) (s : State) : (afterFrames fs as rest s).mode = s.mode := rfl
@[simp] theorem afterFrames_irq (fs : List Frame) (as rest : List Answer) (s : State) : (afterFrames fs as rest s).irq = s.irq := rfl
@[simp] theorem afterFrames_len (fs : List Frame) (as rest : List Answer) (s : State) : (afterFrames fs as rest s).len = s.len := rfl
@[simp] theorem afterFrames_cur (fs : List Frame) (as rest : List Answer) (s : State) : (afterFrames fs as rest s).cur = s.cur := rfl
@[simp] theorem afterFrames_cnt (fs : List Frame) (as rest : List Answer) (s : State) : (afterFrames fs as rest s).cnt = s.cnt := rfl
@[simp] theorem afterFrames_buf (fs : List Frame) (as rest : List Answer) (s : State) : (afterFrames fs as rest s).buf = s.buf := rfl
@[simp] theorem afterFrames_hdr (fs : List Frame) (as rest : List Answer) (s : State) : (afterFrames fs as rest s).hdr = s.hdr := rfl
@[simp] theorem afterFrames_pay (fs : List Frame) (as rest : List Answer) (s : State) : (afterFrames fs as rest s).pay = s.pay := rfl
@[simp] theorem afterFrames_tmp (fs : List Frame) (as rest : List Answer) (s : State) : (afterFrames fs as rest s).tmp = s.tmp := rfl
@[simp] theorem afterFrames_hdrcnt (fs : List Frame) (as rest : List Answer) (s : State) : (afterFrames fs as rest s).hdrcnt = s.hdrcnt := rfl
@[simp] theorem afterFrames_pktcnt (fs : List Frame) (as rest : List Answer) (s : State) : (afterFrames fs as rest s).pktcnt = s.pktcnt := rfl
@[simp] theorem afterFrames_snrq (fs : List Frame) (as rest : List Answer) (s : State) : (afterFrames fs as rest s).snrq = s.snrq := rfl
@[simp] theorem afterFrames_rssi (fs : List Frame) (as rest : List Answer) (s : State) : (afterFrames fs as rest s).rssi = s.rssi := rfl
@[simp] theorem afterFrames_ver (fs : List Frame) (as rest : List Answer) (s : State) : (afterFrames fs as rest s).ver = s.ver := rfl
@[simp] theorem afterFrames_frf (fs : List Frame) (as rest : List Answer) (s : State) : (afterFrames fs as rest s).frf = s.frf := rfl
@[simp] theorem afterFrames_cfg1 (fs : List Frame) (as rest : List Answer) (s : State) : (afterFrames fs as rest s).cfg1 = s.cfg1 := rfl
@[simp] theorem afterFrames_cfg2 (fs : List Frame) (as rest : List Answer) (s : State) : (afterFrames fs as rest s).cfg2 = s.cfg2 := rfl
@[simp] theorem afterFrames_resp (fs : List Frame) (as rest : List Answer) (s : State) : (afterFrames fs as rest s).resp = s.resp := rfl
@[simp] theorem afterFrames_err (fs : List Frame) (as rest : List Answer) (s : State) : (afterFrames fs as rest s).err = s.err := rfl
@[simp] theorem afterFrames_rstN (fs : List Frame) (as rest : List Answer) (s : State) : (afterFrames fs as rest s).rstN = s.rstN := rfl
@[simp] theorem afterFrames_history (fs : List Frame) (as rest : List Answer) (s : State) : (afterFrames fs as rest s).history = s.history ++ List.zipWith busEvent fs as := rfl
@[simp] theorem afterFrames_svcErr (fs : List Frame) (as rest : List Answer) (s : State) : (afterFrames fs as rest s).svcErr = s.svcErr := rfl
@[simp] theorem afterFrames_job (fs : List Frame) (as rest : List Answer) (s : State) : (afterFrames fs as rest s).job = s.job := rfl
@[simp] theorem afterFrames_port (fs : List Frame) (as rest : List Answer) (s : State) : (afterFrames fs as rest s).port = s.port := rfl
@[simp] theorem afterFrames_mhzIn (fs : List Frame) (as rest : List Answer) (s : State) : (afterFrames fs as rest s).mhzIn = s.mhzIn := rfl
@[simp] theorem afterFrames_irqLine (fs : List Frame) (as rest : List Answer) (s : State) : (afterFrames fs as rest s).irqLine = s.irqLine := rfl
@[simp] theorem afterFrames_inputs (fs : List Frame) (as rest : List Answer) (s : State) : (afterFrames fs as rest s).inputs = s.inputs := rfl
@[simp] theorem afterFrames_answers (fs : List Frame) (as rest : List Answer) (s : State) : (afterFrames fs as rest s).answers = rest := rfl
@[simp] theorem afterFrames_draws (fs : List Frame) (as rest : List Answer) (s : State) : (afterFrames fs as rest s).draws = s.draws := rfl
@[simp] theorem afterFrames_grants (fs : List Frame) (as rest : List Answer) (s : State) : (afterFrames fs as rest s).grants = s.grants := rfl
@[simp] theorem afterFrames_grantDraws (fs : List Frame) (as rest : List Answer) (s : State) : (afterFrames fs as rest s).grantDraws = s.grantDraws := rfl
@[simp] theorem afterFrames_chip (fs : List Frame) (as rest : List Answer) (s : State) : (afterFrames fs as rest s).chip = s.chip := rfl

end Sys2Proof.Machine
end

