-- ==== Sys2Proof/Laws/Ops.lean ====
section
/-! SUPPORT. One lemma for each shared operation, saying everything it can do: the transaction, raising an error, the command
envelope, the command in progress, and the unwritten-register check. Later proofs cite these and unfold no operation. -/
namespace Sys2Proof.Machine

/-! ## Addresses and codes by name (10_state.md R40, R41) -/

@[simp] theorem addrOf_fifo (p : Params) : addrOf p .fifo = p.regAddr.fifo := rfl
@[simp] theorem addrOf_opMode (p : Params) : addrOf p .opMode = p.regAddr.opMode := rfl
@[simp] theorem addrOf_frfMsb (p : Params) : addrOf p .frfMsb = p.regAddr.frfMsb := rfl
@[simp] theorem addrOf_frfMid (p : Params) : addrOf p .frfMid = p.regAddr.frfMid := rfl
@[simp] theorem addrOf_frfLsb (p : Params) : addrOf p .frfLsb = p.regAddr.frfLsb := rfl
@[simp] theorem addrOf_fifoAddrPtr (p : Params) : addrOf p .fifoAddrPtr = p.regAddr.fifoAddrPtr := rfl
@[simp] theorem addrOf_fifoTxBase (p : Params) : addrOf p .fifoTxBase = p.regAddr.fifoTxBase := rfl
@[simp] theorem addrOf_fifoRxBase (p : Params) : addrOf p .fifoRxBase = p.regAddr.fifoRxBase := rfl
@[simp] theorem addrOf_fifoRxCur (p : Params) : addrOf p .fifoRxCur = p.regAddr.fifoRxCur := rfl
@[simp] theorem addrOf_irqFlags (p : Params) : addrOf p .irqFlags = p.regAddr.irqFlags := rfl
@[simp] theorem addrOf_rxNbBytes (p : Params) : addrOf p .rxNbBytes = p.regAddr.rxNbBytes := rfl
@[simp] theorem addrOf_hdrCntMsb (p : Params) : addrOf p .hdrCntMsb = p.regAddr.hdrCntMsb := rfl
@[simp] theorem addrOf_hdrCntLsb (p : Params) : addrOf p .hdrCntLsb = p.regAddr.hdrCntLsb := rfl
@[simp] theorem addrOf_pktCntMsb (p : Params) : addrOf p .pktCntMsb = p.regAddr.pktCntMsb := rfl
@[simp] theorem addrOf_pktCntLsb (p : Params) : addrOf p .pktCntLsb = p.regAddr.pktCntLsb := rfl
@[simp] theorem addrOf_pktSnr (p : Params) : addrOf p .pktSnr = p.regAddr.pktSnr := rfl
@[simp] theorem addrOf_pktRssi (p : Params) : addrOf p .pktRssi = p.regAddr.pktRssi := rfl
@[simp] theorem addrOf_modemCfg1 (p : Params) : addrOf p .modemCfg1 = p.regAddr.modemCfg1 := rfl
@[simp] theorem addrOf_modemCfg2 (p : Params) : addrOf p .modemCfg2 = p.regAddr.modemCfg2 := rfl
@[simp] theorem addrOf_version (p : Params) : addrOf p .version = p.regAddr.version := rfl
@[simp] theorem modeCodeOf_sleep (p : Params) : modeCodeOf p .sleep = p.modeCode.sleep := rfl
@[simp] theorem modeCodeOf_standby (p : Params) : modeCodeOf p .standby = p.modeCode.standby := rfl
@[simp] theorem modeCodeOf_receiveContinuous (p : Params) : modeCodeOf p .receiveContinuous = p.modeCode.receiveContinuous := rfl
@[simp] theorem modeFrame_eq (p : Params) (m : BitVec 3) :
    modeFrame p m = .write p.regAddr.opMode (p.loraFlag ||| m.setWidth 8) := rfl

/-! ## The transaction -/

/-- A listed answer is the transaction's answer, and only the list moves (20_memory.md R60). -/
theorem xfer_listed {f : Frame} {s : State} {a : Answer} {rest : List Answer} (h : s.answers = a :: rest) :
    xfer f s = (a, { s with answers := rest }) := by
  simp [xfer, h]

/-- Whatever answers, a transaction's draw moves only the sources of answers (20_memory.md R60). -/
theorem xfer_moves (f : Frame) (s : State) :
    ∃ as d c, (xfer f s).2 = { s with answers := as, draws := d, chip := c } := by
  unfold xfer
  split
  · exact ⟨_, s.draws, s.chip, rfl⟩
  · split
    · exact ⟨s.answers, s.draws, _, rfl⟩
    · exact ⟨s.answers, _, s.chip, rfl⟩

/-- Without listed answers, an attached reference chip answers and steps (20_memory.md R75). -/
theorem xfer_chip {f : Frame} {s : State} {c : RefChip} (h : s.answers = []) (hc : s.chip = some c) :
    xfer f s = ((c.answer s.cfg f).1, { s with chip := some (c.answer s.cfg f).2 }) := by
  simp [xfer, h, hc]

/-- The chip after a draw: the one attached before, stepped or not. -/
theorem xfer_chip_cases (f : Frame) (s : State) :
    (xfer f s).2.chip = s.chip ∨ ∃ c, s.chip = some c ∧ (xfer f s).2.chip = some (c.exchange s.cfg f).2 := by
  unfold xfer
  split
  · exact .inl rfl
  · split
    · rename_i c hc
      exact .inr ⟨c, hc, rfl⟩
    · exact .inl rfl

/-- An answer is good exactly when its length is 2 and it holds two bytes (40_register_access.md R133). -/
theorem answerGood_iff (a : Answer) : answerGood a = true ↔ a.length = 2 ∧ a.bytes.length = 2 := by
  simp [answerGood]

/-- The bytes of a good answer. -/
theorem answerGood_bytes {a : Answer} (h : answerGood a = true) : ∃ b0, a = ⟨2, [b0, answerData a]⟩ := by
  obtain ⟨hl, hb⟩ := (answerGood_iff a).1 h
  obtain ⟨n, bs⟩ := a
  match bs, hb with
  | [x, y], _ => exact ⟨x, by simp_all [answerData]⟩

/-! ## Errors -/

/-- An error of the command port ends the command (60_exceptions.md R271). -/
theorem raiseError_command {s : State} (h : s.owner = .command) (c : ErrCode) (a : Addr) (x : Byte) :
    raiseError c a x s = completeCommand .empty ⟨c, false, s.step, a, x⟩ s := by
  simp [raiseError, h]

/-- An error of a service is recorded, and S8_ACK comes next (45_rx_sequencer.md R239). -/
theorem raiseError_service {s : State} (h : s.owner = .service) (c : ErrCode) (a : Addr) (x : Byte) :
    raiseError c a x s = { s with svcErr := ⟨c, false, s.step, a, x⟩, step := .s8Ack } := by
  simp [raiseError, h]

/-- The empty error record packs to the ERR word 0 (10_state.md R31). -/
@[simp] theorem errWord_clear : errWord ErrRec.clear = 0#32 := by decide

/-- CODE stands in the low bits of the ERR word, so a record with a cause never packs to 0 (10_state.md R31). -/
theorem errWord_ne_zero {e : ErrRec} (h : e.code ≠ .none) : errWord e ≠ 0#32 := by
  intro hw
  have hc : (errWord e).extractLsb' 0 3 = e.code.code := by
    unfold errWord; grind
  rw [hw] at hc
  revert h hc
  cases e.code <;> decide

/-- A command without an error: ERR is 0 and no ERR event is emitted (60_exceptions.md R276). -/
theorem succeed_eq (r : RespResult) (s : State) : succeed r s = finished r s := by
  simp [succeed, completeCommand, unlock, writeErr, finished]

/-- A command with an error: ERR holds its word and the ERR event is emitted (60_exceptions.md R276). -/
theorem completeCommand_error {e : ErrRec} (h : e.code ≠ .none) (s : State) :
    completeCommand .empty e s = failed (errWord e) s := by
  simp [completeCommand, unlock, writeErr, errWord_ne_zero h, failed]

/-- An error of the command port: the command fails with the STEP it was at (60_exceptions.md R271). -/
theorem raiseError_failed {s : State} (h : s.owner = .command) {c : ErrCode} (hc : c ≠ .none) (a : Addr) (x : Byte) :
    raiseError c a x s = failed (errWord ⟨c, false, s.step, a, x⟩) s := by
  rw [raiseError_command h, completeCommand_error hc]

/-- The envelope's opening, field by field (60_exceptions.md R276). -/
theorem openCommand_eq (cw : CommandWord) (s : State) : openCommand cw s = opened cw s := rfl

/-! ## The command envelope -/

/-- While BUSY = 1 the port holds (60_exceptions.md R276). -/
theorem accept_busy {s : State} (h : s.busy = true) (i : Instr) (f : State → State) : accept i f s = .next s := by
  simp [accept, h]

/-- A reserved operand raises ILLEGAL (30_encoding.md R99). -/
theorem accept_illegal {i : Instr} {s : State} (hb : s.busy = false) (h : i.wellFormed s.cfg = false) (f : State → State) :
    accept i f s = .next (raiseError .illegal 0 (opAux (encodeCommand i)) (openCommand (encodeCommand i) s)) := by
  simp [accept, hb, h]

/-- A bus command in HALTED raises NOT_PERMITTED (30_encoding.md R99). -/
theorem accept_notPermitted {i : Instr} {s : State} (hb : s.busy = false) (h : i.wellFormed s.cfg = true)
    (hu : usesBus i = true) (hp : s.phase = .halted) (f : State → State) :
    accept i f s = .next (raiseError .notPermitted 0 (opAux (encodeCommand i)) (openCommand (encodeCommand i) s)) := by
  simp [accept, hb, h, hu, hp]

/-- A well-formed command that the phase permits runs its rule (60_exceptions.md R276). -/
theorem accept_performs {i : Instr} {s : State} (hb : s.busy = false) (h : i.wellFormed s.cfg = true)
    (hu : usesBus i = true → s.phase ≠ .halted) (f : State → State) :
    accept i f s = .next (f (openCommand (encodeCommand i) s)) := by
  simp only [accept, hb, h]
  split <;> simp_all

/-- Everything the envelope can answer. -/
theorem accept_cases {i : Instr} {f : State → State} {s t : State} (h : accept i f s = .next t) :
    (s.busy = true ∧ t = s) ∨
    (s.busy = false ∧ ∃ c, c ≠ ErrCode.none ∧
      t = raiseError c 0 (opAux (encodeCommand i)) (openCommand (encodeCommand i) s)) ∨
    (s.busy = false ∧ i.wellFormed s.cfg = true ∧ (usesBus i = true → s.phase ≠ .halted) ∧
      t = f (openCommand (encodeCommand i) s)) := by
  unfold accept at h
  split at h
  · rename_i hb; cases h; exact .inl ⟨hb, rfl⟩
  · rename_i hb
    refine .inr ?_
    split at h
    · cases h; exact .inl ⟨by simpa using hb, .illegal, by decide, rfl⟩
    · split at h
      · cases h; exact .inl ⟨by simpa using hb, .notPermitted, by decide, rfl⟩
      · cases h; refine .inr ⟨by simpa using hb, by simp_all, ?_, rfl⟩; simp_all

/-! ## The command in progress -/

/-- A command with a transaction to make waits for it (60_exceptions.md R276, 92 D1). -/
@[simp] theorem startJob_cons (k : JobKind) (f : Frame) (fs : List Frame) (s : State) :
    startJob k (f :: fs) s = withJob k (f :: fs) s := rfl

/-- A burst of no reads completes at once (40_register_access.md R132). -/
@[simp] theorem startJob_nil (k : JobKind) (s : State) : startJob k [] s = finished (.brd []) s := succeed_eq _ s

/-- A good answer before the last: the next transaction follows (40_register_access.md R132). -/
theorem jobTakes_more {s : State} {k : JobKind} {f g : Frame} {fs : List Frame} {got : List Byte}
    (h : s.job = some ⟨k, f :: g :: fs, got⟩) (d : Byte) :
    jobTakes d s = { s with job := some ⟨k, g :: fs, got ++ [d]⟩ } := by
  simp [jobTakes, h]

/-- A good answer to the last transaction completes the command (40_register_access.md R130 to R132, 43_mode.md R191). -/
theorem jobTakes_last {s : State} {k : JobKind} {f : Frame} {got : List Byte}
    (h : s.job = some ⟨k, [f], got⟩) (d : Byte) :
    jobTakes d s = finished (jobResult s.cfg k (got ++ [d]) d) (jobTracks k s) := by
  simp [jobTakes, h, succeed_eq]

/-- A TransportError ends the command (60_exceptions.md R271). -/
theorem jobFails_some {s : State} {j : Job} (h : s.job = some j) (a : Addr) (x : Byte) :
    jobFails a x s = raiseError .transport a x (jobLoses j.kind s) := by
  simp [jobFails, h]

/-- Only MODE moves the tracker (43_mode.md R191). -/
theorem jobTracks_moves (k : JobKind) (s : State) : ∃ v m, jobTracks k s = { s with modev := v, mode := m } := by
  cases k <;> first | exact ⟨s.modev, s.mode, rfl⟩ | exact ⟨_, _, rfl⟩

/-- Only a failed MODE moves MODEV (43_mode.md R191). -/
theorem jobLoses_moves (k : JobKind) (s : State) : ∃ v, jobLoses k s = { s with modev := v } := by
  cases k <;> first | exact ⟨s.modev, rfl⟩ | exact ⟨_, rfl⟩

/-! ## The unwritten-register check -/

/-- With every register the step reads written, the check passes (00_scope.md R11). -/
theorem unlessUnwritten_written {s : State} (h : ∀ r ∈ stepReads s.step, isWritten s r = true) (t : State) :
    unlessUnwritten s t = .next t := by
  have : firstUnwritten s = none := by
    simp [firstUnwritten, List.find?_eq_none]
    exact h
  simp [unlessUnwritten, this]

/-- A step that passes the check answers the state given (00_scope.md R11). -/
theorem unlessUnwritten_next {s t u : State} (h : unlessUnwritten s t = .next u) :
    u = t ∧ ∀ r ∈ stepReads s.step, isWritten s r = true := by
  unfold unlessUnwritten at h
  split at h
  · cases h
  · rename_i hn
    cases h
    refine ⟨rfl, ?_⟩
    simpa [firstUnwritten, List.find?_eq_none] using hn

end Sys2Proof.Machine
end

