-- ==== Sys2Proof/Laws/Step.lean ====
section
/-! SUPPORT. What one step does: a frame with a listed answer, the two answers a frame can have, and the inversion of the step,
which says once everything a step can be. -/
namespace Sys2Proof.Machine

/-- A frame with a listed answer: the answer is taken and its BUS event emitted; then the current step takes the byte, or the
TransportError (40_register_access.md R133). -/
theorem performFrame_listed {s : State} {a : Answer} {rest : List Answer} (h : s.answers = a :: rest) (f : Frame) :
    performFrame f s =
      if answerGood a then takeData (answerData a) (afterFrames [f] [a] rest s)
      else takeError f.addr (answerAux a) (afterFrames [f] [a] rest s) := by
  simp [performFrame, exchange, xfer_listed h, emit, afterFrames, busEvent]

/-- The frame of a step is exchanged by the meaning of its row of the opcode table. -/
theorem exec_frame (f : Frame) (s : State) : exec f.instr s = unlessUnwritten s (performFrame f s) := by
  cases f <;> rfl

/-- The address of a frame (30_encoding.md R90). -/
@[simp] theorem frame_addr_read (a : Addr) : (Frame.read a).addr = a := by
  simp only [Frame.addr, Frame.b0]
  apply BitVec.eq_of_getLsbD_eq
  intro i hi
  interval_cases i <;> simp

/-- The address of a frame (30_encoding.md R90). -/
@[simp] theorem frame_addr_write (a : Addr) (v : Byte) : (Frame.write a v).addr = a := by
  simp only [Frame.addr, Frame.b0]
  apply BitVec.eq_of_getLsbD_eq
  intro i hi
  interval_cases i <;> simp

/-- With the lock held and no input due, the step is the sequencer's. -/
theorem step_busy {s : State} (hb : s.busy = true) (hi : s.inputs = []) : step s = sequencerStep s := by
  simp [step, nextStep, hi, ownStep, hb]

/-- With the lock free and no input due, the step is the arbiter's. -/
theorem step_free {s : State} (hb : s.busy = false) (hi : s.inputs = []) : step s = freeStep s := by
  simp [step, nextStep, hi, ownStep, hb]

/-- A step whose frame has a listed answer (45_rx_sequencer.md R238, 40_register_access.md R133). -/
theorem step_listed {s : State} {f : Frame} {a : Answer} {rest : List Answer} (hb : s.busy = true) (hi : s.inputs = [])
    (hf : selectFrame s = some f) (hr : ∀ r ∈ stepReads s.step, isWritten s r = true) (h : s.answers = a :: rest) :
    step s = .next
      (if answerGood a then takeData (answerData a) (afterFrames [f] [a] rest s)
      else takeError f.addr (answerAux a) (afterFrames [f] [a] rest s)) := by
  rw [step_busy hb hi, sequencerStep, hf]
  simp only [exec_frame]
  rw [unlessUnwritten_written hr, performFrame_listed h]

/-- A step without a transaction. -/
theorem step_internal {s : State} (hb : s.busy = true) (hi : s.inputs = []) (hf : selectFrame s = none)
    (hr : ∀ r ∈ stepReads s.step, isWritten s r = true) : step s = .next (internalStep s) := by
  rw [step_busy hb hi, sequencerStep, hf]
  simp only [unlessUnwritten_written hr]

/-- An exchange moves only the sources of answers and the history, which gets the frame's BUS event (20_memory.md R60). -/
theorem exchange_cases (f : Frame) (s : State) :
    ∃ as d c l bs, (c = s.chip ∨ ∃ c', s.chip = some c' ∧ c = some (c'.exchange s.cfg f).2) ∧
      (exchange f s).2 = { s with answers := as, draws := d, chip := c, history := s.history ++ [.bus f.b0 f.b1 l bs] } := by
  obtain ⟨as, d, c, h⟩ := xfer_moves f s
  have hc := xfer_chip_cases f s
  exact ⟨as, d, c, (xfer f s).1.length, (xfer f s).1.bytes, by simpa [h] using hc, by simp only [exchange, emit, h]⟩

/-- An exchange with a listed answer. -/
theorem exchange_listed {s : State} {a : Answer} {rest : List Answer} (h : s.answers = a :: rest) (f : Frame) :
    exchange f s = (a, afterFrames [f] [a] rest s) := by
  simp [exchange, xfer_listed h, emit, afterFrames, busEvent]

/-- What a frame does, whatever answers: only the sources of answers and the history move before the current step takes the
byte or the TransportError (40_register_access.md R133). -/
theorem performFrame_cases (f : Frame) (s : State) :
    ∃ as d c l bs, (c = s.chip ∨ ∃ c', s.chip = some c' ∧ c = some (c'.exchange s.cfg f).2) ∧
      ((∃ b, performFrame f s = takeData b
          { s with answers := as, draws := d, chip := c, history := s.history ++ [.bus f.b0 f.b1 l bs] }) ∨
       (∃ x, performFrame f s = takeError f.addr x
          { s with answers := as, draws := d, chip := c, history := s.history ++ [.bus f.b0 f.b1 l bs] })) := by
  obtain ⟨as, d, c, l, bs, hc, h⟩ := exchange_cases f s
  refine ⟨as, d, c, l, bs, hc, ?_⟩
  unfold performFrame
  split
  · exact .inl ⟨_, by rw [h]⟩
  · exact .inr ⟨_, by rw [h]⟩

/-- With a transaction in flight, SHUTDOWN completes it and abandons the rest (60_exceptions.md R292). -/
theorem step_shutdownInFlight {s : State} {rest : List Input} {f : Frame} (hi : s.inputs = .shutdownInFlight :: rest)
    (hb : s.busy = true) (hf : selectFrame s = some f) (hr : ∀ r ∈ stepReads s.step, isWritten s r = true) :
    step s = .next (shutdown (exchange f { s with inputs := rest }).2) := by
  have hf' : inFlight { s with inputs := rest } = some f := by rw [inFlight, if_pos hb]; exact hf
  simp only [step, nextStep, hi, shutdownDuring, hf']
  exact unlessUnwritten_written (s := { s with inputs := rest }) hr _

/-- Without one, SHUTDOWN takes effect at once. -/
theorem step_shutdownAtRest {s : State} {rest : List Input} (hi : s.inputs = .shutdownInFlight :: rest)
    (hf : ∀ f, ¬ (s.busy = true ∧ selectFrame s = some f)) : step s = .next (shutdown { s with inputs := rest }) := by
  have hf' : inFlight { s with inputs := rest } = none := by
    unfold inFlight
    split
    · rename_i hb
      exact Option.eq_none_iff_forall_ne_some.2 fun f h => hf f ⟨hb, h⟩
    · rfl
  simp only [step, nextStep, hi, shutdownDuring, hf', takeInput]

/-- Everything a step can be: an input event, the sequencer's frame, its work without a transaction, a service's start, a
command's acceptance, or a quiescent wait; or SHUTDOWN with a transaction in flight. The state `r` is `s` with a due quiet slot
taken. -/
theorem step_cases {s t : State} (h : step s = .next t) :
    (∃ e rest, s.inputs = e :: rest ∧ e ≠ .quiet ∧ t = takeInput e { s with inputs := rest }) ∨
    (∃ f rest, s.inputs = .shutdownInFlight :: rest ∧ s.busy = true ∧ selectFrame s = some f ∧
      (∀ x ∈ stepReads s.step, isWritten s x = true) ∧ t = shutdown (exchange f { s with inputs := rest }).2) ∨
    ∃ r, (r = s ∧ s.inputs = [] ∨ ∃ rest, s.inputs = .quiet :: rest ∧ r = { s with inputs := rest }) ∧
      ((∃ f, r.busy = true ∧ selectFrame r = some f ∧ (∀ x ∈ stepReads r.step, isWritten r x = true) ∧
          t = performFrame f r) ∨
       (r.busy = true ∧ selectFrame r = none ∧ (∀ x ∈ stepReads r.step, isWritten r x = true) ∧ t = internalStep r) ∨
       (r.busy = false ∧ serviceReady r = true ∧ ∃ gs n, t = serviceEntry { r with grants := gs, grantDraws := n }) ∨
       (r.busy = false ∧ ∃ o rest gs n, r.port = o :: rest ∧
          acceptOffer o rest { r with grants := gs, grantDraws := n } = .next t) ∨
       (r.busy = false ∧ r.port = [] ∧ serviceReady r = false ∧ t = r)) := by
  have own : ∀ r : State, ownStep r = .next t →
      ((∃ f, r.busy = true ∧ selectFrame r = some f ∧ (∀ x ∈ stepReads r.step, isWritten r x = true) ∧
          t = performFrame f r) ∨
       (r.busy = true ∧ selectFrame r = none ∧ (∀ x ∈ stepReads r.step, isWritten r x = true) ∧ t = internalStep r) ∨
       (r.busy = false ∧ serviceReady r = true ∧ ∃ gs n, t = serviceEntry { r with grants := gs, grantDraws := n }) ∨
       (r.busy = false ∧ ∃ o rest gs n, r.port = o :: rest ∧
          acceptOffer o rest { r with grants := gs, grantDraws := n } = .next t) ∨
       (r.busy = false ∧ r.port = [] ∧ serviceReady r = false ∧ t = r)) := by
    intro r hr
    unfold ownStep at hr
    split at hr
    · rename_i hb
      unfold sequencerStep at hr
      split at hr
      · rename_i f hf
        rw [exec_frame] at hr
        obtain ⟨ht, hw⟩ := unlessUnwritten_next hr
        exact .inl ⟨f, hb, hf, hw, ht⟩
      · rename_i hf
        obtain ⟨ht, hw⟩ := unlessUnwritten_next hr
        exact .inr (.inl ⟨hb, hf, hw, ht⟩)
    · rename_i hb
      have hb : r.busy = false := by simpa using hb
      refine .inr (.inr ?_)
      unfold freeStep at hr
      split at hr
      · rename_i hp
        cases hr
        by_cases hs : serviceReady r = true
        · exact .inl ⟨hb, hs, r.grants, r.grantDraws, by simp [hs]⟩
        · exact .inr (.inr ⟨hb, hp, by simpa using hs, by simp [hs]⟩)
      · rename_i o rest hp
        have ha : ∃ gs n, (arbitrate r).2 = { r with grants := gs, grantDraws := n } := by
          unfold arbitrate
          split <;> exact ⟨_, _, rfl⟩
        obtain ⟨gs, n, ha⟩ := ha
        split at hr
        · rename_i hs
          split at hr
          · cases hr
            exact .inl ⟨hb, hs, gs, n, by rw [ha]⟩
          · exact .inr (.inl ⟨hb, o, rest, gs, n, hp, by rw [← ha]; exact hr⟩)
        · exact .inr (.inl ⟨hb, o, rest, r.grants, r.grantDraws, hp, hr⟩)
  unfold step nextStep at h
  split at h
  · rename_i hi
    exact .inr (.inr ⟨s, .inl ⟨rfl, hi⟩, own s h⟩)
  · rename_i rest hi
    exact .inr (.inr ⟨_, .inr ⟨rest, hi, rfl⟩, own _ h⟩)
  · rename_i rest hi
    unfold shutdownDuring at h
    split at h
    · rename_i f hf
      obtain ⟨ht, hw⟩ := unlessUnwritten_next h
      unfold inFlight at hf
      split at hf
      · rename_i hb
        exact .inr (.inl ⟨f, rest, hi, hb, hf, hw, ht⟩)
      · cases hf
    · cases h
      exact .inl ⟨_, rest, hi, by simp, rfl⟩
  · rename_i e rest hq _ hi
    cases h
    exact .inl ⟨e, rest, hi, fun he => hq he, rfl⟩

end Sys2Proof.Machine
end

