-- ==== Sys2Proof/Laws/Frames.lean ====
section
/-! SUPPORT. What every part of a step leaves alone: the parameters, the host's side of the ports, and the history's past; and what
accepting a command can be. -/
namespace Sys2Proof.Machine

/-- An event of the bus. -/
def isBus : Event → Bool
  | .bus _ _ _ _ => true
  | _ => false

/-- The parameters, the ports, the sources of answers and the attached chip are the same. -/
structure SameHost (s t : State) : Prop where
  cfg : t.cfg = s.cfg
  port : t.port = s.port
  mhzIn : t.mhzIn = s.mhzIn
  irqLine : t.irqLine = s.irqLine
  inputs : t.inputs = s.inputs
  answers : t.answers = s.answers
  draws : t.draws = s.draws
  grants : t.grants = s.grants
  grantDraws : t.grantDraws = s.grantDraws
  chip : t.chip = s.chip

/-- The history grows by events that are no transactions. -/
def Grows (s t : State) : Prop := ∃ h, t.history = s.history ++ h ∧ ∀ e ∈ h, isBus e = false

theorem SameHost.refl (s : State) : SameHost s s := ⟨rfl, rfl, rfl, rfl, rfl, rfl, rfl, rfl, rfl, rfl⟩

theorem SameHost.trans {s t u : State} (h : SameHost s t) (g : SameHost t u) : SameHost s u :=
  ⟨g.cfg.trans h.cfg, g.port.trans h.port, g.mhzIn.trans h.mhzIn, g.irqLine.trans h.irqLine, g.inputs.trans h.inputs,
   g.answers.trans h.answers, g.draws.trans h.draws, g.grants.trans h.grants, g.grantDraws.trans h.grantDraws,
   g.chip.trans h.chip⟩

theorem Grows.refl (s : State) : Grows s s := ⟨[], by simp⟩

theorem Grows.of_eq {s t : State} (h : t.history = s.history) : Grows s t := ⟨[], by simp [h]⟩

theorem Grows.trans {s t u : State} (h : Grows s t) (g : Grows t u) : Grows s u := by
  obtain ⟨a, ha, hb⟩ := h
  obtain ⟨b, hc, hd⟩ := g
  refine ⟨a ++ b, by rw [hc, ha, List.append_assoc], ?_⟩
  intro e he
  rcases List.mem_append.1 he with he | he
  · exact hb e he
  · exact hd e he

/-- Completing a command moves the block alone, and emits at most the ERR event. -/
theorem completeCommand_moves (r : RespResult) (e : ErrRec) (s : State) :
    SameHost s (completeCommand r e s) ∧ Grows s (completeCommand r e s) := by
  refine ⟨⟨rfl, rfl, rfl, rfl, rfl, rfl, rfl, rfl, rfl, rfl⟩, ?_⟩
  by_cases h : errWord e = 0#32
  · exact .of_eq (by simp [h])
  · exact ⟨[.err (errWord e)], by simp [h], by simp [isBus]⟩

/-- Raising an error moves the block alone, and emits at most the ERR event. -/
theorem raiseError_moves (c : ErrCode) (a : Addr) (x : Byte) (s : State) :
    SameHost s (raiseError c a x s) ∧ Grows s (raiseError c a x s) := by
  cases h : s.owner with
  | command => rw [raiseError_command h]; exact completeCommand_moves _ _ s
  | service =>
    rw [raiseError_service h]
    exact ⟨⟨rfl, rfl, rfl, rfl, rfl, rfl, rfl, rfl, rfl, rfl⟩, .of_eq rfl⟩

/-- A service's end moves the block alone, and emits at most the ERR event. -/
theorem endService_moves (s : State) : SameHost s (endService s) ∧ Grows s (endService s) := by
  refine ⟨⟨rfl, rfl, rfl, rfl, rfl, rfl, rfl, rfl, rfl, rfl⟩, ?_⟩
  by_cases h : errWord s.svcErr = 0#32
  · exact .of_eq (by simp [h])
  · exact ⟨[.err (errWord s.svcErr)], by simp [h], by simp [isBus]⟩

/-- Reduces the movement of a state to that of one with the same host side and history. -/
theorem moves_of {s t u : State} (h : SameHost t u ∧ Grows t u) (hs : SameHost s t) (hh : t.history = s.history) :
    SameHost s u ∧ Grows s u := ⟨hs.trans h.1, (Grows.of_eq hh).trans h.2⟩

/-- What a step does with its transaction's byte moves the block alone. -/
theorem takeData_moves (d : Byte) (s : State) : SameHost s (takeData d s) ∧ Grows s (takeData d s) := by
  have same : ∀ t : State, SameHost s t → t.history = s.history → SameHost s t ∧ Grows s t :=
    fun t h hh => ⟨h, .of_eq hh⟩
  unfold takeData
  cases s.step <;> try exact same _ ⟨rfl, rfl, rfl, rfl, rfl, rfl, rfl, rfl, rfl, rfl⟩ rfl
  case s7Rssi =>
    exact ⟨⟨rfl, rfl, rfl, rfl, rfl, rfl, rfl, rfl, rfl, rfl⟩, [_], rfl, by simp [isBus]⟩
  case s8Ack => exact endService_moves s
  case i1Ver =>
    simp only [takeI1Ver]
    split
    · exact same _ ⟨rfl, rfl, rfl, rfl, rfl, rfl, rfl, rfl, rfl, rfl⟩ rfl
    · exact moves_of (raiseError_moves _ _ _ _) ⟨rfl, rfl, rfl, rfl, rfl, rfl, rfl, rfl, rfl, rfl⟩ rfl
  case cmd =>
    simp only [jobTakes]
    split
    · exact same _ (.refl s) rfl
    · split
      · exact same _ ⟨rfl, rfl, rfl, rfl, rfl, rfl, rfl, rfl, rfl, rfl⟩ rfl
      · refine moves_of (t := jobTracks _ s) (completeCommand_moves _ _ _) ?_ ?_
        all_goals obtain ⟨v, m, h⟩ := jobTracks_moves _ s; rw [h]
        exact ⟨rfl, rfl, rfl, rfl, rfl, rfl, rfl, rfl, rfl, rfl⟩

/-- What a step does with its transaction's TransportError moves the block alone. -/
theorem takeError_moves (a : Addr) (x : Byte) (s : State) : SameHost s (takeError a x s) ∧ Grows s (takeError a x s) := by
  have low : SameHost s (loseMode s) := ⟨rfl, rfl, rfl, rfl, rfl, rfl, rfl, rfl, rfl, rfl⟩
  unfold takeError
  cases s.step <;> try exact raiseError_moves _ _ _ s
  case none | s4Split | i0Rst => exact ⟨.refl s, .refl s⟩
  case s8Ack => exact moves_of (endService_moves _) ⟨rfl, rfl, rfl, rfl, rfl, rfl, rfl, rfl, rfl, rfl⟩ rfl
  case i2Sleep | i5sStdby | i6Rxc => exact moves_of (raiseError_moves _ _ _ _) low rfl
  case cmd =>
    simp only [jobFails]
    split
    · exact ⟨.refl s, .refl s⟩
    · refine moves_of (t := jobLoses _ s) (raiseError_moves _ _ _ _) ?_ ?_
      all_goals obtain ⟨v, h⟩ := jobLoses_moves _ s; rw [h]
      exact ⟨rfl, rfl, rfl, rfl, rfl, rfl, rfl, rfl, rfl, rfl⟩

/-- A step without a transaction moves the block alone. -/
theorem internalStep_moves (s : State) : SameHost s (internalStep s) ∧ Grows s (internalStep s) := by
  unfold internalStep
  cases s.step <;> try exact ⟨.refl s, .refl s⟩
  case s3Burst => exact ⟨⟨rfl, rfl, rfl, rfl, rfl, rfl, rfl, rfl, rfl, rfl⟩, .of_eq rfl⟩
  case s4Split =>
    simp only [stepS4Split]
    split
    · exact raiseError_moves _ _ _ s
    · exact ⟨⟨rfl, rfl, rfl, rfl, rfl, rfl, rfl, rfl, rfl, rfl⟩, .of_eq rfl⟩

/-- INIT's start moves the block alone, and emits RST(0). -/
theorem startInit_moves (p : BitVec 2) (frf : BitVec 24) (s : State) :
    SameHost s (startInit p frf s) ∧ Grows s (startInit p frf s) :=
  ⟨⟨rfl, rfl, rfl, rfl, rfl, rfl, rfl, rfl, rfl, rfl⟩, [.rst false], rfl, by simp [isBus]⟩

/-- The state in which the offered word is performed: the word taken from the port, its side operand in MHZ_IN, the command
opened. -/
def taken (o : Offer) (rest : List Offer) (cw : CommandWord) (s : State) : State :=
  opened cw { s with port := rest, mhzIn := o.mhz }

/-- A command word never decodes to a bus frame (30_encoding.md R90, R97). -/
theorem decodeCommand_not_frame {w : CommandWord} {i : Instr} (h : decodeCommand w = .ok i) :
    (∀ a, i ≠ .busRd a) ∧ ∀ a v, i ≠ .busWr a v := by
  have ok : ∀ {c : Prop} [Decidable c] {j : Instr} {x : Except DecodeError Instr},
      (if c then .ok j else x) = .ok i → ((∀ a, j ≠ .busRd a) ∧ ∀ a v, j ≠ .busWr a v) →
      (x = .ok i → (∀ a, i ≠ .busRd a) ∧ ∀ a v, i ≠ .busWr a v) → (∀ a, i ≠ .busRd a) ∧ ∀ a v, i ≠ .busWr a v := by
    intro c _ j x h hj hx
    split at h
    · cases h; exact hj
    · exact hx h
  unfold decodeCommand at h
  refine ok h (by simp) fun h => ?_
  refine ok h (by simp) fun h => ?_
  refine ok h (by simp) fun h => ?_
  refine ok h (by simp) fun h => ?_
  refine ok h (by simp) fun h => ?_
  refine ok h (by simp) fun h => ?_
  refine ok h (by simp) fun h => ?_
  refine ok h (by simp) fun h => ?_
  refine ok h (by simp) fun h => ?_
  refine ok h (by simp) fun h => ?_
  refine ok h (by simp) fun h => ?_
  refine ok h (by simp) fun h => ?_
  refine ok h (by simp) fun h => ?_
  refine ok h (by simp) fun h => ?_
  split at h <;> cases h

/-- Everything performing a command can be, with the lock free: it completes at once (with or without an error), it has
transactions to make, or it is INIT's start; the last two only in a phase that permits them (60_exceptions.md R276, R282). -/
theorem exec_command_cases {i : Instr} {s t : State} (hb : s.busy = false) (h1 : ∀ a, i ≠ .busRd a)
    (h2 : ∀ a v, i ≠ .busWr a v) (h : exec i s = .next t) :
    ∃ cw, (∃ r e, t = completeCommand r e (opened cw s)) ∨
      (s.phase ≠ .halted ∧ ∃ k f fs, (∀ m, k = .mode m → legalMode s.cfg m = true) ∧ t = withJob k (f :: fs) (opened cw s)) ∨
      (s.phase ≠ .halted ∧ ∃ p frf, t = startInit p frf (opened cw s)) := by
  have key : ∀ f : State → State, accept i f s = .next t →
      (i.wellFormed s.cfg = true → (usesBus i = true → s.phase ≠ .halted) →
        (∃ r e, f (opened (encodeCommand i) s) = completeCommand r e (opened (encodeCommand i) s)) ∨
        (s.phase ≠ .halted ∧ ∃ k g fs, (∀ m, k = .mode m → legalMode s.cfg m = true) ∧
          f (opened (encodeCommand i) s) = withJob k (g :: fs) (opened (encodeCommand i) s)) ∨
        (s.phase ≠ .halted ∧ ∃ p frf, f (opened (encodeCommand i) s) = startInit p frf (opened (encodeCommand i) s))) →
      ∃ cw, (∃ r e, t = completeCommand r e (opened cw s)) ∨
        (s.phase ≠ .halted ∧ ∃ k f fs, (∀ m, k = .mode m → legalMode s.cfg m = true) ∧
          t = withJob k (f :: fs) (opened cw s)) ∨
        (s.phase ≠ .halted ∧ ∃ p frf, t = startInit p frf (opened cw s)) := by
    intro f ha hf
    refine ⟨encodeCommand i, ?_⟩
    rcases accept_cases ha with ⟨h, -⟩ | ⟨-, c, -, rfl⟩ | ⟨-, hw, hu, rfl⟩
    · simp [hb] at h
    · exact .inl ⟨_, _, raiseError_command rfl _ _ _⟩
    · exact hf hw hu
  cases i with
  | busRd a => exact absurd rfl (h1 a)
  | busWr a v => exact absurd rfl (h2 a v)
  | enc bw cr hm sf crc => exact key _ h fun _ _ => .inl ⟨_, _, rfl⟩
  | encp p => exact key _ h fun _ _ => .inl ⟨_, _, rfl⟩
  | r2f a b c => exact key _ h fun _ _ => .inl ⟨_, _, rfl⟩
  | irqd b => exact key _ h fun _ _ => .inl ⟨_, _, rfl⟩
  | snrc b => exact key _ h fun _ _ => .inl ⟨_, _, rfl⟩
  | rssic b => exact key _ h fun _ _ => .inl ⟨_, _, rfl⟩
  | f2r =>
    simp only [exec, execF2r] at h
    refine key _ h fun _ _ => .inl ?_
    split
    · exact ⟨_, _, raiseError_command rfl _ _ _⟩
    · exact ⟨_, _, rfl⟩
  | rd a => exact key _ h fun _ hu => .inr (.inl ⟨hu rfl, .rd, _, _, by simp, rfl⟩)
  | wr a v => exact key _ h fun _ hu => .inr (.inl ⟨hu rfl, .wr, _, _, by simp, rfl⟩)
  | smdm a b => exact key _ h fun _ hu => .inr (.inl ⟨hu rfl, .smdm, _, _, by simp, rfl⟩)
  | mode m => exact key _ h fun hw hu => .inr (.inl ⟨hu rfl, .mode m, _, _, by rintro _ ⟨⟩; exact hw, rfl⟩)
  | brd a n =>
    refine key _ h fun _ hu => ?_
    generalize hfs : List.replicate _ (Frame.read a) = l
    cases l with
    | nil => exact .inl ⟨.brd [], ErrRec.clear, rfl⟩
    | cons f fs => exact .inr (.inl ⟨hu rfl, .brd, f, fs, by simp, rfl⟩)
  | sfrq =>
    simp only [exec, execSfrq] at h
    refine key _ h fun _ hu => ?_
    split
    · exact .inl ⟨_, _, raiseError_command rfl _ _ _⟩
    · exact .inr (.inl ⟨hu rfl, .sfrq _, _, _, by simp, rfl⟩)
  | init p =>
    simp only [exec, execInit] at h
    refine key _ h fun _ hu => ?_
    split
    · exact .inl ⟨_, _, raiseError_command rfl _ _ _⟩
    · exact .inr (.inr ⟨hu rfl, p, _, rfl⟩)

/-- Everything accepting the offered word can be, with the lock free (60_exceptions.md R276, R282). -/
theorem acceptOffer_cases {o : Offer} {rest : List Offer} {s t : State} (hb : s.busy = false)
    (h : acceptOffer o rest s = .next t) :
    ∃ cw, (∃ r e, t = completeCommand r e (taken o rest cw s)) ∨
      (s.phase ≠ .halted ∧ ∃ k f fs, (∀ m, k = .mode m → legalMode s.cfg m = true) ∧
        t = withJob k (f :: fs) (taken o rest cw s)) ∨
      (s.phase ≠ .halted ∧ ∃ p frf, t = startInit p frf (taken o rest cw s)) := by
  unfold acceptOffer at h
  split at h
  · rename_i i hd
    obtain ⟨h1, h2⟩ := decodeCommand_not_frame hd
    exact exec_command_cases hb h1 h2 h
  · cases h
    exact ⟨_, .inl ⟨_, _, raiseError_command rfl _ _ _⟩⟩

end Sys2Proof.Machine
end

