-- ==== Sys2Proof/Laws/Memory.lean ====
section
/-! SUPPORT. The laws of bytes at addresses: a read after a write, and the canonical form that every write keeps. -/
namespace Sys2Proof.Machine

/-- Below the first address of a canonical list every byte is the unlisted one. -/
theorem cellRead_below {size lo a : Nat} {m : List Host.Cell} (h : cellsFrom size lo m = true) (ha : a < lo) :
    cellRead m a = unlistedByte := by
  induction m generalizing lo with
  | nil => rfl
  | cons c rest ih =>
    obtain ⟨b, v⟩ := c
    simp only [cellsFrom, Bool.and_eq_true, decide_eq_true_eq] at h
    rw [cellRead, if_neg (by omega)]
    exact ih h.2 (by omega)

/-- A canonical list from a higher address is one from a lower address. -/
theorem cellsFrom_mono {size lo lo' : Nat} {m : List Host.Cell} (h : cellsFrom size lo m = true) (hl : lo' ≤ lo) :
    cellsFrom size lo' m = true := by
  cases m with
  | nil => rfl
  | cons c rest =>
    obtain ⟨b, v⟩ := c
    simp only [cellsFrom, Bool.and_eq_true, decide_eq_true_eq] at h ⊢
    exact ⟨⟨⟨by omega, h.1.1.2⟩, h.1.2⟩, h.2⟩

/-- Reading after a write: the written address gives the value, every other the byte before. -/
theorem cellRead_cellWrite {size lo : Nat} {m : List Host.Cell} (h : cellsFrom size lo m = true) (a b : Nat) (v : Byte) :
    cellRead (cellWrite m a v) b = if b = a then v else cellRead m b := by
  induction m generalizing lo with
  | nil =>
    by_cases hb : b = a
    · by_cases hv : v = unlistedByte <;> simp [cellWrite, cellRead, hb, hv]
    · by_cases hv : v = unlistedByte <;> simp [cellWrite, cellRead, hb, hv, Ne.symm hb]
  | cons c rest ih =>
    obtain ⟨x, w⟩ := c
    have hr := h
    simp only [cellsFrom, Bool.and_eq_true, decide_eq_true_eq] at hr
    unfold cellWrite
    split
    · rename_i hlt
      split
      · rename_i hv
        by_cases hb : b = a
        · have hs : cellsFrom size x ((x, w) :: rest) = true := by
            simp [cellsFrom, hr.1.1.2, hr.1.2, hr.2]
          rw [if_pos hb, hb, cellRead_below hs hlt, hv]
        · rw [if_neg hb]
      · by_cases hb : b = a
        · simp [cellRead, hb]
        · simp [cellRead, hb, Ne.symm hb, @eq_comm _ x]
    · split
      · rename_i hx
        subst hx
        by_cases hb : b = a
        · subst hb
          split
          · rename_i hv
            rw [cellRead_below hr.2 (by omega), if_pos rfl, hv]
          · simp [cellRead]
        · split <;> simp [cellRead, Ne.symm hb]
      · rename_i hne
        rw [cellRead, ih hr.2, cellRead]
        by_cases hb : b = a
        · subst hb; simp [Ne.symm hne]
        · simp [hb]

/-- Every write keeps the canonical form. -/
theorem cellsFrom_cellWrite {size lo : Nat} {m : List Host.Cell} (h : cellsFrom size lo m = true) {a : Nat} (v : Byte)
    (hlo : lo ≤ a) (ha : a < size) : cellsFrom size lo (cellWrite m a v) = true := by
  induction m generalizing lo with
  | nil =>
    unfold cellWrite
    split <;> simp_all [cellsFrom]
  | cons c rest ih =>
    obtain ⟨x, w⟩ := c
    have hr := h
    simp only [cellsFrom, Bool.and_eq_true, decide_eq_true_eq] at hr
    unfold cellWrite
    split
    · split
      · exact h
      · rename_i hlt hv
        simp only [cellsFrom, Bool.and_eq_true, decide_eq_true_eq]
        exact ⟨⟨⟨hlo, ha⟩, by simpa using hv⟩, ⟨⟨by omega, hr.1.1.2⟩, hr.1.2⟩, hr.2⟩
    · split
      · rename_i hx
        subst hx
        split
        · exact cellsFrom_mono hr.2 (by omega)
        · rename_i hv
          simp only [cellsFrom, Bool.and_eq_true, decide_eq_true_eq]
          exact ⟨⟨⟨hlo, ha⟩, by simpa using hv⟩, hr.2⟩
      · simp only [cellsFrom, Bool.and_eq_true, decide_eq_true_eq]
        exact ⟨⟨⟨hr.1.1.1, hr.1.1.2⟩, hr.1.2⟩, ih hr.2 (by omega)⟩

/-- A write inside the memory keeps its canonical form. -/
theorem Memory.wf_cellWrite {size : Nat} {m : List Host.Cell} (h : Memory.wf size m = true) {a : Nat} (v : Byte) (ha : a < size) :
    Memory.wf size (cellWrite m a v) = true := cellsFrom_cellWrite h v (Nat.zero_le a) ha

/-- CHIP_REF's blank memories are canonical. -/
theorem RefChip.wf_blank : RefChip.blank.wf = true := by decide

/-- Setting a register byte keeps the canonical form. -/
theorem RefChip.wf_setReg {c : RefChip} (h : c.wf = true) (a : Addr) (v : Byte) : (c.setReg a v).wf = true := by
  simp only [RefChip.wf, RefChip.setReg, Bool.and_eq_true] at h ⊢
  exact ⟨Memory.wf_cellWrite h.1 v (by omega), h.2⟩

/-- Reading a register byte after one was set. -/
theorem RefChip.readReg_setReg {c : RefChip} (h : c.wf = true) (a b : Addr) (v : Byte) :
    (c.setReg a v).readReg b = if b = a then v else c.readReg b := by
  simp only [RefChip.wf, Bool.and_eq_true] at h
  simp only [RefChip.readReg, RefChip.setReg]
  rw [cellRead_cellWrite h.1]
  simp [BitVec.toNat_inj]

/-- Every exchange keeps the canonical form of both memories. -/
theorem RefChip.wf_step {c : RefChip} (h : c.wf = true) (p : Params) (f : Frame) : (c.exchange p f).2.wf = true := by
  cases f with
  | read a => simp only [RefChip.exchange]; split <;> exact h
  | write a v =>
    simp only [RefChip.exchange]
    split
    · simp only [RefChip.wf, Bool.and_eq_true] at h ⊢
      exact ⟨h.1, Memory.wf_cellWrite h.2 v (by omega)⟩
    · split
      · exact RefChip.wf_setReg h a v
      · split <;> exact RefChip.wf_setReg h a _

end Sys2Proof.Machine
end

