-- ==== Sys2Proof/Laws/Invariant.lean ====
section
/-! SUPPORT. The invariant of Safety.lean part by part: its parts as propositions, the four situations the lock can be in, and the
small facts its parts need. -/
namespace Sys2Proof.Machine

/-- The parts of the invariant. -/
theorem stateOk_iff (s : State) : stateOk s = true ↔
    lockOk s = true ∧ writtenOk s = true ∧ burstOk s = true ∧ rangeOk s = true ∧ historyOk s = true ∧ errOk s = true ∧
      modeOk s = true ∧ rstOk s = true ∧ chipOk s = true := by
  simp [stateOk, and_assoc]

/-- The four situations of the lock: free, a command with a transaction to make, INIT, a service. -/
theorem lockOk_cases {s : State} (h : lockOk s = true) :
    (s.phase = .halted → s.pend = false) ∧
    ((s.step = .none ∧ s.busy = false ∧ s.owner = .command ∧ s.job = none) ∨
     (s.step = .cmd ∧ s.busy = true ∧ s.owner = .command ∧ s.phase ≠ .halted ∧
       ∃ k f fs got, s.job = some ⟨k, f :: fs, got⟩ ∧ ∀ m, k = .mode m → legalMode s.cfg m = true) ∨
     (isInit s.step = true ∧ s.busy = true ∧ s.owner = .command ∧ s.phase = .idle ∧ s.job = none) ∨
     (isReceive s.step = true ∧ s.busy = true ∧ s.owner = .service ∧ s.phase = .run ∧ s.job = none)) := by
  unfold lockOk at h
  simp only [Bool.and_eq_true] at h
  refine ⟨?_, ?_⟩
  · intro hp
    simpa [hp] using h.2
  · have h := h.1
    split at h
    · rename_i hs
      simp only [Bool.and_eq_true, Bool.not_eq_true', decide_eq_true_eq] at h
      exact .inl ⟨hs, h.1.1, h.1.2, h.2⟩
    · rename_i hn
      split at h
      · rename_i hs
        simp only [Bool.and_eq_true, decide_eq_true_eq, bne_iff_ne, ne_eq] at h
        refine .inr (.inl ⟨hs, h.1.1.1, h.1.1.2, h.1.2, ?_⟩)
        have hj := h.2
        unfold jobOk at hj
        split at hj
        · rename_i m f fs got hjob
          exact ⟨_, f, fs, got, hjob, by rintro m' ⟨⟩; exact hj⟩
        · rename_i k f fs got hk hjob
          exact ⟨k, f, fs, got, hjob, fun m hm => (hk m hm).elim⟩
        · cases hj
      · rename_i hc
        split at h
        · rename_i hi
          simp only [Bool.and_eq_true, decide_eq_true_eq] at h
          exact .inr (.inr (.inl ⟨hi, h.1.1.1, h.1.1.2, h.1.2, h.2⟩))
        · rename_i hi
          simp only [Bool.and_eq_true, decide_eq_true_eq] at h
          refine .inr (.inr (.inr ⟨?_, h.1.1.1, h.1.1.2, h.1.2, h.2⟩))
          cases hs : s.step <;> simp_all [isInit, isReceive]

/-- Every SNR value is in [-64, 63] (45_rx_sequencer.md R235). -/
theorem snrConv_range (b : Byte) : -64 ≤ snrConv b ∧ snrConv b ≤ 63 := by revert b; decide

/-- Every RSSI value is in [-137, 118] (45_rx_sequencer.md R236). -/
theorem rssiWord_range (b : Byte) : -137 ≤ (rssiWord b).toInt ∧ (rssiWord b).toInt ≤ 118 := by revert b; decide

/-- A burst has at most 255 reads (45_rx_sequencer.md R226). -/
theorem burstReads_le (s : State) : burstReads s ≤ 255 := by
  unfold burstReads burstCount
  have := s.len.value.isLt
  split <;> omega

/-- Header and payload make up the split bytes (45_rx_sequencer.md R234). -/
theorem hsplit_length {b p : List Byte} {h : Header} (he : hsplit b = some (h, p)) : p.length + 4 = b.length := by
  unfold hsplit at he
  split at he
  · cases he; simp
  · cases he

/-- The reserved bits of an ERR word are 0, and CODE is never 7 (10_state.md R31). -/
theorem errOk_errWord {s : State} {e : ErrRec} (h : s.err = errWord e) : errOk s = true := by
  have h1 : (errWord e).extractLsb' 24 8 = 0#8 := by unfold errWord; grind
  have h2 : (errWord e).extractLsb' 0 3 = e.code.code := by unfold errWord; grind
  have h3 : e.code.code ≠ 7#3 := by cases e.code <;> decide
  simp [errOk, h, h1, h2, h3]

/-- A frame's BUS event is legal (30_encoding.md R91). -/
theorem eventOk_bus (f : Frame) (l : Int) (bs : List Byte) : eventOk (.bus f.b0 f.b1 l bs) = true := by
  cases f <;> simp [eventOk, Frame.b0, Frame.b1]

/-- The history grows by legal events. -/
theorem historyOk_append {s t : State} {h : List Event} (ht : t.history = s.history ++ h) (hs : historyOk s = true)
    (hh : ∀ e ∈ h, eventOk e = true) : historyOk t = true := by
  simp only [historyOk, List.all_eq_true] at hs ⊢
  intro e he
  rw [ht] at he
  rcases List.mem_append.1 he with he | he
  · exact hs e he
  · exact hh e he

/-- A chip is canonical after a draw if it was before. -/
theorem chipOk_draw {s : State} {c : Option RefChip} {f : Frame} (hs : chipOk s = true)
    (hc : c = s.chip ∨ ∃ c', s.chip = some c' ∧ c = some (c'.exchange s.cfg f).2) : chipOk { s with chip := c } = true := by
  rcases hc with rfl | ⟨c', h, rfl⟩
  · exact hs
  · simp only [chipOk, h] at hs
    exact RefChip.wf_step hs s.cfg f

end Sys2Proof.Machine
end

