-- ==== Sys2Proof/Laws/Jobs.lean ====
section
/-! SUPPORT. A command in progress, transaction by transaction: one step for each, up to its completion or its first failure
(40_register_access.md, 60_exceptions.md R271). -/
namespace Sys2Proof.Machine

/-- No steps. -/
@[simp] theorem run_zero (s : State) : Host.Core.run Sys2Proof.core 0 s = .next s := rfl

/-- One step and then the others. -/
theorem run_succ {s t : State} (h : step s = .next t) (n : Nat) :
    Host.Core.run Sys2Proof.core (n + 1) s = Host.Core.run Sys2Proof.core n t := by
  have h' : Sys2Proof.core.step s = .next t := h
  simp only [Host.Core.run, h']

/-- One step and then the others. -/
theorem runsTo_succ {s t u : State} {n : Nat} (h : step s = .next t) (hr : runsTo n t u) : runsTo (n + 1) s u :=
  (run_succ h n).trans hr

/-- A run of one step. -/
theorem runsTo_one {s t : State} (h : step s = .next t) : runsTo 1 s t := runsTo_succ h rfl

/-- Runs follow one another. -/
theorem runsTo_add {s t u : State} {n m : Nat} (h : runsTo n s t) (h' : runsTo m t u) : runsTo (n + m) s u := by
  induction n generalizing s with
  | zero =>
    cases h
    simpa using h'
  | succ n ih =>
    cases hs : step s with
    | next v =>
      rw [show n + 1 + m = (n + m) + 1 by omega]
      exact runsTo_succ hs (ih ((run_succ hs n).symm.trans h))
    | fault r =>
      have hs' : Sys2Proof.core.step s = .fault r := hs
      simp [runsTo, Host.Core.run, hs'] at h
    | refused r =>
      have hs' : Sys2Proof.core.step s = .refused r := hs
      simp [runsTo, Host.Core.run, hs'] at h

/-- A step of a command in progress with a listed answer. -/
theorem step_job {s : State} {k : JobKind} {f : Frame} {fs : List Frame} {got : List Byte} {a : Answer} {rest : List Answer}
    (hs : holdsAt .cmd s) (hj : s.job = some ⟨k, f :: fs, got⟩) (ha : s.answers = a :: rest) :
    step s = .next
      (if answerGood a then jobTakes (answerData a) (afterFrames [f] [a] rest s)
       else jobFails f.addr (answerAux a) (afterFrames [f] [a] rest s)) := by
  obtain ⟨hb, hi, hc⟩ := hs
  rw [step_listed hb hi (f := f) (by simp [selectFrame, hc, hj]) (by simp [stepReads, hc]) ha]
  simp [takeData, takeError, hc]

/-- The state of a command in progress after some of its transactions. -/
def midJob (k : JobKind) (done : List Frame) (as rest : List Answer) (todo : List Frame) (got : List Byte) (s : State) : State :=
  { (afterFrames done as rest s) with job := some ⟨k, todo, got⟩ }

/-- The transactions of a command but the last: each good answer is taken in turn. -/
theorem job_runs {k : JobKind} (before : List Frame) {f : Frame} {later : List Frame} {got : List Byte} {as rest : List Answer}
    {s : State} (hs : holdsAt .cmd s) (hj : s.job = some ⟨k, before ++ f :: later, got⟩) (ha : s.answers = as ++ rest)
    (hl : as.length = before.length) (hg : ∀ x ∈ as, answerGood x = true) :
    runsTo before.length s (midJob k before as rest (f :: later) (got ++ as.map answerData) s) := by
  induction before generalizing s as got with
  | nil =>
    cases as with
    | nil =>
      simp only [List.nil_append] at ha hj
      simp [runsTo, midJob, afterFrames, ← ha, ← hj]
    | cons a as => simp at hl
  | cons g before ih =>
    cases as with
    | nil => simp at hl
    | cons a as =>
      have h1 := step_job hs hj (a := a) (rest := as ++ rest) (by simpa using ha)
      rw [if_pos (hg a (by simp))] at h1
      obtain ⟨h, t, hn⟩ : ∃ h t, before ++ f :: later = h :: t := by cases before <;> exact ⟨_, _, rfl⟩
      rw [jobTakes_more (k := k) (f := g) (g := h) (fs := t) (got := got) (by simpa [hn] using hj), ← hn] at h1
      refine runsTo_succ h1 ?_
      have h2 := ih (s := { (afterFrames [g] [a] (as ++ rest) s) with job := some ⟨k, before ++ f :: later, got ++ [answerData a]⟩ })
        (as := as) (got := got ++ [answerData a]) hs rfl rfl (by simpa using hl) (fun x hx => hg x (by simp [hx]))
      simpa [midJob, afterFrames, List.append_assoc] using h2

/-- A whole command in progress with good answers: one step for each transaction, then it completes. -/
theorem job_completes {k : JobKind} {before : List Frame} {f : Frame} {as : List Answer} {a : Answer} {rest : List Answer}
    {s : State} (hs : holdsAt .cmd s) (hj : s.job = some ⟨k, before ++ [f], []⟩) (ha : s.answers = as ++ a :: rest)
    (hl : as.length = before.length) (hg : ∀ x ∈ as, answerGood x = true) (hga : answerGood a = true) :
    runsTo (before.length + 1) s (finished (jobResult s.cfg k (as.map answerData ++ [answerData a]) (answerData a))
      (jobTracks k (afterFrames (before ++ [f]) (as ++ [a]) rest s))) := by
  refine runsTo_add (job_runs before hs hj ha hl hg) (runsTo_one ?_)
  have h1 := step_job (s := midJob k before as (a :: rest) [f] ([] ++ as.map answerData) s) hs rfl rfl
  rw [if_pos hga, jobTakes_last rfl] at h1
  rw [h1]
  cases k <;> simp [finished, jobTracks, trackMode, midJob, afterFrames, List.zipWith_append hl.symm]

end Sys2Proof.Machine
end

