-- ==== Sys2Proof/Laws/PerInstr.lean ====
section
/-! SUPPORT. A statement for every instruction, one lemma for each constructor: the word of an instruction selects the row of its
own mnemonic in the operation map, whatever its operands (30_encoding.md R97), or is a frame of its own kind (30_encoding.md R90,
R91). -/
namespace Sys2Proof.Laws.TableRow
open Sys2Proof.Machine

/-- The word of the instruction selects a row of its table, and the row says whether it makes bus transactions. -/
def Statement (i : Instr) : Prop :=
  match encode i with
  | .command w => ∃ r ∈ commandRows, w &&& r.mask = r.value ∧ r.bus = usesBus i
  | .frame w => (∃ a v, i = .busWr a v ∧ w &&& 0x8000#16 = 0x8000#16) ∨ ∃ a, i = .busRd a ∧ w &&& 0x80FF#16 = 0x0000#16

/-- ENC's row. -/
theorem enc (bw : BitVec 4) (cr : BitVec 3) (hm : BitVec 1) (sf : BitVec 4) (crc : BitVec 1) : Statement (.enc bw cr hm sf crc) := by
  refine ⟨commandRows[0], by decide, ?_, rfl⟩
  apply BitVec.eq_of_getLsbD_eq
  intro i hi
  rw [BitVec.getLsbD_and]
  interval_cases i <;> simp only [BitVec.getLsbD_append] <;> simp [commandRows]

/-- ENCP's row. -/
theorem encp (preset : BitVec 2) : Statement (.encp preset) := by
  refine ⟨commandRows[1], by decide, ?_, rfl⟩
  apply BitVec.eq_of_getLsbD_eq
  intro i hi
  rw [BitVec.getLsbD_and]
  interval_cases i <;> simp only [BitVec.getLsbD_append] <;> simp [commandRows]

/-- F2R's row. -/
theorem f2r : Statement .f2r := ⟨commandRows[2], by decide, by decide, rfl⟩

/-- R2F's row. -/
theorem r2f (msb mid lsb : Byte) : Statement (.r2f msb mid lsb) := by
  refine ⟨commandRows[3], by decide, ?_, rfl⟩
  apply BitVec.eq_of_getLsbD_eq
  intro i hi
  rw [BitVec.getLsbD_and]
  interval_cases i <;> simp only [BitVec.getLsbD_append] <;> simp [commandRows]

/-- IRQD's row. -/
theorem irqd (byte : Byte) : Statement (.irqd byte) := by
  refine ⟨commandRows[4], by decide, ?_, rfl⟩
  apply BitVec.eq_of_getLsbD_eq
  intro i hi
  rw [BitVec.getLsbD_and]
  interval_cases i <;> simp only [BitVec.getLsbD_append] <;> simp [commandRows]

/-- SNRC's row. -/
theorem snrc (byte : Byte) : Statement (.snrc byte) := by
  refine ⟨commandRows[5], by decide, ?_, rfl⟩
  apply BitVec.eq_of_getLsbD_eq
  intro i hi
  rw [BitVec.getLsbD_and]
  interval_cases i <;> simp only [BitVec.getLsbD_append] <;> simp [commandRows]

/-- RSSIC's row. -/
theorem rssic (byte : Byte) : Statement (.rssic byte) := by
  refine ⟨commandRows[6], by decide, ?_, rfl⟩
  apply BitVec.eq_of_getLsbD_eq
  intro i hi
  rw [BitVec.getLsbD_and]
  interval_cases i <;> simp only [BitVec.getLsbD_append] <;> simp [commandRows]

/-- RD's row. -/
theorem rd (addr : Addr) : Statement (.rd addr) := by
  refine ⟨commandRows[7], by decide, ?_, rfl⟩
  apply BitVec.eq_of_getLsbD_eq
  intro i hi
  rw [BitVec.getLsbD_and]
  interval_cases i <;> simp only [BitVec.getLsbD_append] <;> simp [commandRows]

/-- WR's row. -/
theorem wr (addr : Addr) (value : Byte) : Statement (.wr addr value) := by
  refine ⟨commandRows[8], by decide, ?_, rfl⟩
  apply BitVec.eq_of_getLsbD_eq
  intro i hi
  rw [BitVec.getLsbD_and]
  interval_cases i <;> simp only [BitVec.getLsbD_append] <;> simp [commandRows]

/-- BRD's row. -/
theorem brd (addr : Addr) (length : Byte) : Statement (.brd addr length) := by
  refine ⟨commandRows[9], by decide, ?_, rfl⟩
  apply BitVec.eq_of_getLsbD_eq
  intro i hi
  rw [BitVec.getLsbD_and]
  interval_cases i <;> simp only [BitVec.getLsbD_append] <;> simp [commandRows]

/-- MODE's row. -/
theorem mode (mcode : BitVec 3) : Statement (.mode mcode) := by
  refine ⟨commandRows[10], by decide, ?_, rfl⟩
  apply BitVec.eq_of_getLsbD_eq
  intro i hi
  rw [BitVec.getLsbD_and]
  interval_cases i <;> simp only [BitVec.getLsbD_append] <;> simp [commandRows]

/-- SFRQ's row. -/
theorem sfrq : Statement .sfrq := ⟨commandRows[11], by decide, by decide, rfl⟩

/-- SMDM's row. -/
theorem smdm (c1 c2 : Byte) : Statement (.smdm c1 c2) := by
  refine ⟨commandRows[12], by decide, ?_, rfl⟩
  apply BitVec.eq_of_getLsbD_eq
  intro i hi
  rw [BitVec.getLsbD_and]
  interval_cases i <;> simp only [BitVec.getLsbD_append] <;> simp [commandRows]

/-- INIT's row. -/
theorem init (preset : BitVec 2) : Statement (.init preset) := by
  refine ⟨commandRows[13], by decide, ?_, rfl⟩
  apply BitVec.eq_of_getLsbD_eq
  intro i hi
  rw [BitVec.getLsbD_and]
  interval_cases i <;> simp only [BitVec.getLsbD_append] <;> simp [commandRows]

/-- BUS_RD's frame. -/
theorem busRd (addr : Addr) : Statement (.busRd addr) := by
  refine .inr ⟨addr, rfl, ?_⟩
  apply BitVec.eq_of_getLsbD_eq
  intro i hi
  rw [BitVec.getLsbD_and]
  interval_cases i <;> simp only [BitVec.getLsbD_append] <;> simp

/-- BUS_WR's frame. -/
theorem busWr (addr : Addr) (data : Byte) : Statement (.busWr addr data) := by
  refine .inl ⟨addr, data, rfl, ?_⟩
  apply BitVec.eq_of_getLsbD_eq
  intro i hi
  rw [BitVec.getLsbD_and]
  interval_cases i <;> simp only [BitVec.getLsbD_append] <;> simp

end Sys2Proof.Laws.TableRow
end

