-- ==== Sys2Proof/Tests/Slice0.lean ====
section
/-! SUPPORT. The model's own tests. Words and expected results are the spec's: its encodings (30_encoding.md R90, R96, R97) and
its vectors (95_test_vectors.md V1 to V9). The witnesses of the statements' hypotheses stand in Tests/Witnesses.lean. -/
namespace Sys2Proof.Tests
open Sys2Proof Sys2Proof.Machine
set_option Elab.async false

/-! ## Well-formedness (30_encoding.md R98) -/

theorem test_wf_enc : (Instr.enc 7 1 0 7 1).wellFormed defaultParams = true ∧ (Instr.enc 9 4 1 12 0).wellFormed defaultParams = true := by decide
theorem test_illformed_enc_bw : (Instr.enc 10 1 0 7 1).wellFormed defaultParams = false := by decide
theorem test_illformed_enc_cr : (Instr.enc 7 0 0 7 1).wellFormed defaultParams = false ∧ (Instr.enc 7 5 0 7 1).wellFormed defaultParams = false := by decide
theorem test_illformed_enc_sf : (Instr.enc 7 1 0 5 1).wellFormed defaultParams = false ∧ (Instr.enc 7 1 0 13 1).wellFormed defaultParams = false := by decide
theorem test_wf_mode : (Instr.mode 5).wellFormed defaultParams = true := by decide
theorem test_illformed_mode : (Instr.mode 2).wellFormed defaultParams = false := by decide
theorem test_wf_smdm : (Instr.smdm 0x72 0x74).wellFormed defaultParams = true := by decide
theorem test_illformed_smdm_bw : (Instr.smdm 0xA2 0x74).wellFormed defaultParams = false := by decide
theorem test_illformed_smdm_cr : (Instr.smdm 0x70 0x74).wellFormed defaultParams = false := by decide
theorem test_illformed_smdm_sf : (Instr.smdm 0x72 0x54).wellFormed defaultParams = false := by decide
theorem test_illformed_smdm_bit3 : (Instr.smdm 0x72 0x7C).wellFormed defaultParams = false := by decide
theorem test_illformed_smdm_bits10 :
    (Instr.smdm 0x72 0x75).wellFormed defaultParams = false ∧ (Instr.smdm 0x72 0x76).wellFormed defaultParams = false := by decide

/-! ## Decoding: each row's word, written field by field from its format (30_encoding.md R96, R90) -/

theorem test_decode_enc : decodeTableWord 32 0b0001_0111_001_0_0111_1_000000000000000 = some (.enc 7 1 0 7 1) := by decide
theorem test_decode_enc_largest : decodeTableWord 32 0x199C8000 = some (.enc 9 4 1 12 1) := by decide
theorem test_decode_encp : decodeTableWord 32 0b0010_00000000000000000000000000_11 = some (.encp 3) := by decide
theorem test_decode_f2r : decodeTableWord 32 0x30000000 = some .f2r := by decide
theorem test_decode_r2f : decodeTableWord 32 0b0100_0000_11011001_00000110_01100110 = some (.r2f 0xD9 0x06 0x66) := by decide
theorem test_decode_irqd : decodeTableWord 32 0b0101_00000000000000000000_01000000 = some (.irqd 0x40) := by decide
theorem test_decode_snrc : decodeTableWord 32 0x600000EC = some (.snrc 0xEC) := by decide
theorem test_decode_rssic : decodeTableWord 32 0x70000064 = some (.rssic 0x64) := by decide
theorem test_decode_rd : decodeTableWord 32 0b1000_0000000000000_1000010_00000000 = some (.rd 0x42) := by decide
theorem test_decode_wr : decodeTableWord 32 0b1001_0000000000000_0010010_11111111 = some (.wr 0x12 0xFF) := by decide
theorem test_decode_brd : decodeTableWord 32 0b1010_0000000000000_0000000_00000101 = some (.brd 0x00 5) := by decide
theorem test_decode_mode : decodeTableWord 32 0xB0000005 = some (.mode 5) := by decide
theorem test_decode_sfrq : decodeTableWord 32 0xC0000000 = some .sfrq := by decide
theorem test_decode_smdm : decodeTableWord 32 0xD0007274 = some (.smdm 0x72 0x74) := by decide
theorem test_decode_init : decodeTableWord 32 0xE0000000 = some (.init 0) := by decide
theorem test_decode_busRd : decodeTableWord 16 0b0_1000010_00000000 = some (.busRd 0x42) := by decide
theorem test_decode_busWr : decodeTableWord 16 0b1_0010010_11111111 = some (.busWr 0x12 0xFF) := by decide

theorem test_reject_reserved_op :
    decodeCommand 0x00000000 = .error (.reservedOp 0x0) ∧ decodeCommand 0xF0000000 = .error (.reservedOp 0xF) := ⟨rfl, rfl⟩
theorem test_reject_mbz : decodeCommand 0x17278001 = .error (.mbzSet 0x1) ∧ decodeCommand 0x20000004 = .error (.mbzSet 0x2) ∧
    decodeCommand 0x30000001 = .error (.mbzSet 0x3) ∧ decodeCommand 0x41000000 = .error (.mbzSet 0x4) ∧
    decodeCommand 0x50000140 = .error (.mbzSet 0x5) ∧ decodeCommand 0x600001EC = .error (.mbzSet 0x6) ∧
    decodeCommand 0x80004201 = .error (.mbzSet 0x8) ∧ decodeCommand 0x8000C200 = .error (.mbzSet 0x8) ∧
    decodeCommand 0xB0000008 = .error (.mbzSet 0xB) := ⟨rfl, rfl, rfl, rfl, rfl, rfl, rfl, rfl, rfl⟩
theorem test_reject_unknown_frame : decodeFrame 0x4201 = .error .unknownFrame := rfl
/-- No two rows of the operation map meet: on the bits both fix, they differ. -/
theorem test_rows_do_not_overlap :
    commandRows.Pairwise fun r q => r.value &&& (r.mask &&& q.mask) ≠ q.value &&& (r.mask &&& q.mask) := by decide
theorem test_encode_words : encode (.enc 7 1 0 7 1) = .command 0x17278000 ∧ encode (.wr 0x12 0xFF) = .command 0x900012FF ∧
    encode (.smdm 0x72 0x74) = .command 0xD0007274 ∧ encode (.busRd 0x42) = .frame 0x4200 ∧
    encode (.busWr 0x12 0xFF) = .frame 0x92FF := by decide

/-! ## Assembly (30_encoding.md R120 to R123) -/

theorem test_assemble_wr : assembleLine defaultParams "WR IRQ_FLAGS, 0xFF ; ack".toList = some (.command (.wr 0x12 0xFF) none) := by decide
theorem test_assemble_apply : assembleLine defaultParams "APPLY slow_long_2".toList = some (.command (.smdm 0x78 0xC4) none) := by decide
theorem test_assemble_enc : assembleLine defaultParams "ENC bw=125k, cr=4/5, hm=explicit, sf=7, crc=on".toList =
    some (.command (.enc 7 1 0 7 1) none) := by decide

theorem test_assemble_blanks : assembleLine defaultParams "RD\t VERSION".toList = some (.command (.rd 0x42) none) ∧
    assembleLine defaultParams " @timer \t low".toList = some (.events [.timerLow]) := by decide
theorem test_assemble_mhz : parseRational "868.1".toList = some (8681 / 10) ∧ parseRational "868.".toList = none ∧
    parseRational ".5".toList = none := by decide +kernel

/-! ## One step of each instruction (95_test_vectors.md V2 to V7)

`placed w` is the reset state with the word `w` on the port; `framed w answers` is it with the frame `w` next on the bus. -/

/-- The reset state with the command word `w` where the next step takes it. -/
def placed (w : Nat) : State := State.reset.withFetchWord 32 w

/-- The same, with MHZ_IN `q`. -/
def placedAt (q : Rat) (w : Nat) : State := { State.reset with mhzIn := .rational q }.withFetchWord 32 w

/-- The reset state with the frame `w` as the next transaction, and the transport's answers. -/
def framed (w : Nat) (answers : List Answer) : State := { (State.reset.withFetchWord 16 w) with answers := answers }

/-- What a view of the next state shows; `none` where the step stops. -/
def seen {α : Type} (view : State → α) (s : State) : Option α :=
  match step s with
  | .next t => some (view t)
  | .fault _ => none
  | .refused _ => none

/-- The transport's answer of two bytes with the data byte `d`. -/
def ans (d : Byte) : Answer := ⟨2, [0x00, d]⟩

theorem test_enc : seen (fun t => t.resp.result) (placed 0x17278000) = some (.config 0x72 0x74) := by decide
theorem test_enc_reserved_sf : seen (fun t => (t.resp.result, t.err)) (placed 0x17258000) = some (.empty, 0x000101E4) := by decide
theorem test_encp : seen (fun t => t.resp.result) (placed 0x20000003) = some (.config 0x78 0xC4) := by decide
theorem test_f2r : seen (fun t => t.resp.result) (placedAt (8681 / 10) 0x30000000) = some (.f2r 0xD90666 0xD9 0x06 0x66) := by
  decide +kernel
theorem test_f2r_range : seen (fun t => t.err) (placedAt 1024 0x30000000) = some 0x000001E5 := by decide +kernel
theorem test_r2f : seen (fun t => t.resp.result) (placed 0x40D90666) = some (.r2f (8680999755859375 / 10000000000000)) := by
  decide +kernel
theorem test_irqd : seen (fun t => t.resp.result) (placed 0x50000040) = some (.irqd 0x240 0x40) := by decide
theorem test_irqd_cadClear : seen (fun t => t.resp.result) (placed 0x50000004) = some (.irqd 0x304 0x04) := by decide
theorem test_snrc : seen (fun t => t.resp.result) (placed 0x600000EC) = some (.snrc (-20) (-5)) := by decide +kernel
theorem test_snrc_lowest : seen (fun t => t.resp.result) (placed 0x60000040) = some (.snrc (-64) (-16)) := by decide +kernel
theorem test_rssic : seen (fun t => t.resp.result) (placed 0x70000064) = some (.rssic (-37)) := by decide
theorem test_rd : seen (fun t => (t.job, t.busy, t.step)) (placed 0x80004200) = some (some ⟨.rd, [.read 0x42], []⟩, true, .cmd) := by decide
theorem test_rd_halted : seen (fun t => (t.err, t.busy)) { (placed 0x80004200) with phase := .halted } = some (0x000801E6, false) := by decide
theorem test_wr : seen (fun t => (selectFrame t).map Frame.b0) (placed 0x900012FF) = some (some 0x92) := by decide
theorem test_brd_source : seen (fun t => t.job) (placed 0xA0000005) =
    some (some ⟨.brd, [.read 0, .read 0, .read 0, .read 0], []⟩) := by decide
theorem test_brd_one : seen (fun t => (t.resp.result, t.busy)) (placed 0xA0000001) = some (.brd [], false) := by decide
theorem test_mode : seen (fun t => (selectFrame t).map fun f => (f.b0, f.b1)) (placed 0xB0000005) = some (some (0x81, 0x85)) := by decide
theorem test_mode_reserved : seen (fun t => t.err) (placed 0xB0000002) = some 0x000B01E4 := by decide
theorem test_sfrq : seen (fun t => t.job.map fun j => j.todo.map fun f => (f.b0, f.b1)) (placedAt (8681 / 10) 0xC0000000) =
    some (some [(0x86, 0xD9), (0x87, 0x06), (0x88, 0x66)]) := by decide +kernel
theorem test_smdm : seen (fun t => t.job.map fun j => j.todo.map fun f => (f.b0, f.b1)) (placed 0xD0007274) =
    some (some [(0x9D, 0x72), (0x9E, 0x74)]) := by decide
theorem test_smdm_reserved : seen (fun t => t.err) (placed 0xD000727C) = some 0x000D01E4 := by decide
theorem test_init : seen (fun t => (t.phase, t.step, t.rstN, t.frf.value, t.history)) (placedAt 868 0xE0000000) =
    some (.idle, .i0Rst, false, 0xD90000, [.cmd 0xE0000000, .rst false]) := by decide +kernel
theorem test_init_range : seen (fun t => (t.err, t.history)) (placedAt 2000 0xE0000000) =
    some (0x000001E5, [.cmd 0xE0000000, .err 0x000001E5]) := by decide +kernel
theorem test_busRd : seen (fun t => (t.resp.result, t.err, t.busy)) (framed 0x4200 [ans 0x12]) = some (.rd 0x12, 0, false) := by decide
theorem test_busRd_short : seen (fun t => t.err) (framed 0x4200 [⟨2, [0x12]⟩]) = some 0x000285E1 := by decide
theorem test_busWr : seen (fun t => (t.resp.result, t.history)) (framed 0x92FF [ans 0]) =
    some (.wr 0, [.bus 0x92 0xFF 2 [0x00, 0x00]]) := by decide
theorem test_busWr_negative : seen (fun t => t.err) (framed 0xC200 [⟨-1, []⟩]) = some 0x000085E1 := by decide
theorem test_illegal_word : seen (fun t => (t.err, t.history)) (placed 0xF0000000) =
    some (0x000F01E4, [.cmd 0xF0000000, .err 0x000F01E4]) := by decide

/-- SHUTDOWN during WR's only transaction: its BUS event, then RST(0); RESP and ERR are not written (60_exceptions.md R292). -/
theorem test_shutdown_in_flight : seen (fun t => (t.phase, t.busy, t.resp.result, t.history))
    { (framed 0x92FF [ans 0]) with inputs := [.shutdownInFlight] } =
    some (.halted, false, .empty, [.bus 0x92 0xFF 2 [0x00, 0x00], .rst false]) := by decide
/-- INIT's Sleep write done: MODE's last three lines, RESP.opmode among them (43_mode.md R191). -/
theorem test_init_sleep : seen (fun t => (t.modev, t.mode, t.resp.result, t.step))
    { State.reset with busy := true, step := .i2Sleep, answers := [ans 0] } =
    some (true, 0, .mode 0x80, .i3aTxb) := by decide

/-! ## The receive arithmetic, CHIP_REF and reset -/

theorem test_sx7 : sx7 0x7F = -1 ∧ sx7 0x01 = 1 ∧ snrConv 0x80 = 0 ∧ snrConv 0xC0 = -64 ∧ snrConv 0x3F = 63 := by decide
theorem test_cnt16 : cnt16 0x01 0x02 = 258 ∧ cnt16 0xFF 0xFF = 65535 := by decide
theorem test_hsplit : hsplit [1, 2, 3] = none ∧ hsplit [1, 2, 3, 4] = some (⟨1, 2, 3, 4⟩, []) := by decide
theorem test_binary64 : f2rFun { defaultParams with freqArith := .binary64 } (.rational (8681 / 10)) = some 0xD90666 := by decide +kernel
theorem test_framing_error : seen (fun t => (t.svcErr.code, t.svcErr.aux, t.step))
    { State.reset with phase := .run, busy := true, owner := .service, step := .s4Split, buf := Reg.holding [7, 7, 7] } =
    some (.framing, 3, .s8Ack) := by decide
theorem test_ack_ends_service : seen (fun t => (t.err, t.busy, t.history))
    { State.reset with phase := .run, busy := true, owner := .service, step := .s8Ack,
                       svcErr := ⟨.framing, false, .s4Split, 0, 3⟩, answers := [⟨0, []⟩] } =
    some (0x0003006B, false, [.bus 0x92 0xFF 0 [], .err 0x0003006B]) := by decide
theorem test_chip_clears_flags :
    (((RefChip.blank.setReg 0x12 0x40).exchange defaultParams (.write 0x12 0xFF)).2.readReg 0x12) = 0x00 := by decide
theorem test_status_after_init :
    State.status { State.reset with phase := .run, modev := true, mode := 5 } = 0x0161 := by decide
theorem reset_stateOk : stateOk State.reset = true := by decide

end Sys2Proof.Tests
end

