-- ==== Sys2Proof/Tests/Witnesses.lean ====
section
/-! SUPPORT. For each statement of Certificates/Slice0/Obligations.lean that has hypotheses, and for each of its clauses, a
concrete state and operands that meet them all together: `witness_<statement>` shows the hypotheses of that statement. -/
namespace Sys2Proof.Tests
open Sys2Proof Sys2Proof.Machine
set_option Elab.async false

/-! ## States -/

/-- The block in RUN with the lock free. -/
def running : State := { State.reset with phase := .run, modev := true, mode := 5 }

/-- `running` with an edge pending. -/
def pending : State := { running with pend := true }

/-- `running` with every working register written. -/
def written : State :=
  { running with
    irq := Reg.holding 0x40, len := Reg.holding 5, cur := Reg.holding 0, cnt := Reg.holding 0, buf := Reg.holding [],
    hdr := Reg.holding ⟨1, 2, 3, 4⟩, pay := Reg.holding [], tmp := Reg.holding 1, hdrcnt := Reg.holding 5,
    pktcnt := Reg.holding 4, snrq := Reg.holding 40, rssi := Reg.holding (-37), ver := Reg.holding 0x12,
    frf := Reg.holding 0xD90000, cfg1 := Reg.holding 0x72, cfg2 := Reg.holding 0x74 }

/-- A service at the step `st`, with the transport's answers. -/
def inService (st : SeqStep) (answers : List Answer) : State :=
  { written with busy := true, owner := .service, step := st, answers := answers }

/-- INIT at the step `st`, with the transport's answers. -/
def inInit (st : SeqStep) (answers : List Answer) : State :=
  { written with phase := .idle, busy := true, owner := .command, step := st, answers := answers }

/-- A command with the frames `todo` still to exchange, with the transport's answers. -/
def inCommand (kind : JobKind) (todo : List Frame) (answers : List Answer) : State :=
  { running with busy := true, step := .cmd, job := some ⟨kind, todo, []⟩, answers := answers }

/-- The lock free, with the transport's answers. -/
def answering (answers : List Answer) : State := { running with answers := answers }

/-- An answer that TransportError is raised for. -/
def bad : Answer := ⟨1, [0x00]⟩

/-- The machine with Binary64 frequency arithmetic. -/
def float64 (s : State) : State := { s with cfg := { s.cfg with freqArith := .binary64 } }

/-- The machine with the Corrected burst count. -/
def corrected (s : State) : State := { s with cfg := { s.cfg with burstMode := .corrected } }

/-- The machine with MHZ_IN `q`. -/
def tuned (q : Rat) (s : State) : State := { s with mhzIn := .rational q }

/-! ## Encoding -/

theorem witness_DecodeAndEncodeAgree : decode (.command 0x17278000) = .ok (.enc 7 1 0 7 1) ∧ decode (.frame 0x92FF) = .ok (.busWr 0x12 0xFF) :=
  ⟨rfl, rfl⟩

theorem witness_WordSelectsRow : decodeCommand 0x80004200 = .ok (.rd 0x42) ∧ ∃ r ∈ commandRows, 0x80004200#32 &&& r.mask = r.value :=
  ⟨rfl, by decide⟩

theorem witness_OnlyLegalFramesEmitted : (0x92FF#16).getLsbD 15 = true ∧
    ((0x4200#16).getLsbD 15 = false ∧ (0x4200#16).extractLsb' 0 8 = 0#8) ∧
    ((0x4201#16).getLsbD 15 = false ∧ (0x4201#16).extractLsb' 0 8 ≠ 0#8) := by decide

theorem witness_OnlyLegalFramesEmitted_step : framesLegal (inService .s0Irq [ans 0]).history ∧
    ∃ t, step (inService .s0Irq [ans 0]) = .next t ∧ t.history = [.bus 0x12 0x00 2 [0x00, 0x00]] :=
  ⟨by simp [framesLegal, inService, written, running, State.reset], _, rfl, rfl⟩

/-! ## Reset and the step around exec -/

theorem witness_BlockResetResets : { (inService .s3Burst [ans 1]) with inputs := [.blockReset, .quiet] }.inputs = .blockReset :: [.quiet] := rfl

theorem witness_StepRunsOfferedCommand : free (placed 0x80004200) ∧ (placed 0x80004200).port = [⟨0x80004200, .rational 0⟩] ∧
    ¬ ((placed 0x80004200).pend = true ∧ (placed 0x80004200).phase = .run) ∧ decode (.command 0x80004200) = .ok (.rd 0x42) :=
  ⟨⟨rfl, rfl⟩, rfl, by decide, rfl⟩

theorem witness_StepRunsSelectedFrame : (inService .s8Ack []).busy = true ∧ (inService .s8Ack []).inputs = [] ∧
    selectFrame (inService .s8Ack []) = some (.write 0x12 0xFF) := ⟨rfl, rfl, rfl⟩

theorem witness_DueInputIsTheStep : { running with inputs := [.quiet] }.inputs = .quiet :: [] ∧
    { running with inputs := [.irqSample true] }.inputs = .irqSample true :: [] ∧ Input.irqSample true ≠ .quiet ∧
    Input.irqSample true ≠ .shutdownInFlight := by decide

theorem witness_DueInputIsTheStep_offer : { running with inputs := [.offer ⟨0x30000000, .rational 868⟩] }.inputs =
    .offer ⟨0x30000000, .rational 868⟩ :: [] := rfl

/-- A SHUTDOWN in flight is due, but the lock is free, or the service is at S4_SPLIT: no transaction is in flight. -/
theorem witness_DueInputIsTheStep_atRest : { running with inputs := [.shutdownInFlight] }.inputs = .shutdownInFlight :: [] ∧
    { running with inputs := [.shutdownInFlight] }.busy = false ∧
    { (inService .s4Split []) with inputs := [.shutdownInFlight] }.busy = true ∧
    selectFrame { (inService .s4Split []) with inputs := [.shutdownInFlight] } = none := ⟨rfl, rfl, rfl, rfl⟩

theorem witness_UndecodableWordIsIllegal : free (placed 0x80004201) ∧ (placed 0x80004201).port = [⟨0x80004201, .rational 0⟩] ∧
    ¬ ((placed 0x80004201).pend = true ∧ (placed 0x80004201).phase = .run) ∧
    decode (.command 0x80004201) = .error (.mbzSet 0x8) := ⟨⟨rfl, rfl⟩, rfl, by decide, rfl⟩

theorem witness_WaitsChangeNothing : free running ∧ running.port = [] ∧ ¬ (running.pend = true ∧ running.phase = .run) :=
  ⟨⟨rfl, rfl⟩, rfl, by decide⟩

theorem witness_WaitsChangeNothing_busy : (inService .s0Irq []).busy = true ∧ (∀ a, Instr.f2r ≠ .busRd a) ∧
    ∀ a v, Instr.f2r ≠ .busWr a v := ⟨rfl, nofun, nofun⟩

/-- An edge pending and a command on the port, with the grant `g` next. -/
def contended (g : Agent) : State := { pending with port := [⟨0x30000000, .rational 868⟩], grants := [g] }

theorem witness_EitherAgentMayTakeTheLock : ∀ g : Agent, free (contended g) ∧ (contended g).port = ⟨0x30000000, .rational 868⟩ :: [] ∧
    (contended g).pend = true ∧ (contended g).phase = .run ∧ (contended g).grants = g :: [] ∧
    decode (.command 0x30000000) = .ok .f2r := fun _ => ⟨⟨rfl, rfl⟩, rfl, rfl, rfl, rfl, rfl⟩

/-- The same, with the undecodable word on the port. -/
def contendedIllegal : State := { pending with port := [⟨0x80004201, .rational 0⟩], grants := [.command] }

theorem witness_EitherAgentMayTakeTheLock_illegal : free contendedIllegal ∧ contendedIllegal.port = ⟨0x80004201, .rational 0⟩ :: [] ∧
    contendedIllegal.pend = true ∧ contendedIllegal.phase = .run ∧ contendedIllegal.grants = .command :: [] ∧
    decode (.command 0x80004201) = .error (.mbzSet 0x8) := ⟨⟨rfl, rfl⟩, rfl, rfl, rfl, rfl, rfl⟩

/-! ## Pure commands -/

theorem witness_EncEncodesRawCodes : running.busy = false ∧ 0x10560000#32 &&& 0xF0007FFF#32 = 0x10000000#32 ∧
    ((0#4).toNat ≤ 9 ∧ 1 ≤ (1#3).toNat ∧ (1#3).toNat ≤ 4 ∧ 6 ≤ (6#4).toNat ∧ (6#4).toNat ≤ 12) ∧
    ((9#4).toNat ≤ 9 ∧ 1 ≤ (4#3).toNat ∧ (4#3).toNat ≤ 4 ∧ 6 ≤ (12#4).toNat ∧ (12#4).toNat ≤ 12) := by decide

theorem witness_EncEncodesRawCodes_reserved : ∀ f ∈ [(10#4, 1#3, 7#4), (7#4, 0#3, 7#4), (7#4, 5#3, 7#4), (7#4, 1#3, 5#4), (7#4, 1#3, 13#4)],
    ¬ (f.1.toNat ≤ 9 ∧ 1 ≤ f.2.1.toNat ∧ f.2.1.toNat ≤ 4 ∧ 6 ≤ f.2.2.toNat ∧ f.2.2.toNat ≤ 12) := by decide +kernel

theorem witness_EncpEncodesPreset : running.busy = false ∧ defaultParams.bwCode = defaultBwCode ∧ defaultParams.crCode = defaultCrCode :=
  ⟨rfl, rfl, rfl⟩

theorem witness_UnpackUndoesPack : (∀ b b', bwCodeOf defaultParams b = bwCodeOf defaultParams b' → b = b') ∧
    (∀ r r', crCodeOf defaultParams r = crCodeOf defaultParams r' → r = r') ∧
    (∀ b, (bwCodeOf defaultParams b).toNat ≤ 9) ∧ (∀ r, 1 ≤ (crCodeOf defaultParams r).toNat ∧ (crCodeOf defaultParams r).toNat ≤ 4) ∧
    (6 ≤ (6#4).toNat ∧ (6#4).toNat ≤ 12) ∧ (6 ≤ (12#4).toNat ∧ (12#4).toNat ≤ 12) :=
  ⟨by intro b b'; cases b <;> cases b' <;> decide, by intro r r'; cases r <;> cases r' <;> decide, by intro b; cases b <;> decide,
    by intro r; cases r <;> decide, by decide, by decide⟩

theorem witness_UnpackUndoesPack_bytes : unpack defaultParams 0x99 0xC4 = some ⟨.khz500, .cr4of8, .implicit, 12, true⟩ ∧
    unpack defaultParams 0x02 0x60 = some ⟨.khz7p8, .cr4of5, .explicit, 6, false⟩ := by decide

theorem witness_F2rConvertsOrRaisesRange : (tuned 0 running).busy = false ∧
    freqQuotient .exact (tuned 0 running).mhzIn = some 0 ∧
    freqQuotient .exact (.rational (16777215 / 16384)) = some 16777215 := ⟨rfl, by decide +kernel, by decide +kernel⟩

theorem witness_F2rConvertsOrRaisesRange_range : freqQuotient .exact (.rational 1024) = some 16777216 ∧
    freqQuotient .exact (.rational (-1 / 2)) = some (-8192) ∧ freqQuotient .exact (.binary64 0x7FF0000000000000) = none :=
  ⟨by decide +kernel, by decide +kernel, by decide +kernel⟩

theorem witness_F2rConvertsOrRaisesRange_binary64 : (float64 { running with mhzIn := .binary64 0x408B20CCCCCCCCCD }).busy = false ∧
    (float64 { running with mhzIn := .binary64 0x408B20CCCCCCCCCD }).cfg.freqArith = .binary64 ∧
    { running with mhzIn := .binary64 0x408B20CCCCCCCCCD }.mhzIn = .binary64 0x408B20CCCCCCCCCD ∧ running.cfg.freqArith = .exact ∧
    (tuned 1024 running).mhzIn = .rational 1024 := ⟨rfl, rfl, rfl, rfl, rfl⟩

theorem witness_R2fConverts : running.busy = false ∧ running.cfg.freqArith = .exact ∧ (float64 running).busy = false ∧
    (float64 running).cfg.freqArith = .binary64 := ⟨rfl, rfl, rfl, rfl⟩

theorem witness_FrequencyRoundTrips : defaultParams.freqArith = .exact ∧ (0 : Rat) ≤ 0 ∧ (0 : Rat) < 1024 ∧
    (0 : Rat) ≤ 16777215 / 16384 ∧ (16777215 / 16384 : Rat) < 1024 := by decide +kernel

theorem witness_IrqdDecodesFlags : running.busy = false ∧ (irqDecode 0x40).valid = true ∧ (irqDecode 0x00).valid = false := by decide

theorem witness_SnrcConverts : running.busy = false ∧ (0x3F#8).toNat % 128 < 64 ∧ 64 ≤ (0x40#8).toNat % 128 := by decide

theorem witness_RssicConverts : running.busy = false := rfl

/-! ## Transactions and bus commands -/

theorem witness_ExchangeEmitsBusEvent : (answering [ans 1]).answers = ans 1 :: [] ∧
    { running with chip := some RefChip.blank }.answers = [] ∧ { running with chip := some RefChip.blank }.chip = some RefChip.blank :=
  ⟨rfl, rfl, rfl⟩

theorem witness_BusFramesCompleteCommands_rd : (inCommand .rd [.read 0x42] [ans 0x12]).step = .cmd ∧
    (inCommand .rd [.read 0x42] [ans 0x12]).owner = .command ∧ (inCommand .rd [.read 0x42] [ans 0x12]).answers = ans 0x12 :: [] ∧
    (inCommand .rd [.read 0x42] [ans 0x12]).job = some ⟨.rd, [.read 0x42], []⟩ ∧ ans 0x12 = ⟨2, [0x00, 0x12]⟩ :=
  ⟨rfl, rfl, rfl, rfl, rfl⟩

theorem witness_BusFramesCompleteCommands_wr : (inCommand .wr [.write 0x7F 0x00] [bad]).step = .cmd ∧
    (inCommand .wr [.write 0x7F 0x00] [bad]).owner = .command ∧ (inCommand .wr [.write 0x7F 0x00] [bad]).answers = bad :: [] ∧
    (inCommand .wr [.write 0x7F 0x00] [bad]).job = some ⟨.wr, [.write 0x7F 0x00], []⟩ ∧ answerGood bad = false :=
  ⟨rfl, rfl, rfl, rfl, rfl⟩

theorem witness_BusFramesCompleteCommands_aux : (0 ≤ (0 : Int) ∧ (255 : Int) ≤ 255) ∧ (-1 : Int) < 0 ∧ (255 : Int) < 256 := by decide

theorem witness_RdReadsOneByte : freeForBus (answering [ans 0x12]) ∧ (answering [ans 0x12]).answers = ⟨2, [0x00, 0x12]⟩ :: [] :=
  ⟨⟨rfl, rfl, by decide⟩, rfl⟩

theorem witness_WrWritesOneByte : freeForBus (answering [ans 0]) ∧ (answering [ans 0]).answers = ⟨2, [0x00, 0x00]⟩ :: [] :=
  ⟨⟨rfl, rfl, by decide⟩, rfl⟩

theorem witness_BrdReadsBurst_none : freeForBus running ∧ running.cfg.burstMode = .source ∧ (0#8).toNat - 1 = 0 ∧ (1#8).toNat - 1 = 0 ∧
    (corrected running).cfg.burstMode = .corrected ∧ (0#8).toNat = 0 := ⟨⟨rfl, rfl, by decide⟩, rfl, rfl, rfl, rfl, rfl⟩

theorem witness_BrdReadsBurst : freeForBus (answering [ans 9]) ∧ (answering [ans 9]).cfg.burstMode = .source ∧ 0 < (2#8).toNat - 1 ∧
    (answering [ans 9]).answers = [ans 9] ++ [] ∧ [ans 9].length = (2#8).toNat - 1 ∧ ∀ x ∈ [ans 9], answerGood x = true :=
  ⟨⟨rfl, rfl, by decide⟩, rfl, by decide, rfl, rfl, by decide⟩

theorem witness_ModeWritesOpMode : freeForBus (answering [ans 0]) ∧
    (∀ m ∈ [0#3, 1#3, 5#3], m = defaultParams.modeCode.sleep ∨ m = defaultParams.modeCode.standby ∨
      m = defaultParams.modeCode.receiveContinuous) ∧
    (∀ m ∈ [2#3, 3#3, 4#3, 6#3, 7#3], m ≠ defaultParams.modeCode.sleep ∧ m ≠ defaultParams.modeCode.standby ∧
      m ≠ defaultParams.modeCode.receiveContinuous) ∧
    answerGood (ans 0) = true ∧ answerGood bad = false :=
  ⟨⟨rfl, rfl, by decide⟩, by decide, by decide, by decide, by decide⟩

theorem witness_SfrqWritesThreeBytes : freeForBus (tuned 0 (answering [ans 0, ans 0, ans 0])) ∧ f2rFun defaultParams (.rational 0) = some 0 ∧
    f2rFun defaultParams (.rational 1024) = none ∧ answerGood (ans 0) = true :=
  ⟨⟨rfl, rfl, by decide⟩, by decide +kernel, by decide +kernel, by decide⟩

theorem witness_SmdmWritesTwoBytes : freeForBus (answering [ans 0, ans 0]) ∧
    (∀ c ∈ [(0x02#8, 0x60#8), (0x99#8, 0xC4#8)], c.1.toNat / 16 ≤ 9 ∧ 1 ≤ c.1.toNat / 2 % 8 ∧ c.1.toNat / 2 % 8 ≤ 4 ∧
      6 ≤ c.2.toNat / 16 ∧ c.2.toNat / 16 ≤ 12 ∧ c.2.getLsbD 3 = false ∧ c.2.getLsbD 1 = false ∧ c.2.getLsbD 0 = false) ∧
    ∀ c ∈ [(0xA2#8, 0x74#8), (0x70#8, 0x74#8), (0x7A#8, 0x74#8), (0x72#8, 0x54#8), (0x72#8, 0xD4#8), (0x72#8, 0x7C#8), (0x72#8, 0x76#8),
        (0x72#8, 0x75#8)],
      ¬ (c.1.toNat / 16 ≤ 9 ∧ 1 ≤ c.1.toNat / 2 % 8 ∧ c.1.toNat / 2 % 8 ≤ 4 ∧
        6 ≤ c.2.toNat / 16 ∧ c.2.toNat / 16 ≤ 12 ∧ c.2.getLsbD 3 = false ∧ c.2.getLsbD 1 = false ∧ c.2.getLsbD 0 = false) :=
  ⟨⟨rfl, rfl, by decide⟩, by simp, by simp⟩

/-- SMDM with its first write answered well and its second badly. -/
def smdmFailing : State := inCommand .smdm [.write 0x1D 0x72, .write 0x1E 0x74] [ans 0, bad]

theorem witness_FirstFailureEndsCommand : holdsAt .cmd smdmFailing ∧ smdmFailing.owner = .command ∧
    smdmFailing.job = some ⟨.smdm, [.write 0x1D 0x72] ++ .write 0x1E 0x74 :: [], []⟩ ∧ smdmFailing.answers = [ans 0] ++ bad :: [] ∧
    [ans 0].length = [Frame.write 0x1D 0x72].length ∧ (∀ x ∈ [ans 0], answerGood x = true) ∧ answerGood bad = false :=
  ⟨⟨rfl, rfl, rfl⟩, rfl, rfl, rfl, rfl, by decide, by decide⟩

theorem witness_RefusalsChangeOnlyRespAndErr : running.busy = false ∧ running.step = .none ∧ running.owner = .command ∧ running.job = none ∧
    (Instr.enc 10 1 0 7 1).wellFormed running.cfg = false ∧ f2rFun running.cfg (.rational 1024) = none ∧ running.phase ≠ .halted :=
  ⟨rfl, rfl, rfl, rfl, by decide, by decide +kernel, by decide⟩

theorem witness_RefusalsChangeOnlyRespAndErr_halted : { State.reset with phase := .halted }.busy = false ∧
    (Instr.init 0).wellFormed defaultParams = true ∧ usesBus (.init 0) = true ∧ { State.reset with phase := .halted }.phase = .halted :=
  ⟨rfl, rfl, rfl, rfl⟩

/-! ## The receive service -/

theorem witness_ServiceEntryTakesLock : free pending ∧ pending.port = [] ∧ pending.pend = true ∧ pending.phase = .run :=
  ⟨⟨rfl, rfl⟩, rfl, rfl, rfl⟩

theorem witness_RxDoneGatesService : holdsAt .s0Irq (inService .s0Irq [ans 0x40]) ∧ (inService .s0Irq [ans 0x40]).answers = ans 0x40 :: [] ∧
    answerGood (ans 0x40) = true ∧ (answerData (ans 0x40)).getLsbD 6 = true ∧ (answerData (ans 0xBF)).getLsbD 6 = false :=
  ⟨⟨rfl, rfl, rfl⟩, rfl, by decide, by decide, by decide⟩

theorem witness_LengthAndCursorSteps : ∀ st ∈ [SeqStep.s1Len, .s2aCur, .s2bPtr], (inService st [ans 255]).busy = true ∧
    (inService st [ans 255]).inputs = [] ∧ (inService st [ans 255]).step = st ∧ (inService st [ans 255]).answers = ans 255 :: [] ∧
    answerGood (ans 255) = true ∧ (inService st [ans 255]).cur.written = true := by decide

/-- S3_BURST about to begin with LEN `n`. -/
def burst (n : Byte) (answers : List Answer) : State := { (inService .s3Burst answers) with len := Reg.holding n }

theorem witness_BurstFillsBuffer : holdsAt .s3Burst (burst 2 [ans 7]) ∧ (burst 2 [ans 7]).len = Reg.holding 2 ∧
    (burst 2 [ans 7]).cnt = Reg.holding 0 ∧ (burst 2 [ans 7]).buf = Reg.holding [] ∧ (burst 2 [ans 7]).cfg.burstMode = .source ∧
    1 = (2#8).toNat - 1 ∧ (burst 2 [ans 7]).answers = [ans 7] ++ [] ∧ [ans 7].length = 1 ∧ ∀ x ∈ [ans 7], answerGood x = true :=
  ⟨⟨rfl, rfl, rfl⟩, rfl, rfl, rfl, rfl, rfl, rfl, rfl, by decide⟩

theorem witness_BurstFillsBuffer_none : ∀ n ∈ [0#8, 1#8], (burst n []).busy = true ∧ (burst n []).step = .s3Burst ∧
    (burst n []).len = Reg.holding n ∧ (burst n []).cfg.burstMode = .source ∧ 0 = n.toNat - 1 ∧ (burst n []).answers = [] ++ [] := by
  decide

theorem witness_BurstFillsBuffer_corrected : (corrected (burst 1 [ans 7])).cfg.burstMode = .corrected ∧ 1 = (1#8).toNat ∧
    (corrected (burst 1 [ans 7])).step = .s3Burst ∧ (corrected (burst 1 [ans 7])).answers = [ans 7] ++ [] := ⟨rfl, rfl, rfl, rfl⟩

/-- S4_SPLIT with the bytes `b` in BUF. -/
def splitting (b : List Byte) : State := { (inService .s4Split []) with buf := Reg.holding b }

theorem witness_SplitHeaderOrFramingError : holdsAt .s4Split (splitting [1, 2, 3, 4]) ∧ (splitting [1, 2, 3, 4]).buf.written = true ∧
    (splitting [1, 2, 3, 4]).buf.value = 1 :: 2 :: 3 :: 4 :: [] ∧ (splitting [1, 2, 3]).buf.value.length < 4 ∧
    (splitting [1, 2, 3]).owner = .service := ⟨⟨rfl, rfl, rfl⟩, rfl, rfl, by decide, rfl⟩

theorem witness_CountersAreAssembled : ∀ st ∈ [SeqStep.s5aHmsb, .s5bHlsb, .s5cPmsb, .s5dPlsb], (inService st [ans 255]).busy = true ∧
    (inService st [ans 255]).inputs = [] ∧ (inService st [ans 255]).step = st ∧ (inService st [ans 255]).answers = ans 255 :: [] ∧
    answerGood (ans 255) = true ∧ (inService st [ans 255]).tmp.written = true := by decide

theorem witness_PacketIsEmitted : ∀ st ∈ [SeqStep.s6Snr, .s7Rssi], (inService st [ans 255]).busy = true ∧
    (inService st [ans 255]).inputs = [] ∧ (inService st [ans 255]).step = st ∧ (inService st [ans 255]).answers = ans 255 :: [] ∧
    answerGood (ans 255) = true ∧ ∀ r ∈ [WorkReg.irq, .hdr, .pay, .hdrcnt, .pktcnt, .snrq], isWritten (inService st [ans 255]) r = true := by
  decide

theorem witness_AcknowledgementEndsService : holdsAt .s8Ack (inService .s8Ack [bad]) ∧ (inService .s8Ack [bad]).answers = bad :: [] ∧
    answerGood bad = false ∧ answerGood (ans 0) = true ∧ (inService .s8Ack [bad]).svcErr.code = .none ∧
    { (inService .s8Ack [bad]) with svcErr := ⟨.framing, false, .s4Split, 0, 3⟩ }.svcErr.code ≠ .none :=
  ⟨⟨rfl, rfl, rfl⟩, rfl, by decide, by decide, by decide, by decide⟩

theorem witness_ServiceErrorGoesToAck : ∀ st ∈ [SeqStep.s0Irq, .s1Len, .s2aCur, .s2bPtr, .s3Burst, .s5aHmsb, .s5bHlsb, .s5cPmsb, .s5dPlsb,
      .s6Snr, .s7Rssi],
    (inService st [bad]).busy = true ∧ (inService st [bad]).inputs = [] ∧ (inService st [bad]).owner = .service ∧ isReceive st = true ∧
    st ≠ .s8Ack ∧ (∀ r ∈ stepReads st, isWritten (inService st [bad]) r = true) ∧ (selectFrame (inService st [bad])).isSome = true ∧
    (inService st [bad]).answers = bad :: [] ∧ answerGood bad = false := by decide

/-- The answers of a service that receives four header bytes: LEN 5 under Source. -/
def packetAnswers : List Answer :=
  [ans 0x40, ans 5, ans 0, ans 0] ++ [ans 1, ans 2, ans 3, ans 4] ++ [ans 0, ans 5, ans 0, ans 4, ans 0x28, ans 0x64, ans 0]

theorem witness_ServiceDeliversPacket : free { pending with answers := packetAnswers } ∧ { pending with answers := packetAnswers }.port = [] ∧
    { pending with answers := packetAnswers }.pend = true ∧ { pending with answers := packetAnswers }.phase = .run ∧
    { pending with answers := packetAnswers }.answers = packetAnswers ++ [] ∧ (∀ x ∈ packetAnswers, answerGood x = true) ∧
    (answerData (ans 0x40)).getLsbD 6 = true ∧ [ans 1, ans 2, ans 3, ans 4].length = burstCount defaultParams.burstMode (answerData (ans 5)) ∧
    [ans 1, ans 2, ans 3, ans 4].map answerData = 1 :: 2 :: 3 :: 4 :: [] :=
  ⟨⟨rfl, rfl⟩, rfl, rfl, rfl, rfl, by decide, by decide, by decide, by decide⟩

/-! ## INIT -/

theorem witness_InitStartsWithResetPulse : freeForBus (tuned 868 running) ∧ f2rFun (tuned 868 running).cfg (tuned 868 running).mhzIn = some 0xD90000 :=
  ⟨⟨rfl, rfl, by decide⟩, by decide +kernel⟩

theorem witness_ResetPulseAwaitsTimers :
    { (inInit .i0Rst []) with rstN := false, inputs := [.timerLow] }.step = .i0Rst ∧
    { (inInit .i0Rst []) with rstN := false, inputs := [.timerLow] }.rstN = false ∧
    { (inInit .i0Rst []) with inputs := [.timerHigh] }.rstN = true ∧ { (inInit .i0Rst []) with inputs := [.timerHigh] }.step = .i0Rst ∧
    (inInit .i0Rst []).busy = true ∧ (inInit .i0Rst []).inputs = [] := ⟨rfl, rfl, rfl, rfl, rfl, rfl⟩

theorem witness_WrongVersionHalts : ∀ a ∈ [ans 0x12, ans 0x11, bad], (inInit .i1Ver [a]).busy = true ∧ (inInit .i1Ver [a]).inputs = [] ∧
    (inInit .i1Ver [a]).step = .i1Ver ∧ (inInit .i1Ver [a]).owner = .command ∧ (inInit .i1Ver [a]).answers = a :: [] := by decide

theorem witness_WrongVersionHalts_clauses : (answerGood (ans 0x12) = true ∧ answerData (ans 0x12) = defaultParams.expectedVersion) ∧
    (answerGood (ans 0x11) = true ∧ answerData (ans 0x11) ≠ defaultParams.expectedVersion) ∧ answerGood bad = false := by decide

theorem witness_InitWritesInOrder : ∀ st ∈ [SeqStep.i2Sleep, .i3aTxb, .i3bRxb, .i4aFmsb, .i4bFmid, .i4cFlsb, .i5aCfg1, .i5bCfg2, .i5sStdby],
    (inInit st [ans 0]).answers = ans 0 :: [] ∧ answerGood (ans 0) = true ∧ (inInit st [ans 0]).busy = true ∧ (inInit st [ans 0]).inputs = [] ∧
    (inInit st [ans 0]).step = st ∧ (inInit st [ans 0]).frf.written = true ∧ (inInit st [ans 0]).cfg1.written = true ∧
    (inInit st [ans 0]).cfg2.written = true := by decide

theorem witness_InitStopsAtTransportError : ∀ st ∈ [SeqStep.i1Ver, .i2Sleep, .i3aTxb, .i3bRxb, .i4aFmsb, .i4bFmid, .i4cFlsb, .i5aCfg1,
      .i5bCfg2, .i5sStdby, .i6Rxc],
    (inInit st [bad]).busy = true ∧ (inInit st [bad]).inputs = [] ∧ (inInit st [bad]).owner = .command ∧ isInit st = true ∧
    (∀ r ∈ stepReads st, isWritten (inInit st [bad]) r = true) ∧ (selectFrame (inInit st [bad])).isSome = true ∧
    (inInit st [bad]).answers = bad :: [] ∧ answerGood bad = false := by decide

/-- A whole INIT's start: the timers and the ten answers. -/
def initStart : State := { (tuned 868 State.reset) with inputs := [.timerLow, .timerHigh], answers := ans 0x12 :: List.replicate 9 (ans 0) }

theorem witness_InitReachesRun : initStart.busy = false ∧ initStart.phase ≠ .halted ∧ initStart.inputs = [.timerLow, .timerHigh] ∧
    f2rFun initStart.cfg initStart.mhzIn = some 0xD90000 ∧ initStart.cfg.initStandby = false ∧
    initStart.answers = (ans 0x12 :: List.replicate 9 (ans 0)) ++ [] ∧ (ans 0x12 :: List.replicate 9 (ans 0)).length = 10 ∧
    (∀ x ∈ ans 0x12 :: List.replicate 9 (ans 0), answerGood x = true) ∧
    ∀ a ∈ (ans 0x12 :: List.replicate 9 (ans 0)).head?, answerData a = initStart.cfg.expectedVersion :=
  ⟨rfl, by decide, rfl, by decide +kernel, rfl, rfl, rfl, by decide, by decide⟩

/-- The same with INIT_STANDBY: eleven answers. -/
def initStartStandby : State :=
  { initStart with cfg := { defaultParams with initStandby := true }, answers := ans 0x12 :: List.replicate 10 (ans 0) }

theorem witness_InitReachesRun_standby : initStartStandby.busy = false ∧ initStartStandby.phase ≠ .halted ∧
    initStartStandby.inputs = [.timerLow, .timerHigh] ∧ f2rFun initStartStandby.cfg initStartStandby.mhzIn = some 0xD90000 ∧
    initStartStandby.cfg.initStandby = true ∧ initStartStandby.answers = (ans 0x12 :: List.replicate 10 (ans 0)) ++ [] ∧
    (ans 0x12 :: List.replicate 10 (ans 0)).length = 11 ∧ (∀ x ∈ ans 0x12 :: List.replicate 10 (ans 0), answerGood x = true) ∧
    ∀ a ∈ (ans 0x12 :: List.replicate 10 (ans 0)).head?, answerData a = initStartStandby.cfg.expectedVersion :=
  ⟨rfl, by decide, rfl, by decide +kernel, rfl, rfl, rfl, by decide, by decide⟩

/-! ## The host's events and the whole machine -/

theorem witness_RisingEdgeSetsPend : { running with inputs := [.irqSample true] }.inputs = .irqSample true :: [] ∧
    { running with inputs := [.irqSample true] }.irqLine = false ∧ { running with inputs := [.irqSample true] }.phase ≠ .halted ∧
    { State.reset with phase := .halted, inputs := [.irqSample true] }.phase = .halted ∧
    { running with inputs := [.irqSample true], irqLine := true }.irqLine = true := by decide

theorem witness_ShutdownAbandons : { (inService .s3Burst [ans 1]) with inputs := [.shutdown] }.inputs = .shutdown :: [] ∧
    { running with inputs := [.shutdownInFlight] }.inputs = .shutdownInFlight :: [] ∧
    ∀ f, ¬ ({ running with inputs := [.shutdownInFlight] }.busy = true ∧
      selectFrame { running with inputs := [.shutdownInFlight] } = some f) := ⟨rfl, rfl, nofun⟩

theorem witness_ShutdownAbandons_inFlight : ∀ st ∈ [SeqStep.s0Irq, .s3Burst, .s7Rssi, .s8Ack],
    { (inService st [ans 1]) with inputs := [.shutdownInFlight] }.inputs = .shutdownInFlight :: [] ∧ (inService st [ans 1]).busy = true ∧
    (selectFrame (inService st [ans 1])).isSome = true ∧ (∀ r ∈ stepReads st, isWritten (inService st [ans 1]) r = true) ∧
    (inService st [ans 1]).answers = ans 1 :: [] := by decide

/-- HALTED, with a command on the port. -/
def haltedOffer : State := { State.reset with phase := .halted, port := [⟨0x80004200, .rational 0⟩] }

theorem witness_OnlyBlockResetLeavesHalted : stateOk haltedOffer = true ∧ haltedOffer.phase = .halted ∧
    (∃ t, step haltedOffer = .next t) ∧ haltedOffer.inputs.head? ≠ some .blockReset := ⟨by decide, rfl, ⟨_, rfl⟩, by decide⟩

theorem witness_RunOnlyEnteredByInit : (inInit .i6Rxc [ans 0]).phase ≠ .run ∧
    ∃ t, step (inInit .i6Rxc [ans 0]) = .next t ∧ t.phase = .run := ⟨by decide, _, rfl, rfl⟩

theorem witness_HistoryIsAppendOnly : (∃ t, step (inService .s0Irq [ans 0]) = .next t) ∧ (inService .s0Irq [ans 0]).inputs.head? ≠ some .blockReset ∧
    (∃ t, step { (inService .s0Irq []) with inputs := [.blockReset] } = .next t) ∧
    { (inService .s0Irq []) with inputs := [.blockReset] }.inputs.head? = some .blockReset := ⟨⟨_, rfl⟩, by decide, ⟨_, rfl⟩, rfl⟩

theorem witness_StepNeverMovesBackwards : stateOk (inService .s0Irq [ans 0x40]) = true ∧
    (∃ t, step (inService .s0Irq [ans 0x40]) = .next t ∧ t.step ≠ .none) ∧ (inService .s0Irq [ans 0x40]).busy = true :=
  ⟨by decide, ⟨_, rfl, by decide⟩, rfl⟩

theorem witness_StepNeverMovesBackwards_waits : stateOk (inInit .i0Rst []) = true ∧
    ∃ t, step (inInit .i0Rst []) = .next t ∧ t.step ≠ .none ∧ t.step = (inInit .i0Rst []).step := ⟨by decide, _, rfl, by decide, rfl⟩

theorem witness_OwnerKeepsTheLock : stateOk (inService .s0Irq [ans 0x40]) = true ∧ (inService .s0Irq [ans 0x40]).busy = true ∧
    ∃ t, step (inService .s0Irq [ans 0x40]) = .next t ∧ t.busy = true := ⟨by decide, rfl, _, rfl, rfl⟩

/-- An edge inside a service keeps PEND for the next one; a due edge leaves STEP in S0_IRQ. -/
theorem witness_OwnerKeepsTheLock_pend : stateOk { (inService .s1Len [ans 5]) with pend := true } = true ∧
    { (inService .s1Len [ans 5]) with pend := true }.busy = true ∧ { (inService .s1Len [ans 5]) with pend := true }.pend = true ∧
    (∃ t, step { (inService .s1Len [ans 5]) with pend := true } = .next t ∧ t.busy = true) ∧
    ∃ t, step { (inService .s0Irq []) with inputs := [.irqSample true] } = .next t ∧ t.busy = true ∧ t.step = .s0Irq :=
  ⟨by decide, rfl, rfl, ⟨_, rfl, rfl⟩, _, rfl, rfl, rfl⟩

/-- The step that frees the lock, with a word waiting on the port. -/
theorem witness_OwnerKeepsTheLock_frees : ∃ t, step { (inService .s8Ack [ans 0]) with port := [⟨0x80004200, .rational 0⟩] } = .next t ∧
    t.busy = false ∧ stateOk { (inService .s8Ack [ans 0]) with port := [⟨0x80004200, .rational 0⟩] } = true := ⟨_, rfl, rfl, by decide⟩

theorem witness_ParametersNeverChange : ∃ t, step running = .next t := ⟨_, rfl⟩

theorem witness_StepKeepsInvariant : ∀ st ∈ [SeqStep.s0Irq, .s3Burst, .s8Ack], stateOk (inService st [ans 0]) = true ∧
    (seen (fun t => t.busy) (inService st [ans 0])).isSome = true := by decide

theorem witness_NoWellFormedRunFaults : stateOk (inInit .i6Rxc [ans 0]) = true ∧ stateOk haltedOffer = true ∧ stateOk (contended .service) = true := by
  decide

theorem witness_NoWellFormedRunFaults_unwritten : WorkReg.cur ∈ stepReads { State.reset with busy := true, step := .s2bPtr }.step ∧
    isWritten { State.reset with busy := true, step := .s2bPtr } .cur = false := by decide

theorem witness_ReferenceChipAnswers : RefChip.blank.wf = true ∧ (RefChip.blank.setReg 0x12 0x40).wf = true ∧
    (0x12 : Addr) ≠ defaultParams.regAddr.fifo ∧ (0x00 : Addr) = defaultParams.regAddr.fifo ∧
    (0x0D : Addr) = defaultParams.regAddr.fifoAddrPtr ∧ (0x12 : Addr) = defaultParams.regAddr.irqFlags := by decide

end Sys2Proof.Tests
end

/-! What every step keeps of the past: the parameters (00_scope.md R7) and the history's events (00_scope.md R12). -/
namespace Sys2Proof.Machine

/-- The parameters are the same, and the later history begins with the earlier one. -/
def KeepsPast (s t : State) : Prop := t.cfg = s.cfg ∧ s.history <+: t.history

theorem KeepsPast.of_eq {s t : State} (hc : t.cfg = s.cfg) (hh : t.history = s.history) : KeepsPast s t :=
  ⟨hc, hh ▸ List.prefix_rfl⟩

theorem KeepsPast.of_append {s t : State} {h : List Event} (hc : t.cfg = s.cfg) (hh : t.history = s.history ++ h) :
    KeepsPast s t :=
  ⟨hc, hh ▸ List.prefix_append _ _⟩

theorem KeepsPast.trans {s t u : State} (h : KeepsPast s t) (g : KeepsPast t u) : KeepsPast s u :=
  ⟨g.1.trans h.1, h.2.trans g.2⟩

/-- What moves the block alone keeps the past. -/
theorem KeepsPast.of_moves {s t : State} (h : SameHost s t ∧ Grows s t) : KeepsPast s t := by
  obtain ⟨host, evs, hh, -⟩ := h
  exact .of_append host.cfg hh

theorem exchange_keepsPast (f : Frame) (s : State) : KeepsPast s (exchange f s).2 := by
  obtain ⟨as, d, c, l, bs, -, h⟩ := exchange_cases f s
  rw [h]
  exact .of_append rfl rfl

theorem performFrame_keepsPast (f : Frame) (s : State) : KeepsPast s (performFrame f s) := by
  unfold performFrame
  split
  · exact (exchange_keepsPast f s).trans (.of_moves (takeData_moves _ _))
  · exact (exchange_keepsPast f s).trans (.of_moves (takeError_moves _ _ _))

theorem shutdown_keepsPast (s : State) : KeepsPast s (shutdown s) := .of_append rfl rfl

/-- Every input event but BLOCK_RESET keeps the past. -/
theorem takeInput_keepsPast {e : Input} (he : e ≠ .blockReset) (s : State) : KeepsPast s (takeInput e s) := by
  cases e with
  | quiet => exact .of_eq rfl rfl
  | irqSample level =>
    simp only [takeInput, sampleIrq]
    split
    · exact .of_append rfl rfl
    · exact .of_eq rfl rfl
  | timerLow =>
    simp only [takeInput, timerLowDone]
    split
    · exact .of_append rfl rfl
    · exact .of_eq rfl rfl
  | timerHigh =>
    simp only [takeInput, timerHighDone]
    split <;> exact .of_eq rfl rfl
  | shutdown => exact shutdown_keepsPast s
  | shutdownInFlight => exact shutdown_keepsPast s
  | blockReset => exact absurd rfl he
  | offer o => exact .of_eq rfl rfl

theorem acceptOffer_keepsPast {o : Offer} {rest : List Offer} {s t : State} (hb : s.busy = false)
    (h : acceptOffer o rest s = .next t) : KeepsPast s t := by
  have hopen : ∀ cw, KeepsPast s (taken o rest cw s) := fun cw => .of_append rfl rfl
  obtain ⟨cw, ⟨r, e, rfl⟩ | ⟨-, k, f, fs, -, rfl⟩ | ⟨-, p, frf, rfl⟩⟩ := acceptOffer_cases hb h
  · exact (hopen cw).trans (.of_moves (completeCommand_moves r e _))
  · exact (hopen cw).trans (.of_eq rfl rfl)
  · exact (hopen cw).trans (.of_moves (startInit_moves p frf _))

/-- Every step but a due BLOCK_RESET keeps the past. -/
theorem step_keepsPast {s t : State} (h : step s = .next t) (hi : s.inputs.head? ≠ some .blockReset) : KeepsPast s t := by
  obtain ⟨e, rest, he, -, rfl⟩ | ⟨f, rest, -, -, -, -, rfl⟩ | ⟨r, hr, own⟩ := step_cases h
  · exact takeInput_keepsPast (s := { s with inputs := rest }) (by rintro rfl; simp [he] at hi)
  · exact (exchange_keepsPast f { s with inputs := rest }).trans (shutdown_keepsPast _)
  · have hs : KeepsPast s r := by
      obtain ⟨rfl, -⟩ | ⟨rest, -, rfl⟩ := hr <;> exact .of_eq rfl rfl
    refine hs.trans ?_
    obtain ⟨f, -, -, -, rfl⟩ | ⟨-, -, -, rfl⟩ | ⟨-, -, gs, n, rfl⟩ | ⟨hb, o, rest, gs, n, -, ha⟩ | ⟨-, -, -, rfl⟩ :=
      own
    · exact performFrame_keepsPast f r
    · exact .of_moves (internalStep_moves r)
    · exact .of_eq rfl rfl
    · have hg : KeepsPast r { r with grants := gs, grantDraws := n } := .of_eq rfl rfl
      exact hg.trans (acceptOffer_keepsPast hb ha)
    · exact .of_eq rfl rfl

/-- A due BLOCK_RESET is the step (70_reset_and_hazards.md R300). -/
theorem step_blockReset {s : State} (h : s.inputs.head? = some .blockReset) :
    ∃ rest, step s = .next (blockReset { s with inputs := rest }) := by
  obtain ⟨rest, hi⟩ := List.head?_eq_some_iff.1 h
  exact ⟨rest, by simp [step, nextStep, hi, takeInput]⟩

/-- Settles O53: after every step but BLOCK_RESET the history begins with the earlier one. -/
theorem historyIsAppendOnly : Obligations.HistoryIsAppendOnly := by
  intro s t h
  refine ⟨fun hi => ?_, fun hi => ?_⟩
  · obtain ⟨evs, hh⟩ := (step_keepsPast h hi).2
    exact ⟨evs, hh.symm⟩
  · obtain ⟨rest, hr⟩ := step_blockReset hi
    cases hr.symm.trans h
    rfl

/-- Settles O56: BLOCK_RESET keeps the parameters by its definition, every other step with the past. -/
theorem parametersNeverChange : Obligations.ParametersNeverChange := by
  intro s t h
  by_cases hi : s.inputs.head? = some .blockReset
  · obtain ⟨rest, hr⟩ := step_blockReset hi
    cases hr.symm.trans h
    rfl
  · exact (step_keepsPast h hi).1

end Sys2Proof.Machine

/-! From a well-formed state every step answers a next state (00_scope.md R11). -/
namespace Sys2Proof.Machine

/-- A register a step reads is one the invariant has written there. -/
theorem stepReads_subset_stepHolds (st : SeqStep) : stepReads st ⊆ stepHolds st := by
  cases st <;> simp [stepReads, stepHolds]

/-- In a well-formed state every register the current step reads is written. -/
theorem stepReads_written {s : State} (h : stateOk s = true) : ∀ r ∈ stepReads s.step, isWritten s r = true := by
  obtain ⟨-, hw, -⟩ := (stateOk_iff s).1 h
  exact fun r hr => List.all_eq_true.1 hw r (stepReads_subset_stepHolds _ hr)

theorem accept_answers (i : Instr) (f : State → State) (s : State) : ∃ t, accept i f s = .next t := by
  unfold accept
  split <;> exact ⟨_, rfl⟩

/-- Every instruction answers a next state where the registers the current step reads are written. -/
theorem exec_answers {s : State} (h : ∀ r ∈ stepReads s.step, isWritten s r = true) (i : Instr) :
    ∃ t, exec i s = .next t := by
  cases i with
  | busRd a => exact ⟨_, unlessUnwritten_written h _⟩
  | busWr a v => exact ⟨_, unlessUnwritten_written h _⟩
  | f2r => simp only [exec, execF2r]; exact accept_answers _ _ _
  | sfrq => simp only [exec, execSfrq]; exact accept_answers _ _ _
  | init p => simp only [exec, execInit]; exact accept_answers _ _ _
  | _ => exact accept_answers _ _ _

theorem acceptOffer_answers {s : State} (h : ∀ r ∈ stepReads s.step, isWritten s r = true) (o : Offer) (rest : List Offer) :
    ∃ t, acceptOffer o rest s = .next t := by
  unfold acceptOffer
  split
  · exact exec_answers (s := { s with port := rest, mhzIn := o.mhz }) h _
  · exact ⟨_, rfl⟩

theorem freeStep_answers {s : State} (h : ∀ r ∈ stepReads s.step, isWritten s r = true) : ∃ t, freeStep s = .next t := by
  have ha : ∀ r ∈ stepReads (arbitrate s).2.step, isWritten (arbitrate s).2 r = true := by
    unfold arbitrate
    split <;> exact h
  unfold freeStep
  split
  · exact ⟨_, rfl⟩
  · split
    · split
      · exact ⟨_, rfl⟩
      · exact acceptOffer_answers ha _ _
    · exact acceptOffer_answers h _ _

theorem ownStep_answers {s : State} (h : ∀ r ∈ stepReads s.step, isWritten s r = true) : ∃ t, ownStep s = .next t := by
  unfold ownStep
  split
  · unfold sequencerStep
    split
    · exact exec_answers h _
    · exact ⟨_, unlessUnwritten_written h _⟩
  · exact freeStep_answers h

theorem shutdownDuring_answers {s : State} (h : ∀ r ∈ stepReads s.step, isWritten s r = true) :
    ∃ t, shutdownDuring s = .next t := by
  unfold shutdownDuring
  split
  · exact ⟨_, unlessUnwritten_written h _⟩
  · exact ⟨_, rfl⟩

/-- Where the registers the current step reads are written, the step answers a next state. -/
theorem step_answers {s : State} (h : ∀ r ∈ stepReads s.step, isWritten s r = true) : ∃ t, step s = .next t := by
  unfold step nextStep
  split
  · exact ownStep_answers h
  · rename_i rest _
    exact ownStep_answers (s := { s with inputs := rest }) h
  · rename_i rest _
    exact shutdownDuring_answers (s := { s with inputs := rest }) h
  · exact ⟨_, rfl⟩

/-- Where the current step reads an unwritten register, the check stops with such a register (93 U16). -/
theorem unlessUnwritten_faults {s : State} {r : WorkReg} (hr : r ∈ stepReads s.step) (hw : isWritten s r = false) (t : State) :
    ∃ q ∈ stepReads s.step, isWritten s q = false ∧ unlessUnwritten s t = .fault (.unwrittenRead q) := by
  have found : (firstUnwritten s).isSome = true := List.find?_isSome.2 ⟨r, hr, by simp [hw]⟩
  obtain ⟨q, hq⟩ := Option.isSome_iff_exists.1 found
  refine ⟨q, List.mem_of_find?_eq_some hq, by simpa using List.find?_some hq, ?_⟩
  simp [unlessUnwritten, hq]

/-- Settles O59: the invariant has every register written that the current step reads, so the check passes. -/
theorem noWellFormedRunFaults : Obligations.NoWellFormedRunFaults := by
  refine ⟨fun s h => step_answers (stepReads_written h), fun s f r hr hw => ?_⟩
  rw [exec_frame]
  exact unlessUnwritten_faults hr hw _

end Sys2Proof.Machine

/-! Every step keeps the invariant: the parts that do not speak of STEP, the four situations of the lock, and what each kind of
step does to both. -/
namespace Sys2Proof.Machine

/-! ## The invariant by situation of the lock -/

/-- The parts of the invariant that do not speak of STEP or the lock. -/
def Sound (s : State) : Prop :=
  rangeOk s = true ∧ historyOk s = true ∧ errOk s = true ∧ modeOk s = true ∧ chipOk s = true ∧
    (s.phase = .halted → s.pend = false)

/-- The lock is free. -/
def AtRest (s : State) : Prop := s.step = .none ∧ s.busy = false ∧ s.owner = .command ∧ s.job = none

/-- A command in progress has a transaction to make, and a MODE command a legal code. -/
def JobDue (s : State) : Prop :=
  ∃ k f fs got, s.job = some ⟨k, f :: fs, got⟩ ∧ ∀ m, k = .mode m → legalMode s.cfg m = true

/-- A command other than INIT holds the lock. -/
def InCommand (s : State) : Prop :=
  s.step = .cmd ∧ s.busy = true ∧ s.owner = .command ∧ s.phase ≠ .halted ∧ JobDue s

/-- INIT holds the lock, whatever its step. -/
def InInit (s : State) : Prop := s.busy = true ∧ s.owner = .command ∧ s.phase = .idle ∧ s.job = none

/-- A service holds the lock, whatever its step. -/
def InService (s : State) : Prop := s.busy = true ∧ s.owner = .service ∧ s.phase = .run ∧ s.job = none

/-- The four situations of the lock. -/
def Situation (s : State) : Prop :=
  AtRest s ∨ InCommand s ∨ (isInit s.step = true ∧ InInit s) ∨ (isReceive s.step = true ∧ InService s)

theorem jobOk_of_jobDue {s : State} (h : JobDue s) : jobOk s.cfg s.job = true := by
  obtain ⟨k, f, fs, got, hj, hm⟩ := h
  rw [hj]
  cases k with
  | mode m => exact hm m rfl
  | _ => rfl

theorem isReceive_not_other {st : SeqStep} (h : isReceive st = true) : st ≠ .none ∧ st ≠ .cmd ∧ isInit st = false := by
  cases st <;> simp_all [isReceive, isInit]

theorem isInit_not_other {st : SeqStep} (h : isInit st = true) : st ≠ .none ∧ st ≠ .cmd := by
  cases st <;> simp_all [isInit]

/-- The converse of `lockOk_cases`. -/
theorem lockOk_of_situation {s : State} (hp : s.phase = .halted → s.pend = false) (h : Situation s) : lockOk s = true := by
  have hp' : (s.phase != .halted || !s.pend) = true := by
    by_cases hh : s.phase = .halted <;> simp [hh, hp]
  obtain ⟨h1, h2, h3, h4⟩ | ⟨h1, h2, h3, h4, h5⟩ | ⟨hi, h2, h3, h4, h5⟩ | ⟨hr, h2, h3, h4, h5⟩ := h
  · simp [lockOk, h1, h2, h3, h4, hp']
  · simp [lockOk, h1, h2, h3, h4, jobOk_of_jobDue h5, hp']
  · obtain ⟨hn, hc⟩ := isInit_not_other hi
    simp [lockOk, hn, hc, hi, h2, h3, h4, h5]
  · obtain ⟨hn, hc, hi⟩ := isReceive_not_other hr
    simp [lockOk, hn, hc, hi, h2, h3, h4, h5]

/-- The invariant: the parts without STEP, the situation of the lock, and the three parts that depend on STEP. -/
theorem stateOk_iff_situation (s : State) : stateOk s = true ↔
    Sound s ∧ Situation s ∧ writtenOk s = true ∧ burstOk s = true ∧ rstOk s = true := by
  rw [stateOk_iff]
  constructor
  · rintro ⟨hl, hw, hb, hr, hh, he, hm, hrst, hc⟩
    obtain ⟨hp, hsit⟩ := lockOk_cases hl
    refine ⟨⟨hr, hh, he, hm, hc, hp⟩, ?_, hw, hb, hrst⟩
    obtain h | h | ⟨hi, h⟩ | ⟨hr, h⟩ := hsit
    · exact .inl h
    · exact .inr (.inl h)
    · exact .inr (.inr (.inl ⟨hi, h⟩))
    · exact .inr (.inr (.inr ⟨hr, h⟩))
  · rintro ⟨⟨hr, hh, he, hm, hc, hp⟩, hsit, hw, hb, hrst⟩
    exact ⟨lockOk_of_situation hp hsit, hw, hb, hr, hh, he, hm, hrst, hc⟩

/-- RST_N is high outside I0_RST and HALTED (70_reset_and_hazards.md R311, 60_exceptions.md R292). -/
theorem rstN_high {s : State} (h : rstOk s = true) (hs : s.step ≠ .i0Rst) (hp : s.phase ≠ .halted) : s.rstN = true := by
  simpa [rstOk, hs, hp] using h

theorem rstOk_of_high {s : State} (h : s.rstN = true) : rstOk s = true := by simp [rstOk, h]

/-- A service runs in RUN and not in I0_RST, so RST_N is high. -/
theorem InService.rstN_high {s : State} (h : InService s) (hrst : rstOk s = true) (hi : isReceive s.step = true) :
    s.rstN = true := by
  obtain ⟨-, -, hp, -⟩ := h
  refine Machine.rstN_high hrst (fun hst => ?_) (by simp [hp])
  simp [hst, isReceive] at hi

/-- With the lock free nothing is in progress. -/
theorem AtRest.of_free {s : State} (h : Situation s) (hb : s.busy = false) : AtRest s := by
  obtain h | ⟨-, hb', -⟩ | ⟨-, hb', -⟩ | ⟨-, hb', -⟩ := h
  · exact h
  all_goals simp [hb'] at hb

/-- At a step of INIT, INIT holds the lock. -/
theorem InInit.of_step {s : State} (h : Situation s) (hi : isInit s.step = true) : InInit s := by
  obtain ⟨hn, hc⟩ := isInit_not_other hi
  obtain ⟨hst, -⟩ | ⟨hst, -⟩ | ⟨-, h⟩ | ⟨hr, -⟩ := h
  · exact absurd hst hn
  · exact absurd hst hc
  · exact h
  · obtain ⟨-, -, hinit⟩ := isReceive_not_other hr
    simp [hinit] at hi

/-- At a step of the receive sequence, a service holds the lock. -/
theorem InService.of_step {s : State} (h : Situation s) (hi : isReceive s.step = true) : InService s := by
  obtain ⟨hn, hc, hinit⟩ := isReceive_not_other hi
  obtain ⟨hst, -⟩ | ⟨hst, -⟩ | ⟨hi', -⟩ | ⟨-, h⟩ := h
  · exact absurd hst hn
  · exact absurd hst hc
  · simp [hinit] at hi'
  · exact h

/-- The invariant with the lock free. -/
theorem stateOk_of_atRest {s : State} (hs : Sound s) (h : AtRest s) (hr : s.phase ≠ .halted → s.rstN = true) :
    stateOk s = true := by
  have hn : s.step = .none := h.1
  have hrst : rstOk s = true := by
    by_cases hp : s.phase = .halted
    · simp [rstOk, hp]
    · exact rstOk_of_high (hr hp)
  exact (stateOk_iff_situation s).2 ⟨hs, .inl h, by simp [writtenOk, hn, stepHolds], by simp [burstOk, hn], hrst⟩

/-- The invariant while a command other than INIT is in progress. -/
theorem stateOk_of_inCommand {s : State} (hs : Sound s) (h : InCommand s) (hr : s.rstN = true) : stateOk s = true := by
  have hc : s.step = .cmd := h.1
  exact (stateOk_iff_situation s).2
    ⟨hs, .inr (.inl h), by simp [writtenOk, hc, stepHolds], by simp [burstOk, hc], rstOk_of_high hr⟩

theorem burstOk_of_isInit {s : State} (h : isInit s.step = true) : burstOk s = true := by
  cases hst : s.step <;> simp_all [burstOk, isInit]

/-- The invariant while INIT is in progress. -/
theorem stateOk_of_inInit {s : State} (hs : Sound s) (h : InInit s) (hi : isInit s.step = true) (hw : writtenOk s = true)
    (hr : rstOk s = true) : stateOk s = true :=
  (stateOk_iff_situation s).2 ⟨hs, .inr (.inr (.inl ⟨hi, h⟩)), hw, burstOk_of_isInit hi, hr⟩

/-- The invariant while a service is in progress. -/
theorem stateOk_of_inService {s : State} (hs : Sound s) (h : InService s) (hr : s.rstN = true)
    (hi : isReceive s.step = true) (hw : writtenOk s = true) (hb : burstOk s = true) : stateOk s = true :=
  (stateOk_iff_situation s).2 ⟨hs, .inr (.inr (.inr ⟨hi, h⟩)), hw, hb, rstOk_of_high hr⟩

/-- Only the history changed, and by legal events. -/
theorem Sound.append {s t : State} {h : List Event} (hs : Sound s) (ht : t = { s with history := s.history ++ h })
    (hh : ∀ e ∈ h, eventOk e = true) : Sound t := by
  obtain ⟨hr, hist, he, hm, hc, hp⟩ := hs
  subst ht
  exact ⟨hr, historyOk_append rfl hist hh, he, hm, hc, hp⟩

/-- An event legal by its kind is emitted. -/
theorem Sound.emit {s : State} (hs : Sound s) {e : Event} (he : eventOk e = true) : Sound (emit e s) :=
  hs.append rfl (by simpa using he)

/-- ERR takes an ERR word, and the event follows unless it is 0 (10_state.md R31). -/
theorem Sound.writeErr {s : State} (hs : Sound s) (e : ErrRec) : Sound (writeErr (errWord e) s) := by
  obtain ⟨hr, hist, -, hm, hc, hp⟩ := hs
  refine ⟨hr, ?_, errOk_errWord (e := e) rfl, hm, hc, hp⟩
  by_cases h0 : errWord e = 0#32
  · exact historyOk_append (h := []) (by simp [h0]) hist (by simp)
  · exact historyOk_append (h := [.err (errWord e)]) (by simp [h0]) hist (by simp [eventOk, h0])

/-- The tracker takes a legal mode code (10_state.md R25). -/
theorem Sound.trackMode {s : State} (hs : Sound s) {m : BitVec 3} (h : legalMode s.cfg m = true) : Sound (trackMode m s) := by
  obtain ⟨hr, hist, he, -, hc, hp⟩ := hs
  exact ⟨hr, hist, he, by simp [modeOk, h], hc, hp⟩

/-- The tracker loses the mode (43_mode.md R191). -/
theorem Sound.loseMode {s : State} (hs : Sound s) : Sound (loseMode s) := by
  obtain ⟨hr, hist, he, -, hc, hp⟩ := hs
  exact ⟨hr, hist, he, rfl, hc, hp⟩

theorem legalMode_modeCodeOf (p : Params) (m : OpMode) : legalMode p (modeCodeOf p m) = true := by
  cases m <;> simp [legalMode]

/-! ## Ends: a command completes, an error is raised, a service ends -/

theorem stateOk_completeCommand {s : State} (hs : Sound s) (hr : s.phase ≠ .halted → s.rstN = true) (r : RespResult)
    (e : ErrRec) : stateOk (completeCommand r e s) = true :=
  stateOk_of_atRest (hs.writeErr e) ⟨rfl, rfl, rfl, rfl⟩ hr

theorem stateOk_raiseError_command {s : State} (hs : Sound s) (ho : s.owner = .command)
    (hr : s.phase ≠ .halted → s.rstN = true) (c : ErrCode) (a : Addr) (x : Byte) : stateOk (raiseError c a x s) = true := by
  rw [raiseError_command ho]
  exact stateOk_completeCommand hs hr _ _

theorem stateOk_raiseError_service {s : State} (hs : Sound s) (hv : InService s) (hr : s.rstN = true) (c : ErrCode) (a : Addr)
    (x : Byte) : stateOk (raiseError c a x s) = true := by
  have ⟨_, ho, _, _⟩ := hv
  rw [raiseError_service ho]
  exact stateOk_of_inService hs hv hr rfl rfl rfl

theorem stateOk_endService {s : State} (hs : Sound s) (hr : s.rstN = true) : stateOk (endService s) = true :=
  stateOk_of_atRest (hs.writeErr s.svcErr) ⟨rfl, rfl, rfl, rfl⟩ fun _ => hr

/-! ## A step takes its transaction's answer -/

/-- CNT counts one more read without wrapping, for k is at most 255 (45_rx_sequencer.md R226). -/
theorem cnt_succ_toNat {s : State} (h : s.cnt.value.toNat < burstReads s) :
    (s.cnt.value + 1).toNat = s.cnt.value.toNat + 1 := by
  have := burstReads_le s
  rw [BitVec.toNat_add]
  simp
  omega

theorem rangeOk_iff (s : State) : rangeOk s = true ↔ s.buf.value.length ≤ 255 ∧ s.pay.value.length ≤ 251 ∧
    (-64 ≤ s.snrq.value ∧ s.snrq.value ≤ 63) ∧ (-137 ≤ s.rssi.value.toInt ∧ s.rssi.value.toInt ≤ 118) := by
  simp [rangeOk, and_assoc]

theorem burstOk_s3Burst {s : State} (h : s.step = .s3Burst) : burstOk s = true ↔
    s.buf.value.length = s.cnt.value.toNat ∧ s.cnt.value.toNat ≤ burstReads s := by
  simp [burstOk, h]

theorem burstOk_s4Split {s : State} (h : s.step = .s4Split) : burstOk s = true ↔ s.buf.value.length = burstReads s := by
  simp [burstOk, h]

/-- The packet of a service is legal: its fields are the working registers (45_rx_sequencer.md R240). -/
theorem eventOk_pkt {s : State} (h : rangeOk s = true) : eventOk (.pkt (packetOf s)) = true := by
  obtain ⟨-, hpay, hsnr, hrssi⟩ := (rangeOk_iff s).1 h
  simp [eventOk, packetOf, hpay, hsnr, hrssi]

theorem takeS6Snr_sound {s : State} (hs : Sound s) (d : Byte) : Sound (takeS6Snr d s) := by
  obtain ⟨hrange, hrest⟩ := hs
  obtain ⟨hbuf, hpay, -, hrssi⟩ := (rangeOk_iff s).1 hrange
  exact ⟨(rangeOk_iff _).2 ⟨hbuf, hpay, snrConv_range d, hrssi⟩, hrest⟩

theorem takeS2bPtr_sound {s : State} (hs : Sound s) : Sound (takeS2bPtr s) := by
  obtain ⟨hrange, hrest⟩ := hs
  obtain ⟨-, hpay, hsnr, hrssi⟩ := (rangeOk_iff s).1 hrange
  exact ⟨(rangeOk_iff _).2 ⟨Nat.zero_le _, hpay, hsnr, hrssi⟩, hrest⟩

/-- The RSSI is taken and the packet emitted (45_rx_sequencer.md R231). -/
theorem takeS7Rssi_sound {s : State} (hs : Sound s) (d : Byte) : Sound (takeS7Rssi d s) := by
  obtain ⟨hrange, hrest⟩ := hs
  obtain ⟨hbuf, hpay, hsnr, -⟩ := (rangeOk_iff s).1 hrange
  have hrange' : rangeOk { s with rssi := Reg.holding (rssiWord d), step := .s8Ack } = true :=
    (rangeOk_iff _).2 ⟨hbuf, hpay, hsnr, rssiWord_range d⟩
  exact Sound.emit (s := { s with rssi := Reg.holding (rssiWord d), step := .s8Ack }) ⟨hrange', hrest⟩ (eventOk_pkt hrange')

/-- In a burst with a read left, BUF gets one byte, and CNT counts it (45_rx_sequencer.md R226). -/
theorem takeS3Burst_sound {s : State} (d : Byte) (hs : Sound s) (hlen : s.buf.value.length < 255) :
    Sound (takeS3Burst d s) := by
  obtain ⟨hrange, hrest⟩ := hs
  obtain ⟨-, hpay, hsnr, hrssi⟩ := (rangeOk_iff s).1 hrange
  exact ⟨(rangeOk_iff _).2 ⟨by simp [takeS3Burst, Reg.holding]; omega, hpay, hsnr, hrssi⟩, hrest⟩

/-- After one read of the burst BUF's length is CNT, or the burst is whole (45_rx_sequencer.md R226). -/
theorem takeS3Burst_burstOk {s : State} (d : Byte) (hlen : s.buf.value.length = s.cnt.value.toNat)
    (hlt : s.cnt.value.toNat < burstReads s) : burstOk (takeS3Burst d s) = true := by
  have hcnt := cnt_succ_toNat hlt
  have happ : (s.buf.value ++ [d]).length = s.cnt.value.toNat + 1 := by simp [hlen]
  by_cases hmore : s.cnt.value.toNat + 1 < burstReads s
  · exact (burstOk_s3Burst (if_pos hmore)).2 ⟨happ.trans hcnt.symm, hcnt.trans_le hmore.le⟩
  · exact (burstOk_s4Split (if_neg hmore)).2 (happ.trans (show s.cnt.value.toNat + 1 = burstReads s by omega))

/-- With its byte taken, a step of a service has written what the next one needs (00_scope.md R11). -/
theorem takeData_service_writtenOk {s : State} (d : Byte) (hi : isReceive s.step = true) (hw : writtenOk s = true) :
    writtenOk (takeData d s) = true := by
  have hw' := hw
  cases hst : s.step <;> simp only [hst, isReceive, reduceCtorEq] at hi <;> simp only [takeData, hst]
  all_goals
    simp only [writtenOk, hst, stepHolds, isWritten, List.all_cons, List.all_nil, Bool.and_true, Bool.and_eq_true] at hw'
  case s0Irq => simp only [takeS0Irq]; split <;> rfl
  case s3Burst =>
    simp only [takeS3Burst]
    split <;> simp [writtenOk, stepHolds, isWritten, Reg.holding, hw']
  case s4Split => exact hw
  all_goals
    simp [takeS1Len, takeS2aCur, takeS2bPtr, takeS5aHmsb, takeS5bHlsb, takeS5cPmsb, takeS5dPlsb, takeS6Snr, takeS7Rssi,
      takeS8Ack, writtenOk, stepHolds, isWritten, Reg.holding, hw']

/-- A step of a service takes its transaction's byte. -/
theorem takeData_service {s : State} {f : Frame} (d : Byte) (hs : Sound s) (hv : InService s) (hr : s.rstN = true)
    (hi : isReceive s.step = true) (hw : writtenOk s = true) (hb : burstOk s = true) (hf : selectFrame s = some f) :
    stateOk (takeData d s) = true := by
  have hw' := takeData_service_writtenOk d hi hw
  cases hst : s.step <;> simp only [hst, isReceive, reduceCtorEq] at hi <;> simp only [takeData, hst] at hw' ⊢
  case s0Irq =>
    simp only [takeS0Irq]
    split <;> exact stateOk_of_inService hs hv hr rfl rfl rfl
  case s1Len => exact stateOk_of_inService hs hv hr rfl hw' rfl
  case s2aCur => exact stateOk_of_inService hs hv hr rfl hw' rfl
  case s2bPtr => exact stateOk_of_inService (takeS2bPtr_sound hs) hv hr rfl hw' rfl
  case s3Burst =>
    have hlt : s.cnt.value.toNat < burstReads s := by
      by_contra hn
      simp [selectFrame, hst, hn] at hf
    obtain ⟨hlen, -⟩ := (burstOk_s3Burst hst).1 hb
    have hk := burstReads_le s
    refine stateOk_of_inService (takeS3Burst_sound d hs (by omega)) hv hr ?_ hw' (takeS3Burst_burstOk d hlen hlt)
    simp only [takeS3Burst]
    split <;> rfl
  case s4Split => simp [selectFrame, hst] at hf
  case s7Rssi => exact stateOk_of_inService (takeS7Rssi_sound hs d) hv hr rfl rfl rfl
  case s8Ack => exact stateOk_endService hs hr
  all_goals simp only [burstOk, hst] at hb
  case s6Snr => exact stateOk_of_inService (takeS6Snr_sound hs d) hv hr rfl hw' hb
  all_goals exact stateOk_of_inService hs hv hr rfl hw' hb

/-- INIT's next step, with the same registers still to be read. -/
theorem stateOk_initNext {s : State} {next : SeqStep} (hs : Sound s) (hv : InInit s) (hr : s.rstN = true)
    (hw : writtenOk s = true) (hi : isInit next = true) (hh : stepHolds next = stepHolds s.step) :
    stateOk (takeInitWrite next s) = true := by
  refine stateOk_of_inInit hs hv hi ?_ (rstOk_of_high hr)
  rw [writtenOk, ← hh] at hw
  exact hw

/-- `SetMode` in INIT, then the next step (43_mode.md R191). -/
theorem stateOk_initModeSet {s : State} {next : SeqStep} (m : OpMode) (hs : Sound s) (hv : InInit s) (hr : s.rstN = true)
    (hw : writtenOk s = true) (hi : isInit next = true) (hh : stepHolds next = stepHolds s.step) :
    stateOk (takeInitWrite next (modeSet (modeCodeOf s.cfg m) s)) = true :=
  stateOk_initNext (s := modeSet (modeCodeOf s.cfg m) s) (hs.trackMode (legalMode_modeCodeOf s.cfg m)) hv hr hw hi hh

/-- I1_VER: the version is taken, or the block is HALTED (70_reset_and_hazards.md R312). -/
theorem takeI1Ver_stateOk {s : State} (d : Byte) (hs : Sound s) (hv : InInit s) (hr : s.rstN = true) (hst : s.step = .i1Ver)
    (hw : writtenOk s = true) : stateOk (takeI1Ver d s) = true := by
  simp only [takeI1Ver]
  split
  · refine stateOk_of_inInit hs hv rfl ?_ (rstOk_of_high hr)
    simpa [writtenOk, hst, stepHolds, isWritten, Reg.holding] using hw
  · obtain ⟨hra, hh, he, hm, hc, -⟩ := hs
    have halted : Sound { s with ver := Reg.holding d, phase := .halted, pend := false } :=
      ⟨hra, hh, he, hm, hc, fun _ => rfl⟩
    have ⟨_, ho, _, _⟩ := hv
    exact stateOk_raiseError_command halted ho (fun _ => hr) _ _ _

/-- I6_RXC: INIT completes, and the phase is RUN (70_reset_and_hazards.md R318). -/
theorem takeI6Rxc_stateOk {s : State} (hs : Sound s) (hr : s.rstN = true) : stateOk (takeI6Rxc s) = true := by
  obtain ⟨hra, hh, he, hm, hc, -⟩ := hs.trackMode (legalMode_modeCodeOf s.cfg .receiveContinuous)
  have running : Sound { (modeSet (modeCodeOf s.cfg .receiveContinuous) s) with phase := .run } :=
    ⟨hra, hh, he, hm, hc, nofun⟩
  exact stateOk_completeCommand running (fun _ => hr) _ _

/-- A step of INIT takes its transaction's byte. -/
theorem takeData_init {s : State} {f : Frame} (d : Byte) (hs : Sound s) (hv : InInit s) (hrst : rstOk s = true)
    (hi : isInit s.step = true) (hw : writtenOk s = true) (hf : selectFrame s = some f) :
    stateOk (takeData d s) = true := by
  have ⟨_, _, hp, _⟩ := hv
  have hr : s.rstN = true := by
    refine rstN_high hrst (fun hst => ?_) (by simp [hp])
    simp [selectFrame, hst] at hf
  cases hst : s.step <;> simp only [hst, isInit, reduceCtorEq] at hi <;> simp only [takeData, hst]
  case i0Rst => simp [selectFrame, hst] at hf
  case i1Ver => exact takeI1Ver_stateOk d hs hv hr hst hw
  case i2Sleep => exact stateOk_initModeSet .sleep hs hv hr hw rfl (by rw [hst]; rfl)
  case i5bCfg2 =>
    cases hsb : s.cfg.initStandby <;> simp only [takeI5bCfg2, hsb]
    · exact stateOk_initNext hs hv hr hw rfl (by rw [hst]; rfl)
    · exact stateOk_initNext hs hv hr hw rfl (by rw [hst]; rfl)
  case i5sStdby => exact stateOk_initModeSet .standby hs hv hr hw rfl (by rw [hst]; rfl)
  case i6Rxc => exact takeI6Rxc_stateOk hs hr
  all_goals exact stateOk_initNext hs hv hr hw rfl (by rw [hst]; rfl)

/-- A completed job moves the tracker only to a legal mode code. -/
theorem Sound.jobTracks {s : State} (hs : Sound s) {k : JobKind} (hm : ∀ m, k = .mode m → legalMode s.cfg m = true) :
    Sound (jobTracks k s) := by
  cases k with
  | mode m => exact hs.trackMode (hm m rfl)
  | _ => exact hs

theorem Sound.jobLoses {s : State} (hs : Sound s) (k : JobKind) : Sound (jobLoses k s) := by
  cases k with
  | mode m => exact hs.loseMode
  | _ => exact hs

/-- A command in progress takes its transaction's byte. -/
theorem takeData_command {s : State} (d : Byte) (hs : Sound s) (hv : InCommand s) (hr : s.rstN = true) :
    stateOk (takeData d s) = true := by
  obtain ⟨hst, hb, ho, hp, k, f, fs, got, hj, hm⟩ := hv
  simp only [takeData, hst]
  cases fs with
  | nil =>
    rw [jobTakes_last hj, ← succeed_eq]
    refine stateOk_completeCommand (hs.jobTracks hm) (fun _ => ?_) _ _
    obtain ⟨v, m, ht⟩ := jobTracks_moves k s
    rw [ht]
    exact hr
  | cons g gs =>
    rw [jobTakes_more hj]
    exact stateOk_of_inCommand hs ⟨hst, hb, ho, hp, k, g, gs, _, rfl, hm⟩ hr

/-- The current step takes its transaction's byte. -/
theorem takeData_stateOk {s : State} {f : Frame} (d : Byte) (h : stateOk s = true) (hf : selectFrame s = some f) :
    stateOk (takeData d s) = true := by
  obtain ⟨hs, hsit, hw, hb, hrst⟩ := (stateOk_iff_situation s).1 h
  obtain ⟨hst, -⟩ | hv | ⟨hi, hv⟩ | ⟨hi, hv⟩ := hsit
  · simp [selectFrame, hst] at hf
  · have ⟨hst, _, _, hp, _⟩ := hv
    exact takeData_command d hs hv (rstN_high hrst (by simp [hst]) hp)
  · exact takeData_init d hs hv hrst hi hw hf
  · exact takeData_service d hs hv (hv.rstN_high hrst hi) hi hw hb hf

/-! ## A step takes its transaction's TransportError -/

/-- A step of INIT stops (60_exceptions.md R271). -/
theorem takeError_init {s : State} (a : Addr) (x : Byte) (h : stateOk s = true) (hi : isInit s.step = true) (hs : Sound s)
    (hv : InInit s) (hrst : rstOk s = true) : stateOk (takeError a x s) = true := by
  obtain ⟨-, ho, hp, -⟩ := hv
  cases hst : s.step <;> simp only [hst, isInit, reduceCtorEq] at hi <;> simp only [takeError, hst]
  case i0Rst => exact h
  all_goals have hr : s.rstN = true := rstN_high hrst (by simp [hst]) (by simp [hp])
  case i2Sleep | i5sStdby | i6Rxc => exact stateOk_raiseError_command hs.loseMode ho (fun _ => hr) _ _ _
  all_goals exact stateOk_raiseError_command hs ho (fun _ => hr) _ _ _

/-- A step of a service goes to S8_ACK, and S8_ACK ends it (45_rx_sequencer.md R232, R239). -/
theorem takeError_service {s : State} (a : Addr) (x : Byte) (h : stateOk s = true) (hi : isReceive s.step = true) (hs : Sound s)
    (hv : InService s) (hr : s.rstN = true) : stateOk (takeError a x s) = true := by
  cases hst : s.step <;> simp only [hst, isReceive, reduceCtorEq] at hi <;> simp only [takeError, hst]
  case s4Split => exact h
  case s8Ack => exact stateOk_endService (s := recordAckFail a x s) hs hr
  all_goals exact stateOk_raiseError_service hs hv hr _ _ _

/-- The current step takes its transaction's TransportError. -/
theorem takeError_stateOk {s : State} (a : Addr) (x : Byte) (h : stateOk s = true) : stateOk (takeError a x s) = true := by
  obtain ⟨hs, hsit, -, -, hrst⟩ := (stateOk_iff_situation s).1 h
  obtain ⟨hst, -⟩ | ⟨hst, -, ho, hp, k, f, fs, got, hj, -⟩ | ⟨hi, hv⟩ | ⟨hi, hv⟩ := hsit
  · simpa only [takeError, hst] using h
  · have hr : s.rstN = true := rstN_high hrst (by simp [hst]) hp
    simp only [takeError, hst]
    rw [jobFails_some hj]
    obtain ⟨v, hl⟩ := jobLoses_moves k s
    exact stateOk_raiseError_command (hs.jobLoses k) (by rw [hl]; exact ho) (fun _ => by rw [hl]; exact hr) _ _ _
  · exact takeError_init a x h hi hs hv hrst
  · exact takeError_service a x h hi hs hv (hv.rstN_high hrst hi)

/-- An exchange keeps the invariant: its BUS event is legal, and an attached chip stays canonical. -/
theorem exchange_stateOk {s : State} (f : Frame) (h : stateOk s = true) : stateOk (exchange f s).2 = true := by
  obtain ⟨⟨hra, hh, he, hm, hc, hp⟩, hsit, hw, hb, hrst⟩ := (stateOk_iff_situation s).1 h
  obtain ⟨as, d, c, l, bs, hchip, hx⟩ := exchange_cases f s
  rw [hx]
  have hist : historyOk { s with answers := as, draws := d, chip := c, history := s.history ++ [.bus f.b0 f.b1 l bs] } = true :=
    historyOk_append rfl hh (by simpa using eventOk_bus f l bs)
  exact (stateOk_iff_situation _).2 ⟨⟨hra, hist, he, hm, chipOk_draw hc hchip, hp⟩, hsit, hw, hb, hrst⟩

/-- An exchange leaves the current step's frame as it is. -/
theorem selectFrame_exchange (f : Frame) (s : State) : selectFrame (exchange f s).2 = selectFrame s := by
  obtain ⟨as, d, c, l, bs, -, hx⟩ := exchange_cases f s
  rw [hx]
  rfl

theorem performFrame_stateOk {s : State} {f : Frame} (h : stateOk s = true) (hf : selectFrame s = some f) :
    stateOk (performFrame f s) = true := by
  unfold performFrame
  split
  · exact takeData_stateOk _ (exchange_stateOk f h) ((selectFrame_exchange f s).trans hf)
  · exact takeError_stateOk _ _ (exchange_stateOk f h)

/-! ## A step without a transaction -/

/-- S4_SPLIT: header and payload are split off the whole burst (45_rx_sequencer.md R227). -/
theorem stepS4Split_stateOk {s : State} (hs : Sound s) (hv : InService s) (hr : s.rstN = true) (hst : s.step = .s4Split)
    (hw : writtenOk s = true) (hb : burstOk s = true) : stateOk (stepS4Split s) = true := by
  unfold stepS4Split
  split
  · exact stateOk_raiseError_service hs hv hr _ _ _
  · rename_i hd p hsp
    have hlen := hsplit_length hsp
    have hk := burstReads_le s
    have hbuf := (burstOk_s4Split hst).1 hb
    obtain ⟨hrange, hrest⟩ := hs
    obtain ⟨hb255, -, hsnr, hrssi⟩ := (rangeOk_iff s).1 hrange
    have hpay : p.length ≤ 251 := by omega
    refine stateOk_of_inService ⟨(rangeOk_iff _).2 ⟨hb255, hpay, hsnr, hrssi⟩, hrest⟩ hv hr rfl ?_ ?_
    · simp only [writtenOk, hst, stepHolds, isWritten, List.all_cons, List.all_nil, Bool.and_true, Bool.and_eq_true] at hw
      simp [writtenOk, stepHolds, isWritten, Reg.holding, hw]
    · exact decide_eq_true (hlen.trans hbuf)

/-- A burst with no read left is whole (45_rx_sequencer.md R226). -/
theorem endS3Burst_stateOk {s : State} (hs : Sound s) (hv : InService s) (hr : s.rstN = true) (hst : s.step = .s3Burst)
    (hw : writtenOk s = true) (hb : burstOk s = true) (hf : selectFrame s = none) : stateOk (endS3Burst s) = true := by
  have hge : burstReads s ≤ s.cnt.value.toNat := by simpa [selectFrame, hst] using hf
  obtain ⟨hlen, hle⟩ := (burstOk_s3Burst hst).1 hb
  refine stateOk_of_inService hs hv hr rfl ?_ ((burstOk_s4Split rfl).2 (hlen.trans (le_antisymm hle hge)))
  rw [writtenOk, hst] at hw
  exact hw

theorem internalStep_stateOk {s : State} (h : stateOk s = true) (hf : selectFrame s = none) :
    stateOk (internalStep s) = true := by
  obtain ⟨hs, hsit, hw, hb, hrst⟩ := (stateOk_iff_situation s).1 h
  cases hst : s.step <;> simp only [internalStep, hst]
  case s3Burst =>
    have hi : isReceive s.step = true := by rw [hst]; rfl
    have hv := InService.of_step hsit hi
    exact endS3Burst_stateOk hs hv (hv.rstN_high hrst hi) hst hw hb hf
  case s4Split =>
    have hi : isReceive s.step = true := by rw [hst]; rfl
    have hv := InService.of_step hsit hi
    exact stepS4Split_stateOk hs hv (hv.rstN_high hrst hi) hst hw hb
  all_goals exact h

/-! ## The lock is taken -/

/-- A service starts only in RUN (45_rx_sequencer.md R220). -/
theorem serviceEntry_stateOk {s : State} (h : stateOk s = true) (hready : serviceReady s = true) :
    stateOk (serviceEntry s) = true := by
  obtain ⟨⟨hra, hh, he, hm, hc, -⟩, hsit, -, -, hrst⟩ := (stateOk_iff_situation s).1 h
  simp only [serviceReady, Bool.and_eq_true, decide_eq_true_eq, Bool.not_eq_true'] at hready
  obtain ⟨⟨-, hp⟩, hb⟩ := hready
  obtain ⟨hst, -, -, hj⟩ := AtRest.of_free hsit hb
  have hr : s.rstN = true := rstN_high hrst (by simp [hst]) (by simp [hp])
  exact stateOk_of_inService ⟨hra, hh, he, hm, hc, fun _ => rfl⟩ ⟨rfl, rfl, hp, hj⟩ hr rfl rfl rfl

/-- INIT's start: RST_N is low in I0_RST, and the registers INIT reads are written (70_reset_and_hazards.md R310, R311). -/
theorem startInit_stateOk {s : State} (p : BitVec 2) (frf : BitVec 24) (hs : Sound s) (hb : s.busy = true)
    (ho : s.owner = .command) (hj : s.job = none) : stateOk (startInit p frf s) = true := by
  obtain ⟨hra, hh, he, -, hc, -⟩ := hs
  have hist : historyOk (startInit p frf s) = true := historyOk_append rfl hh (by simp [eventOk])
  exact stateOk_of_inInit ⟨hra, hist, he, rfl, hc, nofun⟩ ⟨hb, ho, rfl, hj⟩ rfl rfl rfl

/-- The offered word is accepted with the lock free: it completes, waits for its transactions, or is INIT's start
(60_exceptions.md R276). -/
theorem acceptOffer_stateOk {o : Offer} {rest : List Offer} {s t : State} (h : stateOk s = true) (hb : s.busy = false)
    (ha : acceptOffer o rest s = .next t) : stateOk t = true := by
  obtain ⟨hs, hsit, -, -, hrst⟩ := (stateOk_iff_situation s).1 h
  obtain ⟨hst, -, -, hj⟩ := AtRest.of_free hsit hb
  have hr : s.phase ≠ .halted → s.rstN = true := rstN_high hrst (by simp [hst])
  have opened : ∀ cw, Sound (taken o rest cw s) := fun cw =>
    Sound.emit (s := { s with port := rest, mhzIn := o.mhz }) hs (e := .cmd cw) rfl
  obtain ⟨cw, ⟨r, e, rfl⟩ | ⟨hp, k, f, fs, hm, rfl⟩ | ⟨hp, p, frf, rfl⟩⟩ := acceptOffer_cases hb ha
  · exact stateOk_completeCommand (opened cw) hr _ _
  · exact stateOk_of_inCommand (opened cw) ⟨rfl, rfl, rfl, hp, k, f, fs, [], rfl, hm⟩ (hr hp)
  · exact startInit_stateOk p frf (opened cw) rfl rfl hj

/-! ## Input events -/

/-- SHUTDOWN frees the lock and halts the block, whatever is in progress (60_exceptions.md R292). -/
theorem shutdown_stateOk {s : State} (h : stateOk s = true) : stateOk (shutdown s) = true := by
  obtain ⟨⟨hra, hh, he, hm, hc, -⟩, -⟩ := (stateOk_iff_situation s).1 h
  have hist : historyOk (shutdown s) = true := historyOk_append rfl hh (by simp [eventOk])
  exact stateOk_of_atRest ⟨hra, hist, he, hm, hc, fun _ => rfl⟩ ⟨rfl, rfl, rfl, rfl⟩ fun hp => absurd rfl hp

/-- BLOCK_RESET gives the reset state, whose invariant holds, with the attached chip kept (70_reset_and_hazards.md R300). -/
theorem blockReset_stateOk {s : State} (h : stateOk s = true) : stateOk (blockReset s) = true := by
  obtain ⟨⟨-, -, -, -, hc, -⟩, -⟩ := (stateOk_iff_situation s).1 h
  have herr : errOk State.reset = true := by decide
  exact stateOk_of_atRest ⟨rfl, rfl, herr, rfl, hc, fun _ => rfl⟩ ⟨rfl, rfl, rfl, rfl⟩ fun _ => rfl

/-- A rising edge sets PEND, but not in HALTED (60_exceptions.md R280). -/
theorem sampleIrq_stateOk {s : State} (level : Bool) (h : stateOk s = true) : stateOk (sampleIrq level s) = true := by
  unfold sampleIrq
  split
  · obtain ⟨⟨hra, hh, he, hm, hc, hp⟩, hrest⟩ := (stateOk_iff_situation s).1 h
    have hist : historyOk (emit .edge s) = true := historyOk_append rfl hh (by simp [eventOk])
    refine (stateOk_iff_situation _).2 ⟨⟨hra, hist, he, hm, hc, fun hp' => ?_⟩, hrest⟩
    have hp' : s.phase = .halted := hp'
    simp [hp', hp hp']
  · exact h

/-- T_LOW_DONE raises RST_N in I0_RST (70_reset_and_hazards.md R311). -/
theorem timerLowDone_stateOk {s : State} (h : stateOk s = true) : stateOk (timerLowDone s) = true := by
  unfold timerLowDone
  split
  · obtain ⟨hs, hsit, hw, hb, -⟩ := (stateOk_iff_situation s).1 h
    exact (stateOk_iff_situation _).2
      ⟨Sound.emit (s := { s with rstN := true }) hs (e := .rst true) rfl, hsit, hw, hb, rstOk_of_high rfl⟩
  · exact h

/-- T_HIGH_DONE leaves I0_RST with RST_N high (70_reset_and_hazards.md R311). -/
theorem timerHighDone_stateOk {s : State} (h : stateOk s = true) : stateOk (timerHighDone s) = true := by
  unfold timerHighDone
  split
  · rename_i hwait
    obtain ⟨hst, hr⟩ := hwait
    obtain ⟨hs, hsit, hw, -, -⟩ := (stateOk_iff_situation s).1 h
    exact stateOk_initNext hs (InInit.of_step hsit (by rw [hst]; rfl)) hr hw rfl (by rw [hst]; rfl)
  · exact h

theorem takeInput_stateOk {s : State} (e : Input) (h : stateOk s = true) : stateOk (takeInput e s) = true := by
  cases e with
  | quiet => exact h
  | irqSample level => exact sampleIrq_stateOk level h
  | timerLow => exact timerLowDone_stateOk h
  | timerHigh => exact timerHighDone_stateOk h
  | shutdown => exact shutdown_stateOk h
  | shutdownInFlight => exact shutdown_stateOk h
  | blockReset => exact blockReset_stateOk h
  | offer o => exact h

/-- Settles O58, by the cases of a step: each keeps the parts without STEP and moves the lock to another of its situations. -/
theorem stepKeepsInvariant : Obligations.StepKeepsInvariant := by
  intro s t h hstep
  obtain ⟨e, rest, -, -, rfl⟩ | ⟨f, rest, -, -, -, -, rfl⟩ | ⟨r, hr, own⟩ := step_cases hstep
  · exact takeInput_stateOk (s := { s with inputs := rest }) e h
  · exact shutdown_stateOk (exchange_stateOk (s := { s with inputs := rest }) f h)
  · have h' : stateOk r = true := by
      obtain ⟨rfl, -⟩ | ⟨rest, -, rfl⟩ := hr <;> exact h
    obtain ⟨f, -, hf, -, rfl⟩ | ⟨-, hf, -, rfl⟩ | ⟨-, hs, gs, n, rfl⟩ | ⟨hb, o, rest, gs, n, -, ha⟩ |
      ⟨-, -, -, rfl⟩ := own
    · exact performFrame_stateOk h' hf
    · exact internalStep_stateOk h' hf
    · exact serviceEntry_stateOk (s := { r with grants := gs, grantDraws := n }) h' hs
    · exact acceptOffer_stateOk (s := { r with grants := gs, grantDraws := n }) h' hb ha
    · exact h'

end Sys2Proof.Machine

/-! STEP moves on, waits, or the sequence ends (10_state.md R24). -/
namespace Sys2Proof.Machine

/-- STEP's way from `p` to `q` in a step of the block's own: the sequence ends, a higher code follows, or STEP stays at one of the
steps that wait. -/
def MovesOn (p q : SeqStep) : Prop :=
  q = .none ∨ p.code.ult q.code = true ∨ (q = p ∧ (p = .s3Burst ∨ p = .cmd ∨ p = .i0Rst))

theorem MovesOn.ends (p : SeqStep) : MovesOn p .none := .inl rfl

theorem MovesOn.onward {p q : SeqStep} (h : p.code.ult q.code = true) : MovesOn p q := .inr (.inl h)

theorem MovesOn.waits {p q : SeqStep} (hq : q = p) (hp : p = .s3Burst ∨ p = .cmd ∨ p = .i0Rst) : MovesOn p q :=
  .inr (.inr ⟨hq, hp⟩)

/-- While the sequence goes on, its code does not fall, and STEP stays only at a step that waits. -/
theorem MovesOn.not_backwards {p q : SeqStep} (h : MovesOn p q) (hq : q ≠ .none) :
    p.code.toNat ≤ q.code.toNat ∧ (q = p → p = .s3Burst ∨ p = .cmd ∨ p = .i0Rst) := by
  obtain h | h | ⟨rfl, h⟩ := h
  · exact absurd h hq
  · have hlt : p.code.toNat < q.code.toNat := by simpa [BitVec.ult] using h
    exact ⟨hlt.le, by rintro rfl; exact absurd hlt (lt_irrefl _)⟩
  · exact ⟨le_rfl, fun _ => h⟩

/-- S8_ACK is the last step of the receive sequence (10_state.md R23). -/
theorem code_ult_s8Ack {p : SeqStep} (hp : isReceive p = true) (hack : p ≠ .s8Ack) :
    p.code.ult SeqStep.s8Ack.code = true := by
  cases p <;> revert hp hack <;> decide

/-- Outside the receive sequence OWNER is the command port (10_state.md R22). -/
theorem owner_command_or_isReceive {s : State} (h : stateOk s = true) : s.owner = .command ∨ isReceive s.step = true := by
  obtain ⟨-, hsit, -⟩ := (stateOk_iff_situation s).1 h
  obtain ⟨-, -, ho, -⟩ | ⟨-, -, ho, -⟩ | ⟨-, -, ho, -⟩ | ⟨hr, -⟩ := hsit
  · exact .inl ho
  · exact .inl ho
  · exact .inl ho
  · exact .inr hr

/-- A command's error ends it; a service's error leads on to S8_ACK (60_exceptions.md R271, 45_rx_sequencer.md R239). -/
theorem raiseError_movesOn {s : State} {p : SeqStep} (ho : s.owner = .command ∨ isReceive p = true) (hack : p ≠ .s8Ack)
    (c : ErrCode) (a : Addr) (x : Byte) : MovesOn p (raiseError c a x s).step := by
  cases hown : s.owner with
  | command => rw [raiseError_command hown]; exact .ends p
  | service =>
    rw [raiseError_service hown]
    exact .onward (code_ult_s8Ack (ho.resolve_left (by simp [hown])) hack)

/-- A command takes its transaction's byte: STEP stays CMD, or the command completes (60_exceptions.md R276). -/
theorem jobTakes_movesOn {s : State} (hst : s.step = .cmd) (d : Byte) : MovesOn .cmd (jobTakes d s).step := by
  unfold jobTakes
  split
  · exact .waits hst (.inr (.inl rfl))
  · split
    · exact .waits hst (.inr (.inl rfl))
    · exact .ends .cmd

/-- A command's TransportError ends it (60_exceptions.md R271). -/
theorem jobFails_movesOn {s : State} (hst : s.step = .cmd) (ho : s.owner = .command) (a : Addr) (x : Byte) :
    MovesOn .cmd (jobFails a x s).step := by
  unfold jobFails
  split
  · exact .waits hst (.inr (.inl rfl))
  · rename_i j _
    obtain ⟨v, hl⟩ := jobLoses_moves j.kind s
    rw [hl]
    refine raiseError_movesOn (.inl ?_) (by decide) _ _ _
    exact ho

/-- The version check of I1_VER leads on to I2_SLEEP, or INIT ends (70_reset_and_hazards.md R312). -/
theorem takeI1Ver_movesOn {s : State} (ho : s.owner = .command) (d : Byte) : MovesOn .i1Ver (takeI1Ver d s).step := by
  unfold takeI1Ver
  split
  · exact .onward rfl
  · refine raiseError_movesOn (.inl ?_) (by decide) _ _ _
    exact ho

/-- A step that takes its transaction's byte moves on, but for a burst or a command with a transaction left. -/
theorem takeData_movesOn {s : State} {p : SeqStep} {f : Frame} (hst : s.step = p)
    (ho : s.owner = .command ∨ isReceive p = true) (hf : selectFrame s = some f) (d : Byte) :
    MovesOn p (takeData d s).step := by
  cases p <;> simp only [takeData, hst]
  case none | s4Split | i0Rst => simp [selectFrame, hst] at hf
  case s0Irq => cases hrx : (irqDecode d).rxDone <;> simp only [takeS0Irq, hrx] <;> exact .onward rfl
  case s3Burst =>
    simp only [takeS3Burst]
    split
    · exact .waits rfl (.inl rfl)
    · exact .onward rfl
  case i1Ver => exact takeI1Ver_movesOn (ho.resolve_right (by decide)) d
  case i5bCfg2 => cases hsb : s.cfg.initStandby <;> simp only [takeI5bCfg2, hsb] <;> exact .onward rfl
  case s8Ack | i6Rxc => exact .ends _
  case cmd => exact jobTakes_movesOn hst d
  all_goals exact .onward rfl

/-- A step that takes its transaction's TransportError ends the sequence, or a service goes on to S8_ACK. -/
theorem takeError_movesOn {s : State} {p : SeqStep} {f : Frame} (hst : s.step = p)
    (ho : s.owner = .command ∨ isReceive p = true) (hf : selectFrame s = some f) (a : Addr) (x : Byte) :
    MovesOn p (takeError a x s).step := by
  cases p <;> simp only [takeError, hst]
  case none | s4Split | i0Rst => simp [selectFrame, hst] at hf
  case s8Ack => exact .ends _
  case cmd => exact jobFails_movesOn hst (ho.resolve_right (by decide)) a x
  case i2Sleep | i5sStdby | i6Rxc => exact raiseError_movesOn (s := loseMode s) ho (by decide) _ _ _
  all_goals exact raiseError_movesOn ho (by decide) _ _ _

theorem performFrame_movesOn {s : State} {f : Frame} (ho : s.owner = .command ∨ isReceive s.step = true)
    (hf : selectFrame s = some f) : MovesOn s.step (performFrame f s).step := by
  obtain ⟨as, n, c, l, bs, -, hx⟩ := exchange_cases f s
  have hst : (exchange f s).2.step = s.step := by rw [hx]
  have ho' : (exchange f s).2.owner = .command ∨ isReceive s.step = true := by rwa [hx]
  have hf' : selectFrame (exchange f s).2 = some f := (selectFrame_exchange f s).trans hf
  unfold performFrame
  split
  · exact takeData_movesOn hst ho' hf' _
  · exact takeError_movesOn hst ho' hf' _ _

/-- Of the steps without a transaction, the burst's end and S4_SPLIT move on, I0_RST waits for its timers
(45_rx_sequencer.md R226, R227, 70_reset_and_hazards.md R311). -/
theorem internalStep_movesOn {s : State} {p : SeqStep} (hst : s.step = p) (ho : s.owner = .command ∨ isReceive p = true)
    (hf : selectFrame s = none) : MovesOn p (internalStep s).step := by
  cases p <;> simp only [internalStep, hst]
  case none => exact .ends _
  case s3Burst => exact .onward rfl
  case s4Split =>
    simp only [stepS4Split]
    split
    · exact raiseError_movesOn ho (by decide) _ _ _
    · exact .onward rfl
  case i0Rst | cmd => exact .waits rfl (by decide)
  all_goals simp [selectFrame, hst] at hf

/-- An input event ends the sequence, leaves STEP alone, or is the timer event that leaves I0_RST. -/
theorem takeInput_step_cases (e : Input) (s : State) :
    (takeInput e s).step = .none ∨ (takeInput e s).step = s.step ∨ (s.step = .i0Rst ∧ (takeInput e s).step = .i1Ver) := by
  cases e with
  | shutdown => exact .inl rfl
  | shutdownInFlight => exact .inl rfl
  | blockReset => exact .inl rfl
  | quiet => exact .inr (.inl rfl)
  | offer o => exact .inr (.inl rfl)
  | irqSample level => simp only [takeInput, sampleIrq]; split <;> exact .inr (.inl rfl)
  | timerLow => simp only [takeInput, timerLowDone]; split <;> exact .inr (.inl rfl)
  | timerHigh =>
    simp only [takeInput, timerHighDone]
    split
    · rename_i hwait
      exact .inr (.inr ⟨hwait.1, rfl⟩)
    · exact .inr (.inl rfl)

/-- While the sequence goes on, an input event does not lower STEP's code. -/
theorem takeInput_code_le {e : Input} {s : State} (ht : (takeInput e s).step ≠ .none) :
    s.step.code.toNat ≤ (takeInput e s).step.code.toNat := by
  obtain hn | hs | ⟨hs, hv⟩ := takeInput_step_cases e s
  · exact absurd hn ht
  · rw [hs]
  · rw [hs, hv]; decide

/-- Settles O54: an input event keeps STEP's code or raises it, and a step of the block's own moves on as `MovesOn` says. -/
theorem stepNeverMovesBackwards : Obligations.StepNeverMovesBackwards := by
  intro s t h hstep hb ht
  obtain ⟨e, rest, hi, hq, rfl⟩ | ⟨f, rest, -, -, -, -, rfl⟩ | ⟨r, hr, own⟩ := step_cases hstep
  · exact ⟨takeInput_code_le ht, fun _ => .inr (.inr (.inr ⟨e, rest, hi, hq⟩))⟩
  · exact absurd rfl ht
  · have ⟨hst, hok, hbusy⟩ : r.step = s.step ∧ stateOk r = true ∧ r.busy = true := by
      obtain ⟨rfl, -⟩ | ⟨rest, -, rfl⟩ := hr <;> exact ⟨rfl, h, hb⟩
    have ho := owner_command_or_isReceive hok
    have moves : MovesOn r.step t.step := by
      obtain ⟨f, -, hf, -, rfl⟩ | ⟨-, hf, -, rfl⟩ | ⟨hfree, -⟩ | ⟨hfree, -⟩ | ⟨hfree, -⟩ := own
      · exact performFrame_movesOn ho hf
      · exact internalStep_movesOn rfl ho hf
      all_goals simp [hbusy] at hfree
    rw [hst] at moves
    obtain ⟨hle, hstay⟩ := moves.not_backwards ht
    exact ⟨hle, fun heq => (hstay heq).imp_right (Or.imp_right .inl)⟩

end Sys2Proof.Machine

/-! The words STATUS and ERR field by field (10_state.md R30, R31), and the state after BLOCK_RESET (10_state.md R53). -/
namespace Sys2Proof.Machine

/-- OWNER's bit of STATUS is set exactly while a service holds the lock (10_state.md R22, R30). -/
theorem ownerBit_eq (s : State) :
    (if s.busy then ownerCode s.owner else 0#1) = BitVec.ofBool (s.busy && s.owner = .service) := by
  cases s.busy <;> cases s.owner <;> rfl

/-- STATUS from bit 0 up: each field starts where the one below it ends (10_state.md R30). -/
theorem status_fields (s : State) :
    s.status.extractLsb' 0 2 = s.phase.code ∧ s.status.getLsbD 2 = s.busy ∧
    s.status.getLsbD 3 = (s.busy && s.owner = .service) ∧ s.status.getLsbD 4 = s.pend ∧ s.status.getLsbD 5 = s.modev ∧
    s.status.extractLsb' 6 3 = (if s.modev then s.mode else 0#3) ∧ s.status.extractLsb' 9 7 = 0#7 := by
  simp only [State.status, ownerBit_eq]
  refine ⟨?_, ?_, ?_, ?_, ?_, ?_, ?_⟩ <;> grind

/-- The ERR word from bit 0 up (10_state.md R31). -/
theorem errWord_fields (e : ErrRec) :
    (errWord e).extractLsb' 0 3 = e.code.code ∧ (errWord e).getLsbD 3 = e.ackfail ∧
    (errWord e).extractLsb' 4 5 = e.step.code ∧ (errWord e).extractLsb' 9 7 = e.addr ∧
    (errWord e).extractLsb' 16 8 = e.aux ∧ (errWord e).extractLsb' 24 8 = 0#8 := by
  unfold errWord
  refine ⟨?_, ?_, ?_, ?_, ?_, ?_⟩ <;> grind

/-- CODE 7 is no error cause's (60_exceptions.md R270). -/
theorem ErrCode.code_ne_seven (c : ErrCode) : c.code ≠ 7#3 := by cases c <;> decide

/-- Settles O5: the fields of the two words, and the code tables by evaluation. -/
theorem statusAndErrFields : Obligations.StatusAndErrFields := by
  refine ⟨status_fields, fun e => ?_, rfl, rfl, rfl, rfl⟩
  obtain ⟨hcode, hack, hstep, haddr, haux, hreserved⟩ := errWord_fields e
  exact ⟨hcode, hack, hstep, haddr, haux, hreserved, hcode ▸ e.code.code_ne_seven⟩

theorem isWritten_reset (r : WorkReg) : isWritten State.reset r = false := by cases r <;> rfl

/-- Settles O6: the fields of `State.reset` are R53's values, and every working register is unwritten. -/
theorem resetValues : Obligations.ResetValues :=
  ⟨rfl, rfl, rfl, rfl, rfl, rfl, rfl, rfl, rfl, rfl, isWritten_reset, rfl, rfl⟩

theorem sound_reset : Sound State.reset := by
  have herr : errOk State.reset = true := by decide
  exact ⟨rfl, rfl, herr, rfl, rfl, fun _ => rfl⟩

/-- Settles O57: at reset the lock is free and RST_N is high. -/
theorem resetIsWellFormed : Obligations.ResetIsWellFormed :=
  stateOk_of_atRest sound_reset ⟨rfl, rfl, rfl, rfl⟩ fun _ => rfl

end Sys2Proof.Machine

/-! What one transaction draws and emits (20_memory.md R60). -/
namespace Sys2Proof.Machine

/-- A transaction draws its answer, and the BUS event of that answer is emitted (40_register_access.md R133). -/
theorem exchange_eq (f : Frame) (s : State) :
    exchange f s = ((xfer f s).1, emit (busEvent f (xfer f s).1) (xfer f s).2) := rfl

/-- Settles O23: the draw moves the sources of answers alone, and the history gets the BUS event of what was drawn. -/
theorem exchangeEmitsBusEvent : Obligations.ExchangeEmitsBusEvent := by
  intro f s
  refine ⟨fun a rest h => ?_, fun c h hc => ?_, ?_⟩
  · rw [exchange_eq, xfer_listed h]; rfl
  · rw [exchange_eq, xfer_chip h hc]; rfl
  · obtain ⟨as, d, c, hx⟩ := xfer_moves f s
    exact ⟨as, d, c, by rw [exchange_eq, hx]; rfl⟩

end Sys2Proof.Machine

/-! What CHIP_REF answers and stores (20_memory.md R75). -/
namespace Sys2Proof.Machine

theorem RefChip.exchange_readRegister {p : Params} {a : Addr} (ha : a ≠ p.regAddr.fifo) (c : RefChip) :
    c.exchange p (.read a) = (c.readReg a, c) := if_neg ha

theorem RefChip.exchange_readFifo (p : Params) (c : RefChip) :
    c.exchange p (.read p.regAddr.fifo) = (cellRead c.fifo c.ptr.toNat, { c with ptr := c.ptr + 1 }) := if_pos rfl

theorem RefChip.exchange_writeFifo (p : Params) (c : RefChip) (v : Byte) :
    c.exchange p (.write p.regAddr.fifo v) =
      (0x00, { c with fifo := cellWrite c.fifo c.ptr.toNat v, ptr := c.ptr + 1 }) := if_pos rfl

/-- A write outside the FIFO sets one register byte: IRQ_FLAGS clears the written bits, every other address stores the value, and
FIFO_ADDR_PTR, which comes first where roles share an address, moves the cursor too. -/
theorem RefChip.exchange_writeRegister {p : Params} {a : Addr} (ha : a ≠ p.regAddr.fifo) (c : RefChip) (v : Byte) :
    c.exchange p (.write a v) =
      (0x00, { (c.setReg a (if a = p.regAddr.irqFlags ∧ a ≠ p.regAddr.fifoAddrPtr then c.readReg a &&& ~~~v else v)) with
        ptr := if a = p.regAddr.fifoAddrPtr then v else c.ptr }) := by
  by_cases hptr : a = p.regAddr.fifoAddrPtr
  · simp [RefChip.exchange, ha, ← hptr]
  · by_cases hirq : a = p.regAddr.irqFlags
    · simp [RefChip.exchange, ha, hptr, ← hirq, RefChip.setReg]
    · simp [RefChip.exchange, ha, hptr, hirq, RefChip.setReg]

/-- A FIFO byte after one was set. -/
theorem RefChip.cellRead_fifo_cellWrite {c : RefChip} (h : c.wf = true) (a n : Nat) (v : Byte) :
    cellRead (cellWrite c.fifo a v) n = if n = a then v else cellRead c.fifo n := by
  obtain ⟨-, hfifo⟩ : Memory.wf 128 c.reg = true ∧ Memory.wf 256 c.fifo = true := by simpa [RefChip.wf] using h
  exact cellRead_cellWrite hfifo a n v

/-- Settles O60: one equation per kind of frame, the laws of bytes at addresses, and the canonical form kept. -/
theorem referenceChipAnswers : Obligations.ReferenceChipAnswers := by
  intro p c a b v h
  refine ⟨fun ha => RefChip.exchange_readRegister ha c, ?_, fun ha => ?_, ?_, RefChip.wf_step h p _, RefChip.wf_step h p _⟩
  · rintro rfl
    exact RefChip.exchange_readFifo p c
  · rw [RefChip.exchange_writeRegister ha]
    refine ⟨rfl, rfl, rfl, (RefChip.readReg_setReg h a b _).trans ?_⟩
    by_cases hb : b = a <;> simp [hb]
  · rintro rfl
    rw [RefChip.exchange_writeFifo]
    exact ⟨rfl, rfl, rfl, fun n => RefChip.cellRead_fifo_cellWrite h _ n v⟩

end Sys2Proof.Machine

/-! While the lock is held, OWNER, PEND and the port stay as they are, and no service starts (60_exceptions.md R279). -/
namespace Sys2Proof.Machine

/-- Unless the lock is free afterwards, its owner is the same and a pending edge is still pending. -/
def KeepsLock (s t : State) : Prop := t.busy = true → t.owner = s.owner ∧ (s.pend = true → t.pend = true)

theorem KeepsLock.of_eq {s t : State} (ho : t.owner = s.owner) (hp : t.pend = s.pend) : KeepsLock s t :=
  fun _ => ⟨ho, hp.trans⟩

theorem KeepsLock.of_free {s t : State} (h : t.busy = false) : KeepsLock s t := fun hb => by simp [h] at hb

/-- A command's error frees the lock (60_exceptions.md R271). -/
theorem raiseError_frees {s : State} (ho : s.owner = .command) (c : ErrCode) (a : Addr) (x : Byte) :
    (raiseError c a x s).busy = false := by
  rw [raiseError_command ho]; rfl

/-- A command's error frees the lock; a service's error keeps it (60_exceptions.md R271, 45_rx_sequencer.md R239). -/
theorem raiseError_keepsLock (c : ErrCode) (a : Addr) (x : Byte) (s : State) : KeepsLock s (raiseError c a x s) := by
  cases ho : s.owner with
  | command => exact .of_free (raiseError_frees ho c a x)
  | service => rw [raiseError_service ho]; exact .of_eq rfl rfl

/-- I1_VER clears PEND only where it halts the block, and that frees the lock (70_reset_and_hazards.md R312). -/
theorem takeI1Ver_keepsLock {s : State} (ho : s.owner = .command) (d : Byte) : KeepsLock s (takeI1Ver d s) := by
  unfold takeI1Ver
  split
  · exact .of_eq rfl rfl
  · refine .of_free (raiseError_frees ?_ _ _ _)
    exact ho

theorem jobTakes_keepsLock (d : Byte) (s : State) : KeepsLock s (jobTakes d s) := by
  unfold jobTakes
  split
  · exact .of_eq rfl rfl
  · split
    · exact .of_eq rfl rfl
    · exact .of_free rfl

theorem jobFails_keepsLock (a : Addr) (x : Byte) (s : State) : KeepsLock s (jobFails a x s) := by
  unfold jobFails
  split
  · exact .of_eq rfl rfl
  · rename_i j _
    obtain ⟨v, hl⟩ := jobLoses_moves j.kind s
    rw [hl]
    exact raiseError_keepsLock _ _ _ { s with modev := v }

/-- A step that takes its transaction's byte frees the lock where its sequence ends, and keeps it elsewhere. -/
theorem takeData_keepsLock {s : State} (ho : s.owner = .command ∨ isReceive s.step = true) (d : Byte) :
    KeepsLock s (takeData d s) := by
  cases hst : s.step <;> simp only [takeData, hst]
  case s8Ack | i6Rxc => exact .of_free rfl
  case i1Ver => exact takeI1Ver_keepsLock (ho.resolve_right (by simp [hst, isReceive])) d
  case cmd => exact jobTakes_keepsLock d s
  all_goals exact .of_eq rfl rfl

/-- A step that takes its transaction's TransportError raises it, or S8_ACK ends its service. -/
theorem takeError_keepsLock (a : Addr) (x : Byte) (s : State) : KeepsLock s (takeError a x s) := by
  cases hst : s.step <;> simp only [takeError, hst]
  case none | s4Split | i0Rst => exact .of_eq rfl rfl
  case s8Ack => exact .of_free rfl
  case cmd => exact jobFails_keepsLock a x s
  case i2Sleep | i5sStdby | i6Rxc => exact raiseError_keepsLock _ _ _ (loseMode s)
  all_goals exact raiseError_keepsLock _ _ _ s

theorem performFrame_keepsLock {s : State} (ho : s.owner = .command ∨ isReceive s.step = true) (f : Frame) :
    KeepsLock s (performFrame f s) := by
  obtain ⟨as, n, c, l, bs, -, ⟨d, hd⟩ | ⟨x, hx⟩⟩ := performFrame_cases f s
  · rw [hd]; exact takeData_keepsLock (s := { s with answers := as, draws := n, chip := c, history := _ }) ho d
  · rw [hx]; exact takeError_keepsLock _ x { s with answers := as, draws := n, chip := c, history := _ }

/-- A step without a transaction keeps the lock, or raises S4_SPLIT's error. -/
theorem internalStep_keepsLock (s : State) : KeepsLock s (internalStep s) := by
  cases hst : s.step <;> simp only [internalStep, hst]
  case s4Split =>
    unfold stepS4Split
    split
    · exact raiseError_keepsLock _ _ _ s
    · exact .of_eq rfl rfl
  all_goals exact .of_eq rfl rfl

/-- An edge sets PEND or leaves it; SHUTDOWN and BLOCK_RESET free the lock (60_exceptions.md R280, R292). -/
theorem takeInput_keepsLock (e : Input) (s : State) : KeepsLock s (takeInput e s) := by
  cases e with
  | quiet => exact .of_eq rfl rfl
  | irqSample level =>
    simp only [takeInput, sampleIrq]
    split
    · exact fun _ => ⟨rfl, fun hp => by simp [hp]⟩
    · exact .of_eq rfl rfl
  | timerLow => simp only [takeInput, timerLowDone]; split <;> exact .of_eq rfl rfl
  | timerHigh => simp only [takeInput, timerHighDone]; split <;> exact .of_eq rfl rfl
  | shutdown => exact .of_free rfl
  | shutdownInFlight => exact .of_free rfl
  | blockReset => exact .of_free rfl
  | offer o => exact .of_eq rfl rfl

/-- An input event takes no word from the port (60_exceptions.md R276). -/
theorem takeInput_port (e : Input) (s : State) : s.port <+: (takeInput e s).port := by
  cases e with
  | offer o => exact List.prefix_append _ _
  | irqSample level => simp only [takeInput, sampleIrq]; split <;> exact List.prefix_rfl
  | timerLow => simp only [takeInput, timerLowDone]; split <;> exact List.prefix_rfl
  | timerHigh => simp only [takeInput, timerHighDone]; split <;> exact List.prefix_rfl
  | _ => exact List.prefix_rfl

theorem exchange_port (f : Frame) (s : State) : (exchange f s).2.port = s.port := by
  obtain ⟨as, d, c, l, bs, -, h⟩ := exchange_cases f s
  rw [h]

theorem performFrame_port (f : Frame) (s : State) : (performFrame f s).port = s.port := by
  unfold performFrame
  split
  · exact (takeData_moves _ _).1.port.trans (exchange_port f s)
  · exact (takeError_moves _ _ _).1.port.trans (exchange_port f s)

/-- With the lock held, a step takes no word from the port, and keeps OWNER and PEND unless it frees the lock. -/
theorem step_keepsLock {s t : State} (h : stateOk s = true) (hstep : step s = .next t) (hb : s.busy = true) :
    s.port <+: t.port ∧ KeepsLock s t := by
  obtain ⟨e, rest, -, -, rfl⟩ | ⟨f, rest, -, -, -, -, rfl⟩ | ⟨r, hr, own⟩ := step_cases hstep
  · exact ⟨takeInput_port e { s with inputs := rest }, takeInput_keepsLock e { s with inputs := rest }⟩
  · exact ⟨by simp [exchange_port], .of_free rfl⟩
  · have ⟨hok, hbusy, hport, hlock⟩ : stateOk r = true ∧ r.busy = true ∧ r.port = s.port ∧
        ∀ u, KeepsLock r u → KeepsLock s u := by
      obtain ⟨rfl, -⟩ | ⟨rest, -, rfl⟩ := hr <;> exact ⟨h, hb, rfl, fun _ => id⟩
    obtain ⟨f, -, -, -, rfl⟩ | ⟨-, -, -, rfl⟩ | ⟨hfree, -⟩ | ⟨hfree, -⟩ | ⟨hfree, -⟩ := own
    · have hp := (performFrame_port f r).trans hport
      exact ⟨by rw [hp], hlock _ (performFrame_keepsLock (owner_command_or_isReceive hok) f)⟩
    · have hp := (internalStep_moves r).1.port.trans hport
      exact ⟨by rw [hp], hlock _ (internalStep_keepsLock r)⟩
    all_goals simp [hbusy] at hfree

/-- While the lock is held a sequence is in progress (10_state.md R24). -/
theorem step_ne_none_of_busy {s : State} (h : stateOk s = true) (hb : s.busy = true) : s.step ≠ .none := by
  obtain ⟨-, hsit, -⟩ := (stateOk_iff_situation s).1 h
  obtain ⟨-, hfree, -⟩ | ⟨hst, -⟩ | ⟨hi, -⟩ | ⟨hr, -⟩ := hsit
  · simp [hb] at hfree
  · simp [hst]
  · exact (isInit_not_other hi).1
  · exact (isReceive_not_other hr).1

/-- No sequence's step comes before S0_IRQ (10_state.md R23). -/
theorem eq_s0Irq_of_code_le {p : SeqStep} (hp : p ≠ .none) (h : p.code.toNat ≤ SeqStep.s0Irq.code.toNat) : p = .s0Irq := by
  cases p <;> revert hp h <;> decide

/-- Settles O55: a step keeps the lock or frees it, and S0_IRQ is not entered, for STEP's code does not fall (O54). -/
theorem ownerKeepsTheLock : Obligations.OwnerKeepsTheLock := by
  intro s t h hstep hb
  obtain ⟨⟨more, hport⟩, hlock⟩ := step_keepsLock h hstep hb
  refine ⟨⟨more, hport.symm⟩, fun htb => ?_⟩
  obtain ⟨howner, hpend⟩ := hlock htb
  refine ⟨howner, fun hs0 => eq_s0Irq_of_code_le (step_ne_none_of_busy h hb) ?_, hpend⟩
  obtain ⟨hle, -⟩ := stepNeverMovesBackwards s t h hstep hb (by simp [hs0])
  rwa [hs0] at hle

end Sys2Proof.Machine

/-! The decoder as a search of the operation map, and the encoder as its inverse (30_encoding.md R90, R95 to R97). -/
namespace Sys2Proof.Machine

/-! ## The operation map as the decoder reads it -/

/-- A row of the operation map, with what a word that selects it is. -/
abbrev InstrRow := CommandRow × (CommandWord → Instr)

/-- The rows of the operation map, each with the fields of its format (30_encoding.md R96, R97). -/
def instrRows : List InstrRow :=
  commandRows.zip
    [fun w => .enc (w.extractLsb' 24 4) (w.extractLsb' 21 3) (w.extractLsb' 20 1) (w.extractLsb' 16 4) (w.extractLsb' 15 1),
     fun w => .encp (w.extractLsb' 0 2),
     fun _ => .f2r,
     fun w => .r2f (w.extractLsb' 16 8) (w.extractLsb' 8 8) (w.extractLsb' 0 8),
     fun w => .irqd (w.extractLsb' 0 8),
     fun w => .snrc (w.extractLsb' 0 8),
     fun w => .rssic (w.extractLsb' 0 8),
     fun w => .rd (w.extractLsb' 8 7),
     fun w => .wr (w.extractLsb' 8 7) (w.extractLsb' 0 8),
     fun w => .brd (w.extractLsb' 8 7) (w.extractLsb' 0 8),
     fun w => .mode (w.extractLsb' 0 3),
     fun _ => .sfrq,
     fun w => .smdm (w.extractLsb' 8 8) (w.extractLsb' 0 8),
     fun w => .init (w.extractLsb' 0 2)]

theorem map_fst_instrRows : instrRows.map Prod.fst = commandRows := rfl

theorem fst_mem_commandRows {p : InstrRow} (hp : p ∈ instrRows) : p.1 ∈ commandRows :=
  map_fst_instrRows ▸ List.mem_map_of_mem hp

theorem exists_instrRow {r : CommandRow} (hr : r ∈ commandRows) : ∃ p ∈ instrRows, p.1 = r :=
  List.mem_map.1 (map_fst_instrRows ▸ hr)

/-- The instruction of the first row the word selects, and `x` where it selects none. -/
def decodeIn (w : CommandWord) (x : Except DecodeError Instr) : List InstrRow → Except DecodeError Instr
  | [] => x
  | p :: ps => if w &&& p.1.mask = p.1.value then .ok (p.2 w) else decodeIn w x ps

/-- The decoder tries the rows in the order of OP. -/
theorem decodeCommand_eq_decodeIn (w : CommandWord) :
    decodeCommand w = decodeIn w
      (if opOf w = 0x0#4 ∨ opOf w = 0xF#4 then .error (.reservedOp (opOf w)) else .error (.mbzSet (opOf w))) instrRows := rfl

/-- Either the word selects one of the rows and is read as such a row's instruction, or it selects none. -/
theorem decodeIn_cases (w : CommandWord) (x : Except DecodeError Instr) (ps : List InstrRow) :
    (∃ p ∈ ps, w &&& p.1.mask = p.1.value ∧ decodeIn w x ps = .ok (p.2 w)) ∨
      (∀ p ∈ ps, w &&& p.1.mask ≠ p.1.value) ∧ decodeIn w x ps = x := by
  induction ps with
  | nil => exact .inr ⟨nofun, rfl⟩
  | cons p ps ih =>
    by_cases h : w &&& p.1.mask = p.1.value
    · exact .inl ⟨p, List.mem_cons_self, h, if_pos h⟩
    · have hnext : decodeIn w x (p :: ps) = decodeIn w x ps := if_neg h
      rw [hnext]
      obtain ⟨q, hq, hsel⟩ | ⟨hnone, hx⟩ := ih
      · exact .inl ⟨q, List.mem_cons_of_mem p hq, hsel⟩
      · exact .inr ⟨List.forall_mem_cons.2 ⟨h, hnone⟩, hx⟩

/-! ## The bits a mask fixes -/

/-- A field the mask covers reads in the word what it reads in the matched value. -/
theorem field_of_masked {n : Nat} {w m v : BitVec n} (h : w &&& m = v) (start len : Nat)
    (hm : m.extractLsb' start len = BitVec.allOnes len) : v.extractLsb' start len = w.extractLsb' start len := by
  rw [← h, BitVec.extractLsb'_and, hm, BitVec.and_allOnes]

/-- Every row's mask covers OP, so a word that selects the row has its OP (30_encoding.md R97). -/
theorem opOf_of_selects {r : CommandRow} (hr : r ∈ commandRows) {w : CommandWord} (h : w &&& r.mask = r.value) :
    opOf w = r.op := by
  have top : ∀ r ∈ commandRows, r.mask.extractLsb' 28 4 = BitVec.allOnes 4 ∧ r.value.extractLsb' 28 4 = r.op := by decide
  obtain ⟨hmask, hvalue⟩ := top r hr
  exact (field_of_masked h 28 4 hmask).symm.trans hvalue

theorem instrRows_op_injective {p q : InstrRow} (hp : p ∈ instrRows) (hq : q ∈ instrRows) (h : p.1.op = q.1.op) : p = q := by
  have nodup : (instrRows.map fun p => p.1.op).Nodup := by decide
  exact List.inj_on_of_nodup_map nodup hp hq h

/-- A word that selects a row is the instruction of the row of its OP. -/
theorem decodeCommand_of_op {w : CommandWord} (hw : ∃ r ∈ commandRows, w &&& r.mask = r.value) {p : InstrRow}
    (hp : p ∈ instrRows) (hop : opOf w = p.1.op) : decodeCommand w = .ok (p.2 w) := by
  rw [decodeCommand_eq_decodeIn]
  obtain ⟨q, hq, hsel, hd⟩ | ⟨hnone, -⟩ := decodeIn_cases w _ instrRows
  · have hpq : q = p := instrRows_op_injective hq hp ((opOf_of_selects (fst_mem_commandRows hq) hsel).symm.trans hop)
    rw [hd, hpq]
  · obtain ⟨r, hr, hsel⟩ := hw
    obtain ⟨q, hq, rfl⟩ := exists_instrRow hr
    exact absurd hsel (hnone q hq)

/-- A word decodes to the instructions of the rows it selects, and to nothing else (30_encoding.md R97). -/
theorem decodeCommand_ok_iff (w : CommandWord) (i : Instr) :
    decodeCommand w = .ok i ↔ ∃ p ∈ instrRows, w &&& p.1.mask = p.1.value ∧ p.2 w = i := by
  constructor
  · intro h
    rw [decodeCommand_eq_decodeIn] at h
    obtain ⟨p, hp, hsel, hd⟩ | ⟨-, hd⟩ := decodeIn_cases w _ instrRows
    · exact ⟨p, hp, hsel, Except.ok.inj (hd.symm.trans h)⟩
    · rw [hd] at h
      split at h <;> cases h
  · rintro ⟨p, hp, hsel, rfl⟩
    have hr := fst_mem_commandRows hp
    exact decodeCommand_of_op ⟨p.1, hr, hsel⟩ hp (opOf_of_selects hr hsel)

/-- A row's bus column is that of its instruction (30_encoding.md R97, R99). -/
theorem bus_instrRows : ∀ p ∈ instrRows, ∀ w, p.1.bus = usesBus (p.2 w) := by
  simp [instrRows, commandRows, usesBus]

/-- Settles O2: a word decodes where it selects a row, and that row fixes OP by its mask. -/
theorem wordSelectsRow : Obligations.WordSelectsRow := by
  refine ⟨fun w => ⟨?_, ?_⟩, fun w i h => ?_⟩
  · rintro ⟨i, h⟩
    obtain ⟨p, hp, hsel, -⟩ := (decodeCommand_ok_iff w i).1 h
    exact ⟨p.1, fst_mem_commandRows hp, hsel⟩
  · rintro ⟨r, hr, hsel⟩
    obtain ⟨p, hp, rfl⟩ := exists_instrRow hr
    exact ⟨p.2 w, (decodeCommand_ok_iff w _).2 ⟨p, hp, hsel, rfl⟩⟩
  · obtain ⟨p, hp, hsel, rfl⟩ := (decodeCommand_ok_iff w i).1 h
    have hr := fst_mem_commandRows hp
    exact ⟨p.1, hr, hsel, (opOf_of_selects hr hsel).symm, bus_instrRows p hp w⟩

/-! ## From instructions to command words and back -/

/-- The word of every instruction selects a row of its table. -/
theorem encode_selects_table : ∀ i : Instr, Laws.TableRow.Statement i
  | .enc .. => Laws.TableRow.enc ..
  | .encp .. => Laws.TableRow.encp ..
  | .f2r => Laws.TableRow.f2r
  | .r2f .. => Laws.TableRow.r2f ..
  | .irqd .. => Laws.TableRow.irqd ..
  | .snrc .. => Laws.TableRow.snrc ..
  | .rssic .. => Laws.TableRow.rssic ..
  | .rd .. => Laws.TableRow.rd ..
  | .wr .. => Laws.TableRow.wr ..
  | .brd .. => Laws.TableRow.brd ..
  | .mode .. => Laws.TableRow.mode ..
  | .sfrq => Laws.TableRow.sfrq
  | .smdm .. => Laws.TableRow.smdm ..
  | .init .. => Laws.TableRow.init ..
  | .busRd .. => Laws.TableRow.busRd ..
  | .busWr .. => Laws.TableRow.busWr ..

theorem encode_selects {i : Instr} {w : CommandWord} (h : encode i = .command w) :
    ∃ r ∈ commandRows, w &&& r.mask = r.value := by
  have hi := encode_selects_table i
  simp only [Laws.TableRow.Statement, h] at hi
  obtain ⟨r, hr, hsel, -⟩ := hi
  exact ⟨r, hr, hsel⟩

/-- An instruction's word has the OP of its row, and the row reads the instruction's operands from it (30_encoding.md R96). -/
theorem encode_fields {i : Instr} {w : CommandWord} (h : encode i = .command w) :
    ∃ p ∈ instrRows, opOf w = p.1.op ∧ p.2 w = i := by
  have row : ∀ k : Fin 14, opOf w = (instrRows.get k).1.op ∧ (instrRows.get k).2 w = i →
      ∃ p ∈ instrRows, opOf w = p.1.op ∧ p.2 w = i := fun k hk => ⟨_, List.get_mem instrRows k, hk⟩
  cases i <;> cases h
  case' enc => apply row 0
  case' encp => apply row 1
  case' f2r => apply row 2
  case' r2f => apply row 3
  case' irqd => apply row 4
  case' snrc => apply row 5
  case' rssic => apply row 6
  case' rd => apply row 7
  case' wr => apply row 8
  case' brd => apply row 9
  case' mode => apply row 10
  case' sfrq => apply row 11
  case' smdm => apply row 12
  case' init => apply row 13
  all_goals
    dsimp only [instrRows, commandRows, List.zip, List.zipWith, List.get, opOf]
    simp (disch := omega) only [BitVec.extractLsb'_append_eq_of_le, BitVec.extractLsb'_append_eq_of_add_le,
      BitVec.extractLsb'_eq_self, Nat.reduceSub]
    decide

/-- A word that selects a row is OP, the fields and the zero bits put together again, for its mask fixes OP and the zero bits
(30_encoding.md R96). -/
theorem encode_of_selects : ∀ p ∈ instrRows, ∀ w : CommandWord, w &&& p.1.mask = p.1.value → encode (p.2 w) = .command w := by
  simp only [instrRows, commandRows, List.zip_cons_cons, List.zip_nil_right, List.forall_mem_cons]
  refine ⟨?enc, ?encp, ?f2r, ?r2f, ?irqd, ?snrc, ?rssic, ?rd, ?wr, ?brd, ?mode, ?sfrq, ?smdm, ?init, nofun⟩
  all_goals
    intro w h
    have fixed := field_of_masked h
    refine congrArg Encoded.command ?_
  case' enc => rw [show 0x1#4 = _ from fixed 28 4 rfl, show 0#15 = _ from fixed 0 15 rfl]
  case' encp => rw [show 0x2#4 = _ from fixed 28 4 rfl, show 0#26 = _ from fixed 2 26 rfl]
  case' f2r => rw [show 0x30000000#32 = _ from fixed 0 32 rfl]
  case' r2f => rw [show 0x4#4 = _ from fixed 28 4 rfl, show 0#4 = _ from fixed 24 4 rfl]
  case' irqd => rw [show 0x5#4 = _ from fixed 28 4 rfl, show 0#20 = _ from fixed 8 20 rfl]
  case' snrc => rw [show 0x6#4 = _ from fixed 28 4 rfl, show 0#20 = _ from fixed 8 20 rfl]
  case' rssic => rw [show 0x7#4 = _ from fixed 28 4 rfl, show 0#20 = _ from fixed 8 20 rfl]
  case' rd => rw [show 0x8#4 = _ from fixed 28 4 rfl, show 0#13 = _ from fixed 15 13 rfl, show 0#8 = _ from fixed 0 8 rfl]
  case' wr => rw [show 0x9#4 = _ from fixed 28 4 rfl, show 0#13 = _ from fixed 15 13 rfl]
  case' brd => rw [show 0xA#4 = _ from fixed 28 4 rfl, show 0#13 = _ from fixed 15 13 rfl]
  case' mode => rw [show 0xB#4 = _ from fixed 28 4 rfl, show 0#25 = _ from fixed 3 25 rfl]
  case' sfrq => rw [show 0xC0000000#32 = _ from fixed 0 32 rfl]
  case' smdm => rw [show 0xD#4 = _ from fixed 28 4 rfl, show 0#12 = _ from fixed 16 12 rfl]
  case' init => rw [show 0xE#4 = _ from fixed 28 4 rfl, show 0#26 = _ from fixed 2 26 rfl]
  all_goals
    repeat rw [BitVec.extractLsb'_append_extractLsb'_eq_extractLsb' (by decide)]
    exact BitVec.extractLsb'_eq_self

theorem decodeCommand_encode {i : Instr} {w : CommandWord} (h : encode i = .command w) : decodeCommand w = .ok i := by
  obtain ⟨p, hp, hop, rfl⟩ := encode_fields h
  exact decodeCommand_of_op (encode_selects h) hp hop

theorem encode_decodeCommand {i : Instr} {w : CommandWord} (h : decodeCommand w = .ok i) : encode i = .command w := by
  obtain ⟨p, hp, hsel, rfl⟩ := (decodeCommand_ok_iff w i).1 h
  exact encode_of_selects p hp w hsel

/-! ## Frames -/

/-- A frame is its write bit, its address and its byte 1 (30_encoding.md R90). -/
theorem frame_eq_fields (w : FrameWord) : w.extractLsb' 15 1 ++ w.extractLsb' 8 7 ++ w.extractLsb' 0 8 = w := by
  repeat rw [BitVec.extractLsb'_append_extractLsb'_eq_extractLsb' (by decide)]
  exact BitVec.extractLsb'_eq_self

theorem frame_fields (b : BitVec 1) (a : Addr) (v : Byte) :
    BitVec.extractLsb' (n := 16) 8 7 (b ++ a ++ v) = a ∧ BitVec.extractLsb' (n := 16) 0 8 (b ++ a ++ v) = v := by
  simp (disch := omega) only [BitVec.extractLsb'_append_eq_of_le, BitVec.extractLsb'_append_eq_of_add_le,
    BitVec.extractLsb'_eq_self, Nat.reduceSub, and_self]

/-- The mask of a write is the write bit. -/
theorem writeMask_iff (w : FrameWord) : w &&& 0x8000#16 = 0x8000#16 ↔ w.getLsbD 15 = true := by
  have hbit : w &&& 0x8000#16 = if w.getLsbD 15 then 0x8000#16 else 0#16 := BitVec.and_twoPow w 15
  rw [hbit]
  cases w.getLsbD 15 <;> decide

theorem extract_writeBit (w : FrameWord) : w.extractLsb' 15 1 = BitVec.ofBool (w.getLsbD 15) := by
  ext i hi
  simp [show i = 0 by omega]

/-- The mask of a read covers the write bit and byte 1. -/
theorem readMask_iff (w : FrameWord) : w &&& 0x80FF#16 = 0x0000#16 ↔ w.getLsbD 15 = false ∧ w.extractLsb' 0 8 = 0#8 := by
  constructor
  · intro h
    have hread : 0#1 = w.extractLsb' 15 1 := field_of_masked h 15 1 rfl
    refine ⟨?_, (field_of_masked h 0 8 rfl).symm⟩
    rw [extract_writeBit] at hread
    revert hread
    cases w.getLsbD 15 <;> decide
  · rintro ⟨hread, hzero⟩
    rw [← frame_eq_fields w, extract_writeBit, hread, hzero]
    generalize w.extractLsb' 8 7 = a
    revert a
    decide

/-- A frame with the write bit is a write (30_encoding.md R90). -/
theorem decodeFrame_write {w : FrameWord} (h : w.getLsbD 15 = true) :
    decodeFrame w = .ok (.busWr (w.extractLsb' 8 7) (w.extractLsb' 0 8)) := if_pos ((writeMask_iff w).2 h)

/-- A frame without the write bit is a read where its byte 1 is zero, and unknown elsewhere (30_encoding.md R90, R91). -/
theorem decodeFrame_not_write {w : FrameWord} (h : w.getLsbD 15 = false) :
    decodeFrame w = if w.extractLsb' 0 8 = 0#8 then .ok (.busRd (w.extractLsb' 8 7)) else .error .unknownFrame := by
  simp only [decodeFrame, writeMask_iff, readMask_iff, h, Bool.false_eq_true, if_false, true_and]

theorem decodeFrame_encode {i : Instr} {w : FrameWord} (h : encode i = .frame w) : decodeFrame w = .ok i := by
  have hi := encode_selects_table i
  simp only [Laws.TableRow.Statement, h] at hi
  obtain ⟨a, v, rfl, hmask⟩ | ⟨a, rfl, hmask⟩ := hi
  · rw [decodeFrame_write ((writeMask_iff w).1 hmask)]
    cases h
    obtain ⟨haddr, hvalue⟩ := frame_fields 1#1 a v
    rw [haddr, hvalue]
  · obtain ⟨hread, hzero⟩ := (readMask_iff w).1 hmask
    rw [decodeFrame_not_write hread, if_pos hzero]
    cases h
    obtain ⟨haddr, -⟩ := frame_fields 0#1 a 0#8
    rw [haddr]

theorem encode_decodeFrame {i : Instr} {w : FrameWord} (h : decodeFrame w = .ok i) : encode i = .frame w := by
  refine Eq.trans ?_ (congrArg Encoded.frame (frame_eq_fields w))
  cases hbit : w.getLsbD 15 with
  | true =>
    cases (decodeFrame_write hbit).symm.trans h
    rw [extract_writeBit, hbit]
    rfl
  | false =>
    rw [decodeFrame_not_write hbit] at h
    split at h
    · rename_i hzero
      cases h
      rw [extract_writeBit, hbit, hzero]
      rfl
    · cases h

/-- Settles O1: on command words row by row of the operation map, on frames by the write bit. -/
theorem decodeAndEncodeAgree : Obligations.DecodeAndEncodeAgree := by
  refine ⟨fun i => ?_, fun w i h => ?_⟩
  · cases h : encode i with
    | command w => exact decodeCommand_encode h
    | frame w => exact decodeFrame_encode h
  · cases w with
    | command w => exact encode_decodeCommand h
    | frame w => exact encode_decodeFrame h

end Sys2Proof.Machine

/-! No step emits an unknown frame (30_encoding.md R90, R91): the only BUS events are those of a sequence's own frames. -/
namespace Sys2Proof.Machine

/-- Where the BUS events of the past are legal frames, so are those of the later history. -/
def KeepsFrames (s t : State) : Prop := framesLegal s.history → framesLegal t.history

theorem KeepsFrames.trans {s t u : State} (h : KeepsFrames s t) (g : KeepsFrames t u) : KeepsFrames s u := fun hs => g (h hs)

theorem framesLegal_append {h g : List Event} (hh : framesLegal h) (hg : framesLegal g) : framesLegal (h ++ g) :=
  fun b0 b1 l bs hm => (List.mem_append.1 hm).elim (hh b0 b1 l bs) (hg b0 b1 l bs)

/-- What emits no BUS event keeps the frames legal. -/
theorem KeepsFrames.of_grows {s t : State} (h : Grows s t) : KeepsFrames s t := by
  obtain ⟨evs, ht, hbus⟩ := h
  have hevs : framesLegal evs := fun b0 b1 l bs hm => by simpa [isBus] using hbus _ hm
  exact fun hs => ht ▸ framesLegal_append hs hevs

/-- An exchange emits the BUS event of its own frame alone. -/
theorem exchange_keepsFrames (f : Frame) (s : State) : KeepsFrames s (exchange f s).2 := by
  obtain ⟨as, d, c, l, bs, -, h⟩ := exchange_cases f s
  rw [h]
  refine fun hs => framesLegal_append hs ?_
  rintro b0 b1 l' bs' hm
  cases List.mem_singleton.1 hm
  simpa [eventOk] using eventOk_bus f l bs

theorem performFrame_keepsFrames (f : Frame) (s : State) : KeepsFrames s (performFrame f s) := by
  unfold performFrame
  split
  · exact (exchange_keepsFrames f s).trans (.of_grows (takeData_moves _ _).2)
  · exact (exchange_keepsFrames f s).trans (.of_grows (takeError_moves _ _ _).2)

/-- An input event but BLOCK_RESET emits no BUS event. -/
theorem takeInput_grows {e : Input} (he : e ≠ .blockReset) (s : State) : Grows s (takeInput e s) := by
  cases e with
  | quiet => exact .refl s
  | irqSample level =>
    simp only [takeInput, sampleIrq]
    split
    · exact ⟨[.edge], rfl, by simp [isBus]⟩
    · exact .of_eq rfl
  | timerLow =>
    simp only [takeInput, timerLowDone]
    split
    · exact ⟨[.rst true], rfl, by simp [isBus]⟩
    · exact .refl s
  | timerHigh =>
    simp only [takeInput, timerHighDone]
    split <;> exact .of_eq rfl
  | shutdown => exact ⟨[.rst false], rfl, by simp [isBus]⟩
  | shutdownInFlight => exact ⟨[.rst false], rfl, by simp [isBus]⟩
  | blockReset => exact absurd rfl he
  | offer o => exact .of_eq rfl

theorem takeInput_keepsFrames (e : Input) (s : State) : KeepsFrames s (takeInput e s) := by
  by_cases he : e = .blockReset
  · subst he
    exact fun _ => nofun
  · exact .of_grows (takeInput_grows he s)

/-- Accepting a command makes no transaction yet. -/
theorem acceptOffer_grows {o : Offer} {rest : List Offer} {s t : State} (hb : s.busy = false)
    (h : acceptOffer o rest s = .next t) : Grows s t := by
  have hopen : ∀ cw, Grows s (taken o rest cw s) := fun cw => ⟨[.cmd cw], rfl, by simp [isBus]⟩
  obtain ⟨cw, ⟨r, e, rfl⟩ | ⟨-, k, f, fs, -, rfl⟩ | ⟨-, p, frf, rfl⟩⟩ := acceptOffer_cases hb h
  · exact (hopen cw).trans (completeCommand_moves r e _).2
  · exact (hopen cw).trans (.of_eq rfl)
  · exact (hopen cw).trans (startInit_moves p frf _).2

theorem step_keepsFrames {s t : State} (h : step s = .next t) : KeepsFrames s t := by
  obtain ⟨e, rest, -, -, rfl⟩ | ⟨f, rest, -, -, -, -, rfl⟩ | ⟨r, hr, own⟩ := step_cases h
  · exact takeInput_keepsFrames e { s with inputs := rest }
  · exact (exchange_keepsFrames f { s with inputs := rest }).trans (takeInput_keepsFrames .shutdown _)
  · have hs : KeepsFrames s r := by
      obtain ⟨rfl, -⟩ | ⟨rest, -, rfl⟩ := hr <;> exact id
    refine hs.trans ?_
    obtain ⟨f, -, -, -, rfl⟩ | ⟨-, -, -, rfl⟩ | ⟨-, -, gs, n, rfl⟩ | ⟨hb, o, rest, gs, n, -, ha⟩ | ⟨-, -, -, rfl⟩ :=
      own
    · exact performFrame_keepsFrames f r
    · exact .of_grows (internalStep_moves r).2
    · exact id
    · exact .of_grows (acceptOffer_grows (s := { r with grants := gs, grantDraws := n }) hb ha)
    · exact id

theorem encode_busRd (a : Addr) : encode (.busRd a) = .frame ((Frame.read a).b0 ++ (Frame.read a).b1) := by
  have hb0 : ∀ a : Addr, 0#1 ++ a = a.setWidth 8 := by decide
  rw [encode, hb0]
  rfl

theorem encode_busWr (a : Addr) (v : Byte) : encode (.busWr a v) = .frame ((Frame.write a v).b0 ++ (Frame.write a v).b1) := by
  have hb0 : ∀ a : Addr, 1#1 ++ a = 0x80#8 ||| a.setWidth 8 := by decide
  rw [encode, hb0]
  rfl

/-- Settles O3: the bytes of the two kinds of frames, the three classes by the write bit and byte 1, and the step. -/
theorem onlyLegalFramesEmitted : Obligations.OnlyLegalFramesEmitted := by
  refine ⟨fun a => ⟨rfl, rfl, ?_, encode_busRd a⟩, fun a v => ⟨BitVec.or_comm _ _, rfl, ?_, encode_busWr a v⟩,
    fun w => ⟨decodeFrame_write, fun h hz => ?_, fun h hz => ?_⟩, fun s t hs h => step_keepsFrames h hs⟩
  · simp [Frame.b0]
  · simp [Frame.b0]
  · rw [decodeFrame_not_write h, if_pos hz]
  · rw [decodeFrame_not_write h, if_neg hz]

end Sys2Proof.Machine

/-! A word that selects no row (30_encoding.md R99). -/
namespace Sys2Proof.Machine

theorem serviceReady_false {s : State} (h : ¬ (s.pend = true ∧ s.phase = .run)) : serviceReady s = false := by
  by_contra hready
  simp only [serviceReady, Bool.not_eq_false, Bool.and_eq_true, decide_eq_true_eq] at hready
  exact h hready.1

/-- With no service to start, the first offered word is accepted (60_exceptions.md R276). -/
theorem freeStep_offer {s : State} {o : Offer} {rest : List Offer} (hp : s.port = o :: rest) (hs : serviceReady s = false) :
    freeStep s = acceptOffer o rest s := by
  simp [freeStep, hp, hs]

/-- The command of a word that selects no row fails at STEP CMD. -/
theorem acceptIllegal_eq (cw : CommandWord) (s : State) :
    acceptIllegal cw s = failed (errWord ⟨.illegal, false, .cmd, 0, opAux cw⟩) (opened cw s) :=
  raiseError_failed rfl (by decide) 0 (opAux cw)

theorem acceptOffer_undecodable {o : Offer} {e : DecodeError} (he : decode (.command o.cw) = .error e) (rest : List Offer)
    (s : State) :
    acceptOffer o rest s = .next (failed (errWord ⟨.illegal, false, .cmd, 0, opAux o.cw⟩) (taken o rest o.cw s)) := by
  simp only [acceptOffer, he, acceptIllegal_eq, taken]

/-- Settles O11: with the lock free and no service to start, the word is taken and its command fails. -/
theorem undecodableWordIsIllegal : Obligations.UndecodableWordIsIllegal := by
  rintro s o rest e ⟨hb, hi⟩ hp hs he
  rw [step_free hb hi, freeStep_offer hp (serviceReady_false hs), acceptOffer_undecodable he]
  rfl

end Sys2Proof.Machine

/-! Register access: RD, WR and BRD (40_register_access.md), from acceptance through the frames to RESP. -/
namespace Sys2Proof.Machine

/-! ## Acceptance -/

/-- With the lock free and the phase permitting bus commands, a command with legal operands runs its rule
(60_exceptions.md R276). -/
theorem accept_freeForBus {i : Instr} {s : State} (h : freeForBus s) (hw : i.wellFormed s.cfg = true) (f : State → State) :
    accept i f s = .next (f (opened (encodeCommand i) s)) := by
  obtain ⟨hb, -, hp⟩ := h
  exact accept_performs hb hw (fun _ => hp) f

/-- After acceptance the command holds the lock at STEP CMD. -/
theorem holdsAt_cmd_of_freeForBus {s : State} (h : freeForBus s) (k : JobKind) (fs : List Frame) (cw : CommandWord) :
    holdsAt .cmd (withJob k fs (opened cw s)) := by
  obtain ⟨-, hi, -⟩ := h
  exact ⟨rfl, hi, rfl⟩

/-! ## The answer -/

theorem answerAux_toNat {a : Answer} (h0 : 0 ≤ a.length) (h1 : a.length ≤ 255) : (answerAux a).toNat = a.length.toNat := by
  rw [answerAux, max_eq_left h0, min_eq_left h1, BitVec.toNat_ofNat]
  omega

theorem answerAux_of_neg {a : Answer} (h : a.length < 0) : answerAux a = 0 := by
  rw [answerAux, max_eq_right h.le]
  rfl

theorem answerAux_of_gt {a : Answer} (h : 255 < a.length) : answerAux a = 255 := by
  rw [answerAux, max_eq_left (by omega), min_eq_right h.le]
  rfl

/-! ## The frame of a command in progress -/

/-- At STEP CMD no register is read, and the command takes the answer to its frame (40_register_access.md R133). -/
theorem exec_frame_cmd {s : State} {a : Answer} {rest : List Answer} (hc : s.step = .cmd) (ha : s.answers = a :: rest)
    (f : Frame) :
    exec f.instr s = .next
      (if answerGood a then jobTakes (answerData a) (afterFrames [f] [a] rest s)
       else jobFails f.addr (answerAux a) (afterFrames [f] [a] rest s)) := by
  rw [exec_frame, unlessUnwritten_written (by simp [hc, stepReads]), performFrame_listed ha]
  simp [takeData, takeError, hc]

/-- A good answer to a command's last frame completes the command (40_register_access.md R133). -/
theorem exec_lastFrame_good {s : State} {k : JobKind} {f : Frame} {got : List Byte} {a : Answer} {rest : List Answer}
    (hc : s.step = .cmd) (ha : s.answers = a :: rest) (hj : s.job = some ⟨k, [f], got⟩) (hg : answerGood a = true) :
    exec f.instr s = .next (finished (jobResult s.cfg k (got ++ [answerData a]) (answerData a))
      (jobTracks k (afterFrames [f] [a] rest s))) := by
  rw [exec_frame_cmd hc ha, if_pos hg, jobTakes_last (by simpa using hj), afterFrames_cfg]

/-- An answer of another length raises TRANSPORT with the frame's address and the clamped length
(40_register_access.md R133). -/
theorem exec_frame_bad {s : State} {j : Job} {f : Frame} {a : Answer} {rest : List Answer} (hc : s.step = .cmd)
    (ho : s.owner = .command) (ha : s.answers = a :: rest) (hj : s.job = some j) (hg : answerGood a = false) :
    exec f.instr s = .next (failed (errWord ⟨.transport, false, .cmd, f.addr, answerAux a⟩)
      (jobLoses j.kind (afterFrames [f] [a] rest s))) := by
  obtain ⟨v, hv⟩ := jobLoses_moves j.kind (afterFrames [f] [a] rest s)
  have hraise := raiseError_failed (s := jobLoses j.kind (afterFrames [f] [a] rest s)) (by simpa [hv] using ho)
    (c := .transport) (by decide) f.addr (answerAux a)
  have hstep : (jobLoses j.kind (afterFrames [f] [a] rest s)).step = .cmd := by simpa [hv] using hc
  rw [exec_frame_cmd hc ha, if_neg (by simp [hg]), jobFails_some (by simpa using hj), hraise, hstep]

/-- Settles O24: the two kinds of answers, each for the one frame of an RD and of a WR. -/
theorem busFramesCompleteCommands : Obligations.BusFramesCompleteCommands := by
  intro s a v ans rest hc ho ha
  refine ⟨⟨answerGood_iff ans, answerAux_toNat, answerAux_of_neg, answerAux_of_gt⟩, ?_, ?_, ?_, ?_⟩
  · rintro b0 d hj rfl
    exact exec_lastFrame_good (f := .read a) hc ha hj rfl
  · intro hj hg
    simpa [Frame.instr, jobLoses] using exec_frame_bad (f := .read a) hc ho ha hj hg
  · rintro b0 d hj rfl
    exact exec_lastFrame_good (f := .write a v) hc ha hj rfl
  · intro hj hg
    simpa [Frame.instr, jobLoses] using exec_frame_bad (f := .write a v) hc ho ha hj hg

/-! ## From acceptance to completion -/

/-- A command of one frame with a good answer completes in one step. -/
theorem job_completes_single {s : State} {k : JobKind} {f : Frame} {a : Answer} {rest : List Answer} (hs : holdsAt .cmd s)
    (hj : s.job = some ⟨k, [f], []⟩) (ha : s.answers = a :: rest) (hg : answerGood a = true) :
    runsTo 1 s (finished (jobResult s.cfg k [answerData a] (answerData a)) (jobTracks k (afterFrames [f] [a] rest s))) :=
  job_completes (before := []) (as := []) hs hj ha rfl nofun hg

/-- Settles O25: RD is accepted with its one read, whose good answer completes it. -/
theorem rdReadsOneByte : Obligations.RdReadsOneByte := by
  intro a s h
  refine ⟨_, accept_freeForBus h rfl _, rfl, fun b0 d rest ha => ?_⟩
  exact job_completes_single (holdsAt_cmd_of_freeForBus h .rd [.read a] _) rfl ha rfl

/-- Settles O26: WR is accepted with its one write, whose good answer completes it. -/
theorem wrWritesOneByte : Obligations.WrWritesOneByte := by
  intro a v s h
  refine ⟨_, accept_freeForBus h rfl _, rfl, fun b0 d rest ha => ?_⟩
  exact job_completes_single (holdsAt_cmd_of_freeForBus h .wr [.write a v] _) rfl ha rfl

/-- A BRD in progress with `k` reads to make and `k` good answers completes in `k` steps, with their bytes in order
(40_register_access.md R132). -/
theorem burst_completes {s : State} {a : Addr} {k : Nat} {as rest : List Answer} (hk : 0 < k) (hs : holdsAt .cmd s)
    (hj : s.job = some ⟨.brd, List.replicate k (.read a), []⟩) (ha : s.answers = as ++ rest) (hl : as.length = k)
    (hg : ∀ x ∈ as, answerGood x = true) :
    runsTo k s (finished (.brd (as.map answerData)) (afterFrames (List.replicate k (.read a)) as rest s)) := by
  obtain rfl | ⟨before, last, rfl⟩ := as.eq_nil_or_concat
  · simp at hl
    omega
  obtain rfl : before.length + 1 = k := by simpa using hl
  have run := job_completes (before := List.replicate before.length (.read a)) (f := .read a) (as := before) (a := last)
    (rest := rest) hs (by simpa [List.replicate_succ'] using hj) (by simpa using ha) (by simp)
    (fun x hx => hg x (by simp [hx])) (hg last (by simp))
  simpa [jobResult, jobTracks, List.replicate_succ'] using run

/-- BRD is accepted with as many reads of its address as BURST_MODE says (40_register_access.md R132). -/
theorem exec_brd {s : State} (h : freeForBus s) (a : Addr) (n : Byte) :
    exec (.brd a n) s = .next (startJob .brd (List.replicate (burstCount s.cfg.burstMode n) (.read a))
      (opened (encodeCommand (.brd a n)) s)) :=
  accept_freeForBus h rfl _

/-- Settles O27: a burst of no reads completes at once; a longer one runs its reads, one for each step. -/
theorem brdReadsBurst : Obligations.BrdReadsBurst := by
  intro a n s h
  refine ⟨burstCount s.cfg.burstMode n, fun hm => by rw [hm]; rfl, fun hm => by rw [hm]; rfl, fun hk => ?_, fun hk => ?_⟩
  · rw [exec_brd h, hk]
    exact congrArg _ (startJob_nil .brd _)
  · obtain ⟨k, hk'⟩ := Nat.exists_eq_add_one.2 hk
    refine ⟨_, ?_, rfl, fun as rest ha hl hg => ?_⟩
    · rw [exec_brd h, hk', List.replicate_succ, startJob_cons]
    · exact burst_completes hk (holdsAt_cmd_of_freeForBus h .brd _ _) rfl ha hl hg

end Sys2Proof.Machine

/-! The frequency synthesizer converter: F2R, R2F and SFRQ (41_frequency.md). -/
namespace Sys2Proof.Machine

/-! ## The conversions -/

/-- The quotient truncates to a word: below 2^24 a nonnegative rational has its integer part among the 24-bit words
(41_frequency.md R151). -/
theorem exists_word_truncating {q : Rat} (h0 : 0 ≤ q) (h1 : q < 16777216) :
    ∃ frf : BitVec 24, (frf.toNat : Rat) ≤ q ∧ q < frf.toNat + 1 := by
  have hfloor : ⌊q⌋₊ < 2 ^ 24 := (Nat.floor_lt h0).2 (by simpa using h1)
  refine ⟨BitVec.ofNatLT ⌊q⌋₊ hfloor, ?_, ?_⟩
  · exact Nat.floor_le h0
  · exact Nat.lt_floor_add_one q

/-- The conversion gives the word that truncates the quotient, and no other (41_frequency.md R151). -/
theorem f2rFun_eq_some_iff {p : Params} {mhz : Mhz} {frf : BitVec 24} :
    f2rFun p mhz = some frf ↔
      ∃ q, freqQuotient p.freqArith mhz = some q ∧ (frf.toNat : Rat) ≤ q ∧ q < frf.toNat + 1 := by
  unfold f2rFun
  cases hq : freqQuotient p.freqArith mhz with
  | none => simp
  | some q =>
    simp only [Option.some.injEq, exists_eq_left']
    have hword : (frf.toNat : Rat) + 1 ≤ 16777216 := by exact_mod_cast frf.isLt
    have hfloor : q.floor.toNat = ⌊q⌋₊ := rfl
    by_cases hr : q < 0 ∨ 16777216 ≤ q
    · rw [if_pos hr]
      have hn : (0 : Rat) ≤ frf.toNat := Nat.cast_nonneg _
      simp only [reduceCtorEq, false_iff, not_and, not_lt]
      intro hle
      obtain hneg | hbig := hr
      · linarith
      · linarith
    · obtain ⟨h0, h1⟩ : 0 ≤ q ∧ q < 16777216 := by simpa using hr
      have hlt : ⌊q⌋₊ < 2 ^ 24 := (Nat.floor_lt h0).2 (by simpa using h1)
      rw [if_neg hr, hfloor, Option.some.injEq, ← BitVec.toNat_inj, BitVec.toNat_ofNat, Nat.mod_eq_of_lt hlt,
        Nat.floor_eq_iff h0]

/-- RANGE is raised exactly where the quotient is not finite or leaves [0, 2^24) (41_frequency.md R151). -/
theorem f2rFun_eq_none_iff {p : Params} {mhz : Mhz} :
    f2rFun p mhz = none ↔ freqQuotient p.freqArith mhz = none ∨
      ∃ q, freqQuotient p.freqArith mhz = some q ∧ (q < 0 ∨ 16777216 ≤ q) := by
  unfold f2rFun
  cases hq : freqQuotient p.freqArith mhz with
  | none => simp
  | some q => simp [or_iff_not_imp_left]

/-- Under Exact the quotient is the operand times 16384 (41_frequency.md R151). -/
theorem freqQuotient_exact (m : Rat) : freqQuotient .exact (.rational m) = some (m * 16384) := rfl

theorem stepHz_eq : stepHz = 15625 / 256 := by
  norm_num [stepHz, Rat.mkRat_eq_div]

/-- Under Binary64 the quotient is the source's two operations, each rounded (41_frequency.md R151). -/
theorem freqQuotient_binary64 (bits : BitVec 64) :
    freqQuotient .binary64 (.binary64 bits) =
      (binary64Value bits).bind fun m => (fl64 (m * 1000000)).bind fun h => fl64 (h / (15625 / 256)) := by
  rw [← stepHz_eq]
  simp only [freqQuotient, Mhz.toBinary64]
  cases binary64Value bits with
  | none => rfl
  | some m =>
    cases hf : fl64 (m * 1000000) <;> simp [hf]

/-- Under Exact a word stands for its 16384th part in MHz (41_frequency.md R153). -/
theorem r2fFun_exact {p : Params} (h : p.freqArith = .exact) (frf : BitVec 24) : r2fFun p frf = (frf.toNat : Rat) / 16384 := by
  simp [r2fFun, h]

/-- Under Binary64 both roundings of a word's frequency are finite (41_frequency.md R153). -/
theorem r2fFun_binary64 {p : Params} (h : p.freqArith = .binary64) (frf : BitVec 24) :
    ((fl64 ((frf.toNat : Rat) * (15625 / 256))).bind fun hz => fl64 (hz / 1000000)) = some (r2fFun p frf) := by
  have hword : (frf.toNat : Rat) ≤ 2 ^ 24 := by exact_mod_cast frf.isLt.le
  have hprod : |(frf.toNat : Rat) * (15625 / 256)| ≤ 2 ^ 30 := by
    rw [abs_of_nonneg (by positivity)]
    linarith
  obtain ⟨hz, hhz, hbound⟩ := fl64_finite hprod (by norm_num)
  have hquot : |hz / 1000000| ≤ 2 ^ 31 + 1 := by
    rw [abs_div, abs_of_pos (show (0 : Rat) < 1000000 by norm_num)]
    linarith
  obtain ⟨mhz, hmhz, -⟩ := fl64_finite hquot (by norm_num)
  simp [r2fFun, h, stepHz_eq, hhz, hmhz]

/-- A byte behind a bit vector is its last digit to the base 256. -/
theorem toNat_append_byte {n : Nat} (x : BitVec n) (b : Byte) : (x ++ b).toNat = x.toNat * 256 + b.toNat := by
  rw [BitVec.toNat_append, ← Nat.shiftLeft_add_eq_or_of_lt b.isLt, Nat.shiftLeft_eq]

/-- The word of three bytes, as a number (30_encoding.md R94). -/
theorem frfOfBytes_toNat (msb mid lsb : Byte) :
    (frfOfBytes msb mid lsb).toNat = msb.toNat * 65536 + mid.toNat * 256 + lsb.toNat := by
  rw [frfOfBytes, toNat_append_byte, toNat_append_byte]
  ring

/-- Settles O19: the word truncates 16384 times the frequency, and 16384 times a word's frequency is that word. -/
theorem frequencyRoundTrips : Obligations.FrequencyRoundTrips := by
  intro p hp
  refine ⟨fun m h0 h1 => ?_, fun frf => ?_⟩
  · obtain ⟨frf, hle, hlt⟩ := exists_word_truncating (q := m * 16384) (by linarith) (by linarith)
    refine ⟨frf, f2rFun_eq_some_iff.2 ⟨_, hp ▸ freqQuotient_exact m, hle, hlt⟩, ?_, ?_⟩
    · rw [r2fFun_exact hp]
      linarith
    · rw [r2fFun_exact hp]
      linarith
  · refine f2rFun_eq_some_iff.2 ⟨_, hp ▸ freqQuotient_exact _, ?_⟩
    rw [r2fFun_exact hp, div_mul_cancel₀ _ (by norm_num)]
    exact ⟨le_rfl, lt_add_one _⟩

/-! ## The commands -/

/-- With the lock free, a command that makes no transaction runs its rule in every phase (60_exceptions.md R276, R282). -/
theorem accept_pure {i : Instr} {s : State} (hb : s.busy = false) (hw : i.wellFormed s.cfg = true) (hu : usesBus i = false)
    (f : State → State) : accept i f s = .next (f (opened (encodeCommand i) s)) :=
  accept_performs hb hw (fun h => by simp [hu] at h) f

/-- RANGE of a command just accepted, with ADDR and AUX zero (41_frequency.md R152, R154). -/
theorem raiseRange_opened (cw : CommandWord) (s : State) :
    raiseError .range 0 0 (opened cw s) = failed (errWord ⟨.range, false, .cmd, 0, 0⟩) (opened cw s) :=
  raiseError_failed rfl (by decide) 0 0

/-- F2R is accepted in every phase and converts the side operand (41_frequency.md R152). -/
theorem exec_f2r_some {s : State} {frf : BitVec 24} (hb : s.busy = false) (h : f2rFun s.cfg s.mhzIn = some frf) :
    exec .f2r s = .next (finished (.f2r frf (frfMsb frf) (frfMid frf) (frfLsb frf)) (opened 0x30000000#32 s)) := by
  rw [exec, execF2r, accept_pure hb rfl rfl]
  simp only [opened_cfg, opened_mhzIn, h, succeed_eq]
  rfl

/-- F2R raises RANGE where the conversion has no word (41_frequency.md R152). -/
theorem exec_f2r_none {s : State} (hb : s.busy = false) (h : f2rFun s.cfg s.mhzIn = none) :
    exec .f2r s = .next (failed (errWord ⟨.range, false, .cmd, 0, 0⟩) (opened 0x30000000#32 s)) := by
  rw [exec, execF2r, accept_pure hb rfl rfl]
  simp only [opened_cfg, opened_mhzIn, h, raiseRange_opened]
  rfl

/-- R2F is accepted in every phase and converts the word of its three bytes (41_frequency.md R153). -/
theorem exec_r2f {s : State} (hb : s.busy = false) (msb mid lsb : Byte) :
    exec (.r2f msb mid lsb) s = .next (finished (.r2f (r2fFun s.cfg (frfOfBytes msb mid lsb)))
      (opened (encodeCommand (.r2f msb mid lsb)) s)) := by
  rw [exec, execR2f, accept_pure hb rfl rfl, succeed_eq, opened_cfg]

/-- Settles O17: the word that truncates the quotient where there is one, RANGE elsewhere, and the quotient's two forms. -/
theorem f2rConvertsOrRaisesRange : Obligations.F2rConvertsOrRaisesRange := by
  intro s hb
  refine ⟨fun q hq h0 h1 => ?_, fun h => exec_f2r_none hb (f2rFun_eq_none_iff.2 h), fun m ha hm => ?_, fun bits ha hm => ?_⟩
  · obtain ⟨frf, hle, hlt⟩ := exists_word_truncating h0 h1
    exact ⟨frf, hle, hlt, exec_f2r_some hb (f2rFun_eq_some_iff.2 ⟨q, hq, hle, hlt⟩)⟩
  · rw [ha, hm, freqQuotient_exact]
  · rw [ha, hm, freqQuotient_binary64]

/-- Settles O18: the two arithmetics' frequency of the three bytes' word. -/
theorem r2fConverts : Obligations.R2fConverts := by
  intro msb mid lsb s hb
  rw [← frfOfBytes_toNat]
  refine ⟨fun ha => ?_, fun ha => ⟨_, r2fFun_binary64 ha _, exec_r2f hb msb mid lsb⟩⟩
  rw [exec_r2f hb, r2fFun_exact ha]

/-- SFRQ is accepted with the three writes of the converted frequency (41_frequency.md R154). -/
theorem exec_sfrq_some {s : State} {frf : BitVec 24} (h : freeForBus s) (hf : f2rFun s.cfg s.mhzIn = some frf) :
    exec .sfrq s = .next (withJob (.sfrq frf) (frfFrames s.cfg frf) (opened 0xC0000000#32 s)) := by
  rw [exec, execSfrq, accept_freeForBus h rfl]
  simp only [opened_cfg, opened_mhzIn, hf]
  rfl

/-- SFRQ raises RANGE before any write where the conversion has no word (41_frequency.md R154). -/
theorem exec_sfrq_none {s : State} (h : freeForBus s) (hf : f2rFun s.cfg s.mhzIn = none) :
    exec .sfrq s = .next (failed (errWord ⟨.range, false, .cmd, 0, 0⟩) (opened 0xC0000000#32 s)) := by
  rw [exec, execSfrq, accept_freeForBus h rfl]
  simp only [opened_cfg, opened_mhzIn, hf, raiseRange_opened]
  rfl

/-- Settles O29: the three writes run in their order, the last one completes the command; RANGE comes before them. -/
theorem sfrqWritesThreeBytes : Obligations.SfrqWritesThreeBytes := by
  intro s h
  refine ⟨fun frf hf => ⟨_, exec_sfrq_some h hf, rfl, fun a1 a2 a3 rest ha h1 h2 h3 => ?_⟩, exec_sfrq_none h⟩
  exact job_completes (before := [_, _]) (as := [a1, a2]) (holdsAt_cmd_of_freeForBus h _ _ _) rfl ha rfl (by simp [h1, h2]) h3

end Sys2Proof.Machine

/-! The modem configuration encoder: the two configuration bytes, Pack and Unpack, and the commands ENC, ENCP and SMDM
(42_modem_config.md). -/
namespace Sys2Proof.Machine

/-! ## The two bytes and their fields -/

/-- MODEM_CFG1 is its bandwidth, coding-rate and header-mode fields side by side (30_encoding.md R92). -/
theorem packCfg1_eq_append (bw : BitVec 4) (cr : BitVec 3) (hm : BitVec 1) : packCfg1 bw cr hm = bw ++ cr ++ hm := by
  have side := BitVec.setWidth_append_append_eq_shiftLeft_setWidth_or (b := bw) (b' := cr) (b'' := hm) (w''' := 8)
  rw [packCfg1, ← side]
  exact BitVec.setWidth_eq _

/-- MODEM_CFG2 is its spreading-factor and CRC fields with zeros in bits 3, 1 and 0 (30_encoding.md R92). -/
theorem packCfg2_eq_append (sf : BitVec 4) (crc : BitVec 1) : packCfg2 sf crc = sf ++ 0#1 ++ crc ++ 0#2 := by
  have side := BitVec.setWidth_append_append_append_eq_shiftLeft_setWidth_or
    (b := sf) (b' := 0#1) (b'' := crc) (b''' := 0#2) (w'''' := 8)
  rw [BitVec.setWidth_eq] at side
  simpa [packCfg2] using side.symm

theorem packCfg1_fields (bw : BitVec 4) (cr : BitVec 3) (hm : BitVec 1) :
    (packCfg1 bw cr hm).extractLsb' 4 4 = bw ∧ (packCfg1 bw cr hm).extractLsb' 1 3 = cr ∧
      (packCfg1 bw cr hm).extractLsb' 0 1 = hm := by
  rw [packCfg1_eq_append]
  simp (disch := omega) only [BitVec.extractLsb'_append_eq_of_le, BitVec.extractLsb'_append_eq_of_add_le,
    BitVec.extractLsb'_eq_self, Nat.reduceSub, and_self]

theorem packCfg2_fields (sf : BitVec 4) (crc : BitVec 1) :
    (packCfg2 sf crc).extractLsb' 4 4 = sf ∧ (packCfg2 sf crc).extractLsb' 3 1 = 0#1 ∧
      (packCfg2 sf crc).extractLsb' 2 1 = crc ∧ (packCfg2 sf crc).extractLsb' 0 2 = 0#2 := by
  rw [packCfg2_eq_append]
  simp (disch := omega) only [BitVec.extractLsb'_append_eq_of_le, BitVec.extractLsb'_append_eq_of_add_le,
    BitVec.extractLsb'_eq_self, Nat.reduceSub, and_self]

/-- A MODEM_CFG1 byte is packed from its own fields. -/
theorem packCfg1_extract (c1 : Byte) :
    packCfg1 (c1.extractLsb' 4 4) (c1.extractLsb' 1 3) (c1.extractLsb' 0 1) = c1 := by
  rw [packCfg1_eq_append]
  repeat rw [BitVec.extractLsb'_append_extractLsb'_eq_extractLsb' (by decide)]
  exact BitVec.extractLsb'_eq_self

/-- A MODEM_CFG2 byte with bits 3, 1 and 0 clear is packed from its own fields. -/
theorem packCfg2_extract {c2 : Byte} (h3 : c2.extractLsb' 3 1 = 0#1) (h0 : c2.extractLsb' 0 2 = 0#2) :
    packCfg2 (c2.extractLsb' 4 4) (c2.extractLsb' 2 1) = c2 := by
  rw [packCfg2_eq_append, ← h3, ← h0]
  repeat rw [BitVec.extractLsb'_append_extractLsb'_eq_extractLsb' (by decide)]
  exact BitVec.extractLsb'_eq_self

/-- A field behind a bit vector adds its value below the shifted one. -/
theorem toNat_append_field {n m : Nat} (x : BitVec n) (y : BitVec m) : (x ++ y).toNat = x.toNat * 2 ^ m + y.toNat := by
  rw [BitVec.toNat_append, ← Nat.shiftLeft_add_eq_or_of_lt y.isLt, Nat.shiftLeft_eq]

theorem packCfg1_eq_ofNat (bw : BitVec 4) (cr : BitVec 3) (hm : BitVec 1) :
    packCfg1 bw cr hm = BitVec.ofNat 8 (bw.toNat * 16 + cr.toNat * 2 + hm.toNat) := by
  have value : (packCfg1 bw cr hm).toNat = bw.toNat * 16 + cr.toNat * 2 + hm.toNat := by
    rw [packCfg1_eq_append, toNat_append_field, toNat_append_field]
    ring
  rw [← value, BitVec.ofNat_toNat, BitVec.setWidth_eq]

theorem packCfg2_eq_ofNat (sf : BitVec 4) (crc : BitVec 1) :
    packCfg2 sf crc = BitVec.ofNat 8 (sf.toNat * 16 + crc.toNat * 4) := by
  have value : (packCfg2 sf crc).toNat = sf.toNat * 16 + crc.toNat * 4 := by
    rw [packCfg2_eq_append, toNat_append_field, toNat_append_field, toNat_append_field, BitVec.toNat_ofNat, BitVec.toNat_ofNat]
    ring
  rw [← value, BitVec.ofNat_toNat, BitVec.setWidth_eq]

/-! ## Legal bytes -/

theorem legalBw_iff (bw : BitVec 4) : legalBw bw = true ↔ bw.toNat ≤ 9 := by simp [legalBw]

theorem legalCr_iff (cr : BitVec 3) : legalCr cr = true ↔ 1 ≤ cr.toNat ∧ cr.toNat ≤ 4 := by simp [legalCr]

theorem legalSf_iff (sf : BitVec 4) : legalSf sf = true ↔ 6 ≤ sf.toNat ∧ sf.toNat ≤ 12 := by simp [legalSf]

@[simp] theorem legalCfg1_packCfg1 (bw : BitVec 4) (cr : BitVec 3) (hm : BitVec 1) :
    legalCfg1 (packCfg1 bw cr hm) = (legalBw bw && legalCr cr) := by
  obtain ⟨hbw, hcr, -⟩ := packCfg1_fields bw cr hm
  rw [legalCfg1, hbw, hcr]

@[simp] theorem legalCfg2_packCfg2 (sf : BitVec 4) (crc : BitVec 1) : legalCfg2 (packCfg2 sf crc) = legalSf sf := by
  obtain ⟨hsf, h3, -, h0⟩ := packCfg2_fields sf crc
  simp [legalCfg2, hsf, h3, h0]

/-- The upper four bits of a byte are its sixteenth part. -/
theorem toNat_upperField (c : Byte) : (c.extractLsb' 4 4).toNat = c.toNat / 16 := by
  rw [BitVec.extractLsb'_toNat, Nat.shiftRight_eq_div_pow]
  omega

/-- A field of one bit is that bit. -/
theorem extract_bit {n : Nat} (w : BitVec n) (i : Nat) : w.extractLsb' i 1 = BitVec.ofBool (w.getLsbD i) := by
  ext j hj
  simp [show j = 0 by omega]

theorem extract_low_two_eq_zero_iff (c : Byte) : c.extractLsb' 0 2 = 0#2 ↔ c.getLsbD 1 = false ∧ c.getLsbD 0 = false := by
  have bits : c.extractLsb' 0 2 = c.extractLsb' 1 1 ++ c.extractLsb' 0 1 :=
    (BitVec.extractLsb'_append_extractLsb'_eq_extractLsb' (start₁ := 0) (len₁ := 1) rfl).symm
  rw [bits, extract_bit, extract_bit]
  cases c.getLsbD 1 <;> cases c.getLsbD 0 <;> decide

theorem legalCfg1_iff (c1 : Byte) :
    legalCfg1 c1 = true ↔ c1.toNat / 16 ≤ 9 ∧ 1 ≤ c1.toNat / 2 % 8 ∧ c1.toNat / 2 % 8 ≤ 4 := by
  have hcr : (c1.extractLsb' 1 3).toNat = c1.toNat / 2 % 8 := by
    rw [BitVec.extractLsb'_toNat, Nat.shiftRight_eq_div_pow]
  rw [legalCfg1, Bool.and_eq_true, legalBw_iff, legalCr_iff, toNat_upperField, hcr]

theorem legalCfg2_iff (c2 : Byte) :
    legalCfg2 c2 = true ↔ 6 ≤ c2.toNat / 16 ∧ c2.toNat / 16 ≤ 12 ∧
      c2.getLsbD 3 = false ∧ c2.getLsbD 1 = false ∧ c2.getLsbD 0 = false := by
  have h3 : BitVec.ofBool (c2.getLsbD 3) = 0#1 ↔ c2.getLsbD 3 = false := by cases c2.getLsbD 3 <;> decide
  simp only [legalCfg2, Bool.and_eq_true, decide_eq_true_eq, legalSf_iff, toNat_upperField, extract_bit, h3,
    extract_low_two_eq_zero_iff, and_assoc]

theorem legalCfg2_zeros {c2 : Byte} (h : legalCfg2 c2 = true) : c2.extractLsb' 3 1 = 0#1 ∧ c2.extractLsb' 0 2 = 0#2 := by
  simp only [legalCfg2, Bool.and_eq_true, decide_eq_true_eq] at h
  obtain ⟨⟨-, h3⟩, h0⟩ := h
  exact ⟨h3, h0⟩

/-! ## Unpack and Pack -/

theorem code_of_find? {α β : Type} [DecidableEq β] {code : α → β} {l : List α} {a : α} {y : β}
    (h : l.find? (fun x => code x = y) = some a) : code a = y := by
  simpa using List.find?_some h

/-- Searching a list for a code, by an injective coding, finds the element that has it. -/
theorem find?_code {α β : Type} [DecidableEq β] {code : α → β} (inj : ∀ x y, code x = code y → x = y) {l : List α} {a : α}
    (ha : a ∈ l) : l.find? (fun x => code x = code a) = some a := by
  cases hf : l.find? (fun x => code x = code a) with
  | none => exact absurd (decide_eq_true rfl) (List.find?_eq_none.1 hf a ha)
  | some x => rw [inj x a (code_of_find? hf)]

theorem mem_allBandwidths (b : Bandwidth) : b ∈ allBandwidths := by cases b <;> decide

theorem mem_allCodingRates (r : CodingRate) : r ∈ allCodingRates := by cases r <;> decide

theorem ofBool_eq_headerModeBit_iff (b : Bool) (h : HeaderMode) :
    BitVec.ofBool b = headerModeBit h ↔ (if b then HeaderMode.implicit else .explicit) = h := by
  cases h <;> cases b <;> decide

/-- `Unpack` searches the two code tables, checks the bytes, and reads the other three fields (42_modem_config.md R171). -/
theorem unpack_eq_some_iff {p : Params} {c1 c2 : Byte} {c : ModemConfig} :
    unpack p c1 c2 = some c ↔
      allBandwidths.find? (fun b => bwCodeOf p b = c1.extractLsb' 4 4) = some c.bandwidth ∧
      allCodingRates.find? (fun r => crCodeOf p r = c1.extractLsb' 1 3) = some c.codingRate ∧
      (legalCfg1 c1 = true ∧ legalCfg2 c2 = true) ∧
      c1.extractLsb' 0 1 = headerModeBit c.headerMode ∧ c2.extractLsb' 4 4 = c.spreadingFactor ∧
      c2.extractLsb' 2 1 = BitVec.ofBool c.crcEnabled := by
  obtain ⟨bw, cr, hm, sf, crc⟩ := c
  simp only [extract_bit, ofBool_eq_headerModeBit_iff, BitVec.ofBool_eq_iff_eq, ← Bool.and_eq_true]
  unfold unpack
  split
  · rename_i b r hb hr
    cases legal : legalCfg1 c1 && legalCfg2 c2 with
    | true => simp [hb, hr]
    | false => simp
  · rename_i hnone
    simp only [reduceCtorEq, false_iff]
    rintro ⟨hb, hr, -⟩
    exact hnone bw cr hb hr

/-- On legal bytes `Unpack` reads the codes that `Pack` wrote and finds what they stand for. -/
theorem unpack_pack {p : Params} {c : ModemConfig} (hbw : ∀ b b', bwCodeOf p b = bwCodeOf p b' → b = b')
    (hcr : ∀ r r', crCodeOf p r = crCodeOf p r' → r = r')
    (legal : legalCfg1 (pack p c).1 = true ∧ legalCfg2 (pack p c).2 = true) :
    unpack p (pack p c).1 (pack p c).2 = some c := by
  obtain ⟨fbw, fcr, fhm⟩ := packCfg1_fields (bwCodeOf p c.bandwidth) (crCodeOf p c.codingRate) (headerModeBit c.headerMode)
  obtain ⟨fsf, -, fcrc, -⟩ := packCfg2_fields c.spreadingFactor (BitVec.ofBool c.crcEnabled)
  refine unpack_eq_some_iff.2 ⟨?_, ?_, legal, fhm, fsf, fcrc⟩
  · exact fbw.symm ▸ find?_code hbw (mem_allBandwidths c.bandwidth)
  · exact fcr.symm ▸ find?_code hcr (mem_allCodingRates c.codingRate)

/-- The bytes `Unpack` accepts are packed from the fields it read. -/
theorem pack_of_unpack {p : Params} {c1 c2 : Byte} {c : ModemConfig} (h : unpack p c1 c2 = some c) : pack p c = (c1, c2) := by
  obtain ⟨hbw, hcr, ⟨-, hlegal⟩, hhm, hsf, hcrc⟩ := unpack_eq_some_iff.1 h
  obtain ⟨h3, h0⟩ := legalCfg2_zeros hlegal
  rw [pack, code_of_find? hbw, code_of_find? hcr, ← hhm, ← hsf, ← hcrc, packCfg1_extract, packCfg2_extract h3 h0]

/-- Settles O16: `Unpack` reads in `Pack`'s bytes the codes it looks up, and the bytes it accepts are packed from their fields. -/
theorem unpackUndoesPack : Obligations.UnpackUndoesPack := by
  refine ⟨fun p c hbw hcr hbwLegal hcrLegal h6 h12 => unpack_pack hbw hcr ?_, fun p c1 c2 c h => ⟨?_, pack_of_unpack h⟩⟩
  · simp [pack, legalBw_iff, legalCr_iff, legalSf_iff, hbwLegal, hcrLegal, h6, h12]
  · obtain ⟨-, -, legal, -⟩ := unpack_eq_some_iff.1 h
    simpa only [legalCfg1_iff, legalCfg2_iff, and_assoc] using legal

/-! ## The commands -/

/-- With the lock free, a command with a reserved operand fails with ILLEGAL and its OP (30_encoding.md R99). -/
theorem accept_reserved {i : Instr} {s : State} (hb : s.busy = false) (h : i.wellFormed s.cfg = false) (f : State → State) :
    accept i f s = .next (failed (errWord ⟨.illegal, false, .cmd, 0, opAux (encodeCommand i)⟩) (opened (encodeCommand i) s)) := by
  rw [accept_illegal hb h]
  exact congrArg _ (raiseError_failed rfl (by decide) 0 _)

theorem opAux_enc (bw : BitVec 4) (cr : BitVec 3) (hm : BitVec 1) (sf : BitVec 4) (crc : BitVec 1) :
    opAux (encodeCommand (.enc bw cr hm sf crc)) = 1 := by
  simp (disch := omega) only [opAux, opOf, encodeCommand, encode, BitVec.extractLsb'_append_eq_of_le,
    BitVec.extractLsb'_eq_self, Nat.reduceSub]
  decide

theorem opAux_smdm (c1 c2 : Byte) : opAux (encodeCommand (.smdm c1 c2)) = 0x0D := by
  simp (disch := omega) only [opAux, opOf, encodeCommand, encode, BitVec.extractLsb'_append_eq_of_le,
    BitVec.extractLsb'_eq_self, Nat.reduceSub]
  decide

/-- ENC holds no reserved code (30_encoding.md R98). -/
theorem wellFormed_enc_iff (p : Params) (bw : BitVec 4) (cr : BitVec 3) (hm : BitVec 1) (sf : BitVec 4) (crc : BitVec 1) :
    (Instr.enc bw cr hm sf crc).wellFormed p = true ↔
      bw.toNat ≤ 9 ∧ 1 ≤ cr.toNat ∧ cr.toNat ≤ 4 ∧ 6 ≤ sf.toNat ∧ sf.toNat ≤ 12 := by
  simp only [Instr.wellFormed, Bool.and_eq_true, legalBw_iff, legalCr_iff, legalSf_iff, and_assoc]

/-- SMDM holds two legal bytes (30_encoding.md R98). -/
theorem wellFormed_smdm_iff (p : Params) (c1 c2 : Byte) :
    (Instr.smdm c1 c2).wellFormed p = true ↔
      c1.toNat / 16 ≤ 9 ∧ 1 ≤ c1.toNat / 2 % 8 ∧ c1.toNat / 2 % 8 ≤ 4 ∧ 6 ≤ c2.toNat / 16 ∧ c2.toNat / 16 ≤ 12 ∧
        c2.getLsbD 3 = false ∧ c2.getLsbD 1 = false ∧ c2.getLsbD 0 = false := by
  simp only [Instr.wellFormed, Bool.and_eq_true, legalCfg1_iff, legalCfg2_iff, and_assoc]

/-- Settles O14: a word that selects ENC's row is read field by field, legal codes are packed, reserved ones are refused. -/
theorem encEncodesRawCodes : Obligations.EncEncodesRawCodes := by
  refine ⟨fun w h => if_pos h, fun bw cr hm sf crc s hb => ⟨fun legal => ?_, fun reserved => ?_⟩⟩
  · have hw := (wellFormed_enc_iff s.cfg bw cr hm sf crc).2 legal
    rw [exec, execEnc, accept_pure hb hw rfl, succeed_eq, packCfg1_eq_ofNat, packCfg2_eq_ofNat]
  · have hw := Bool.eq_false_iff.2 (mt (wellFormed_enc_iff s.cfg bw cr hm sf crc).1 reserved)
    rw [exec, execEnc, accept_reserved hb hw, opAux_enc]

/-- With the default code tables the presets pack to the bytes of the table (42_modem_config.md R173). -/
theorem pack_presets {q : Params} (hbw : q.bwCode = defaultBwCode) (hcr : q.crCode = defaultCrCode) :
    pack q (presetConfig 0) = (0x72, 0x74) ∧ pack q (presetConfig 1) = (0x92, 0x74) ∧
    pack q (presetConfig 2) = (0x48, 0x94) ∧ pack q (presetConfig 3) = (0x78, 0xC4) := by
  have codes : ∀ c, pack q c = pack defaultParams c := by
    rintro ⟨bw, cr, hm, sf, crc⟩
    simp only [pack, Prod.mk.injEq, and_true]
    congr 1
    · cases bw <;> simp [bwCodeOf, hbw, defaultParams]
    · cases cr <;> simp [crCodeOf, hcr, defaultParams]
  simp only [codes]
  decide

/-- Settles O15: ENCP holds no reserved operand, so every phase packs the preset; the defaults give the table's bytes. -/
theorem encpEncodesPreset : Obligations.EncpEncodesPreset := by
  refine ⟨fun p s hb => ?_, fun q hbw hcr => pack_presets hbw hcr⟩
  rw [exec, execEncp, accept_pure hb rfl rfl, succeed_eq, opened_cfg]

/-- Settles O30: legal bytes are written in their order, the second write completes the command; reserved fields are refused. -/
theorem smdmWritesTwoBytes : Obligations.SmdmWritesTwoBytes := by
  intro c1 c2 s h
  refine ⟨fun legal => ?_, fun reserved => ?_⟩
  · have hw := (wellFormed_smdm_iff s.cfg c1 c2).2 legal
    refine ⟨_, accept_freeForBus h hw _, rfl, fun a1 a2 rest ha h1 h2 => ?_⟩
    exact job_completes (before := [_]) (as := [a1]) (holdsAt_cmd_of_freeForBus h _ _ _) rfl ha rfl (by simp [h1]) h2
  · obtain ⟨hb, -, -⟩ := h
    have hw := Bool.eq_false_iff.2 (mt (wellFormed_smdm_iff s.cfg c1 c2).1 reserved)
    rw [exec, execSmdm, accept_reserved hb hw, opAux_smdm]

end Sys2Proof.Machine

/-! Mode writes: MODE (43_mode.md R191), and the whole of INIT, whose mode writes end in ReceiveContinuous
(70_reset_and_hazards.md R310 to R319). -/
namespace Sys2Proof.Machine

/-! ## MODE -/

/-- MODE holds no reserved code (30_encoding.md R98). -/
theorem wellFormed_mode_iff (p : Params) (m : BitVec 3) :
    (Instr.mode m).wellFormed p = true ↔
      m = p.modeCode.sleep ∨ m = p.modeCode.standby ∨ m = p.modeCode.receiveContinuous := by
  simp [Instr.wellFormed, legalMode, or_assoc]

theorem opAux_mode (m : BitVec 3) : opAux (encodeCommand (.mode m)) = 0x0B := by
  revert m
  decide

/-- With the lock held and no input due, the step performs the current step's frame (45_rx_sequencer.md R238). -/
theorem step_frame {s : State} {f : Frame} (hb : s.busy = true) (hi : s.inputs = []) (hf : selectFrame s = some f) :
    step s = exec f.instr s := by
  rw [step_busy hb hi, sequencerStep, hf]

/-- A bad answer to the next transaction of a command in progress ends the command (60_exceptions.md R271). -/
theorem job_fails_next {s : State} {k : JobKind} {f : Frame} {fs : List Frame} {got : List Byte} {a : Answer}
    {rest : List Answer} (hs : holdsAt .cmd s) (ho : s.owner = .command) (hj : s.job = some ⟨k, f :: fs, got⟩)
    (ha : s.answers = a :: rest) (hg : answerGood a = false) :
    runsTo 1 s (failed (errWord ⟨.transport, false, .cmd, f.addr, answerAux a⟩)
      (jobLoses k (afterFrames [f] [a] rest s))) := by
  obtain ⟨hb, hi, hc⟩ := hs
  have hf : selectFrame s = some f := by simp [selectFrame, hc, hj]
  exact runsTo_one ((step_frame hb hi hf).trans (exec_frame_bad hc ho ha hj hg))

/-- Settles O28: a legal code is written once, the answer moves the tracker or loses it; a reserved code is refused. -/
theorem modeWritesOpMode : Obligations.ModeWritesOpMode := by
  intro m s h
  refine ⟨fun legal => ?_, fun hsleep hstandby hreceive => ?_⟩
  · have hw := (wellFormed_mode_iff s.cfg m).2 legal
    refine ⟨_, accept_freeForBus h hw _, rfl, fun ans rest ha => ⟨fun hg => ?_, fun hg => ?_⟩⟩
    · exact job_completes_single (holdsAt_cmd_of_freeForBus h _ _ _) rfl ha hg
    · have held := holdsAt_cmd_of_freeForBus h (.mode m) [modeFrame s.cfg m] (encodeCommand (.mode m))
      simpa [jobLoses, loseMode] using job_fails_next held rfl rfl ha hg
  · obtain ⟨hb, -, -⟩ := h
    have hw := Bool.eq_false_iff.2 (mt (wellFormed_mode_iff s.cfg m).1 (by simp [hsleep, hstandby, hreceive]))
    rw [exec, execMode, accept_reserved hb hw, opAux_mode]

/-! ## INIT's start and reset pulse -/

/-- INIT is accepted and starts with the reset pulse (70_reset_and_hazards.md R310, R311). -/
theorem exec_init_some {s : State} {frf : BitVec 24} (hb : s.busy = false) (hp : s.phase ≠ .halted)
    (hf : f2rFun s.cfg s.mhzIn = some frf) (p : BitVec 2) :
    exec (.init p) s = .next (startInit p frf (opened (encodeCommand (.init p)) s)) := by
  rw [exec, execInit, accept_performs hb rfl (fun _ => hp), openCommand_eq]
  simp only [opened_cfg, opened_mhzIn, hf]

/-- T_LOW_DONE drives RST_N high (70_reset_and_hazards.md R311). -/
theorem step_timerLow {s : State} {rest : List Input} (hs : s.step = .i0Rst) (hr : s.rstN = false)
    (hi : s.inputs = .timerLow :: rest) :
    step s = .next { s with inputs := rest, rstN := true, history := s.history ++ [.rst true] } := by
  simp [step, nextStep, hi, takeInput, timerLowDone, hs, hr, emit]

/-- T_HIGH_DONE goes on to I1_VER (70_reset_and_hazards.md R311). -/
theorem step_timerHigh {s : State} {rest : List Input} (hs : s.step = .i0Rst) (hr : s.rstN = true)
    (hi : s.inputs = .timerHigh :: rest) : step s = .next { s with inputs := rest, step := .i1Ver } := by
  simp [step, nextStep, hi, takeInput, timerHighDone, hs, hr]

/-- The state at I1_VER, after the reset pulse of an INIT accepted in `s` (70_reset_and_hazards.md R310, R311). -/
def afterPulse (p : BitVec 2) (frf : BitVec 24) (s : State) : State :=
  { s with
    busy := true, owner := .command, step := .i1Ver, inputs := [], resp := ⟨.empty, Reg.unwritten 0⟩, phase := .idle,
    modev := false, mode := 0, frf := Reg.holding frf, cfg1 := Reg.holding (pack s.cfg (presetConfig p)).1,
    cfg2 := Reg.holding (pack s.cfg (presetConfig p)).2, rstN := true,
    history := s.history ++ [.cmd (encodeCommand (.init p)), .rst false, .rst true] }

/-- The two timer events end the reset pulse in two steps (70_reset_and_hazards.md R311). -/
theorem resetPulse_runs {s : State} (hi : s.inputs = [.timerLow, .timerHigh]) (p : BitVec 2) (frf : BitVec 24) :
    runsTo 2 (startInit p frf (opened (encodeCommand (.init p)) s)) (afterPulse p frf s) := by
  refine runsTo_succ (step_timerLow rfl rfl hi) (runsTo_succ (step_timerHigh rfl rfl rfl) ?_)
  simp [runsTo, afterPulse, startInit, emit]

/-! ## Transactions with good answers -/

/-- From `s` the frames `fs` are exchanged, one in each step, and whatever good answers they get, the block is then in `t`, but
for the history and the answers: the exchanges' own events follow those of the frames exchanged before, `done`. -/
def Exchanges (fs : List Frame) (s t : State) : Prop :=
  ∀ (done : List Frame) (before as rest : List Answer), before.length = done.length → as.length = fs.length →
    (∀ x ∈ as, answerGood x = true) →
    runsTo fs.length (afterFrames done before (as ++ rest) s) (afterFrames (done ++ fs) (before ++ as) rest t)

/-- Exchanges follow one another. -/
theorem Exchanges.append {fs gs : List Frame} {s t u : State} (h : Exchanges fs s t) (h' : Exchanges gs t u) :
    Exchanges (fs ++ gs) s u := by
  intro done before as rest hd hl hg
  obtain ⟨as1, as2, rfl, h1, h2⟩ : ∃ as1 as2, as = as1 ++ as2 ∧ as1.length = fs.length ∧ as2.length = gs.length :=
    ⟨as.take fs.length, as.drop fs.length, (List.take_append_drop ..).symm, by simp [hl], by simp [hl]⟩
  have run1 := h done before as1 (as2 ++ rest) hd h1 (fun x hx => hg x (by simp [hx]))
  have run2 := h' (done ++ fs) (before ++ as1) as2 rest (by simp [hd, h1]) h2 (fun x hx => hg x (by simp [hx]))
  simpa using runsTo_add run1 run2

/-- Frames exchanged after other frames. -/
theorem afterFrames_afterFrames {fs gs : List Frame} {as bs rest rest' : List Answer} (h : as.length = fs.length) (s : State) :
    afterFrames gs bs rest' (afterFrames fs as rest s) = afterFrames (fs ++ gs) (as ++ bs) rest' s := by
  simp [afterFrames, List.zipWith_append h.symm]

/-- One exchange: the current step's frame, whose answer the step takes without looking at it. -/
theorem Exchanges.one {f : Frame} {s t : State} (hb : s.busy = true) (hi : s.inputs = []) (hf : selectFrame s = some f)
    (hr : ∀ r ∈ stepReads s.step, isWritten s r = true)
    (ht : ∀ d fs as rest, takeData d (afterFrames fs as rest s) = afterFrames fs as rest t) : Exchanges [f] s t := by
  intro done before as rest hd hl hg
  obtain ⟨a, rfl⟩ := List.length_eq_one_iff.1 hl
  have taken := step_listed (s := afterFrames done before ([a] ++ rest) s) hb hi hf hr rfl
  rw [if_pos (hg a (by simp)), afterFrames_afterFrames hd, ht] at taken
  exact runsTo_one taken

/-! ## INIT's steps -/

/-- The expected version goes on to I2_SLEEP (70_reset_and_hazards.md R312). -/
theorem step_i1Ver_expected {s : State} {a : Answer} {rest : List Answer} (hs : holdsAt .i1Ver s) (ha : s.answers = a :: rest)
    (hg : answerGood a = true) (hv : answerData a = s.cfg.expectedVersion) :
    step s = .next { (afterFrames [.read s.cfg.regAddr.version] [a] rest s) with
      ver := Reg.holding (answerData a), step := .i2Sleep } := by
  obtain ⟨hb, hi, hst⟩ := hs
  have hf : selectFrame s = some (.read s.cfg.regAddr.version) := by simp [selectFrame, hst]
  rw [step_listed hb hi hf (by simp [stepReads, hst]) ha, if_pos hg]
  simp [takeData, hst, takeI1Ver, hv]

/-- INIT's settings, in the order of 70_reset_and_hazards.md R319: the FIFO bases, the frequency, the modem bytes. -/
def settingWrites (s : State) : List Frame :=
  [.write s.cfg.regAddr.fifoTxBase s.cfg.fifoTxBase, .write s.cfg.regAddr.fifoRxBase s.cfg.fifoRxBase] ++
    (frfFrames s.cfg s.frf.value ++ cfgFrames s.cfg s.cfg1.value s.cfg2.value)

/-- INIT's writes, in the order of 70_reset_and_hazards.md R319: Sleep, the settings, Standby only if INIT_STANDBY, and
ReceiveContinuous. -/
def initWrites (s : State) : List Frame :=
  [modeFrame s.cfg s.cfg.modeCode.sleep] ++ (settingWrites s ++
    ((if s.cfg.initStandby then [modeFrame s.cfg s.cfg.modeCode.standby] else []) ++
      [modeFrame s.cfg s.cfg.modeCode.receiveContinuous]))

/-- The state after INIT's last step in `s`: RUN, with ReceiveContinuous tracked (70_reset_and_hazards.md R318, R310). -/
def receiving (s : State) : State :=
  finished (.init (modeByte s.cfg s.cfg.modeCode.receiveContinuous) s.ver.value s.frf.value s.cfg1.value s.cfg2.value)
    { (trackMode s.cfg.modeCode.receiveContinuous s) with phase := .run }

section
variable {s : State} (hb : s.busy = true) (hi : s.inputs = [])
include hb hi

/-- I2_SLEEP: `SetMode(Sleep)` (70_reset_and_hazards.md R313). -/
theorem exchanges_sleep : Exchanges [modeFrame s.cfg s.cfg.modeCode.sleep] { s with step := .i2Sleep }
    { (modeSet s.cfg.modeCode.sleep s) with step := .i3aTxb } :=
  .one hb hi rfl nofun fun _ _ _ _ => rfl

/-- I3A_TXB and I3B_RXB: the two FIFO bases (70_reset_and_hazards.md R314). -/
theorem exchanges_fifoBases :
    Exchanges [.write s.cfg.regAddr.fifoTxBase s.cfg.fifoTxBase, .write s.cfg.regAddr.fifoRxBase s.cfg.fifoRxBase]
      { s with step := .i3aTxb } { s with step := .i4aFmsb } := by
  have txBase : Exchanges [_] { s with step := .i3aTxb } { s with step := .i3bRxb } := .one hb hi rfl nofun fun _ _ _ _ => rfl
  exact txBase.append (.one hb hi rfl nofun fun _ _ _ _ => rfl)

/-- I4A_FMSB to I4C_FLSB: the three frequency bytes (70_reset_and_hazards.md R315). -/
theorem exchanges_frequency (hw : isWritten s .frf = true) :
    Exchanges (frfFrames s.cfg s.frf.value) { s with step := .i4aFmsb } { s with step := .i5aCfg1 } := by
  have msb : Exchanges [_] { s with step := .i4aFmsb } { s with step := .i4bFmid } :=
    .one hb hi rfl (List.forall_mem_singleton.2 hw) fun _ _ _ _ => rfl
  have mid : Exchanges [_] { s with step := .i4bFmid } { s with step := .i4cFlsb } :=
    .one hb hi rfl (List.forall_mem_singleton.2 hw) fun _ _ _ _ => rfl
  have lsb : Exchanges [_] { s with step := .i4cFlsb } { s with step := .i5aCfg1 } :=
    .one hb hi rfl (List.forall_mem_singleton.2 hw) fun _ _ _ _ => rfl
  exact msb.append (mid.append lsb)

/-- I5A_CFG1 and I5B_CFG2: the two modem bytes (70_reset_and_hazards.md R316). -/
theorem exchanges_modem (h1 : isWritten s .cfg1 = true) (h2 : isWritten s .cfg2 = true) :
    Exchanges (cfgFrames s.cfg s.cfg1.value s.cfg2.value) { s with step := .i5aCfg1 }
      { s with step := if s.cfg.initStandby then .i5sStdby else .i6Rxc } := by
  have cfg1 : Exchanges [_] { s with step := .i5aCfg1 } { s with step := .i5bCfg2 } :=
    .one hb hi rfl (List.forall_mem_singleton.2 h1) fun _ _ _ _ => rfl
  exact cfg1.append (.one hb hi rfl (List.forall_mem_singleton.2 h2) fun _ _ _ _ => rfl)

/-- I5S_STDBY: `SetMode(Standby)` (70_reset_and_hazards.md R317). -/
theorem exchanges_standby : Exchanges [modeFrame s.cfg s.cfg.modeCode.standby] { s with step := .i5sStdby }
    { (modeSet s.cfg.modeCode.standby s) with step := .i6Rxc } :=
  .one hb hi rfl nofun fun _ _ _ _ => rfl

/-- I6_RXC: `SetMode(ReceiveContinuous)` completes INIT (70_reset_and_hazards.md R318). -/
theorem exchanges_receiveContinuous (hw : ∀ r ∈ stepReads .i6Rxc, isWritten s r = true) :
    Exchanges [modeFrame s.cfg s.cfg.modeCode.receiveContinuous] { s with step := .i6Rxc } (receiving s) :=
  .one hb hi rfl hw fun _ _ _ _ => succeed_eq _ _

/-- The last steps: Standby only if INIT_STANDBY, then ReceiveContinuous (70_reset_and_hazards.md R317, R318). -/
theorem exchanges_lastModes (hw : ∀ r ∈ stepReads .i6Rxc, isWritten s r = true) :
    Exchanges ((if s.cfg.initStandby then [modeFrame s.cfg s.cfg.modeCode.standby] else []) ++
        [modeFrame s.cfg s.cfg.modeCode.receiveContinuous])
      { s with step := if s.cfg.initStandby then .i5sStdby else .i6Rxc } (receiving s) := by
  cases s.cfg.initStandby with
  | false => exact exchanges_receiveContinuous hb hi hw
  | true =>
    exact (exchanges_standby hb hi).append (exchanges_receiveContinuous (s := modeSet s.cfg.modeCode.standby s) hb hi hw)

/-- I3A_TXB to I5B_CFG2 (70_reset_and_hazards.md R314 to R316). -/
theorem exchanges_settings (hw : ∀ r ∈ stepReads .i6Rxc, isWritten s r = true) :
    Exchanges (settingWrites s) { s with step := .i3aTxb }
      { s with step := if s.cfg.initStandby then .i5sStdby else .i6Rxc } :=
  (exchanges_fifoBases hb hi).append ((exchanges_frequency hb hi (hw .frf (by decide))).append
    (exchanges_modem hb hi (hw .cfg1 (by decide)) (hw .cfg2 (by decide))))

/-- From I2_SLEEP on, INIT makes its writes and ends in RUN (70_reset_and_hazards.md R313 to R318). -/
theorem exchanges_initWrites (hw : ∀ r ∈ stepReads .i6Rxc, isWritten s r = true) :
    Exchanges (initWrites s) { s with step := .i2Sleep } (receiving s) :=
  (exchanges_sleep hb hi).append ((exchanges_settings (s := modeSet s.cfg.modeCode.sleep s) hb hi hw).append
    (exchanges_lastModes (s := modeSet s.cfg.modeCode.sleep s) hb hi hw))

end

/-- The version read goes before INIT's writes; with the expected version all of them are made
(70_reset_and_hazards.md R312, R319). -/
theorem init_runs_from_i1Ver {s : State} {v : Answer} {as rest : List Answer} (hs : holdsAt .i1Ver s)
    (hw : ∀ r ∈ [WorkReg.frf, .cfg1, .cfg2], isWritten s r = true) (ha : s.answers = v :: as ++ rest)
    (hl : as.length = (initWrites s).length) (hg : ∀ x ∈ v :: as, answerGood x = true)
    (hv : answerData v = s.cfg.expectedVersion) :
    runsTo ((initWrites s).length + 1) s (afterFrames (.read s.cfg.regAddr.version :: initWrites s) (v :: as) rest
      (receiving { s with ver := Reg.holding s.cfg.expectedVersion })) := by
  obtain ⟨hgv, hgas⟩ := List.forall_mem_cons.1 hg
  refine runsTo_succ (step_i1Ver_expected hs ha hgv hv) ?_
  obtain ⟨hb, hi, -⟩ := hs
  have hw' : ∀ r ∈ stepReads .i6Rxc, isWritten { s with ver := Reg.holding s.cfg.expectedVersion } r = true := by
    simpa [stepReads, isWritten, Reg.holding] using hw
  rw [hv]
  exact exchanges_initWrites (s := { s with ver := Reg.holding s.cfg.expectedVersion }) hb hi hw' [_] [v] as rest rfl hl hgas

/-- Settles O48: the reset pulse, the version read, and then the writes in their order. -/
theorem initReachesRun : Obligations.InitReachesRun := by
  rintro p s frf (- | ⟨v, as⟩) rest frames c hb hp hi hf rfl rfl ha hl hg hv
  · exact absurd hl nofun
  refine ⟨_, exec_init_some hb hp hf p, ?_⟩
  have hw : ∀ r ∈ [WorkReg.frf, .cfg1, .cfg2], isWritten (afterPulse p frf s) r = true := by
    simp [isWritten, afterPulse, Reg.holding]
  have run := init_runs_from_i1Ver ⟨rfl, rfl, rfl⟩ hw ha (Nat.succ.inj hl) hg (hv v rfl)
  rw [Nat.add_comm]
  exact runsTo_add (resetPulse_runs hi p frf) run

end Sys2Proof.Machine

/-! The interrupt flag decoder: `Decode(s)` bit by bit, and the command IRQD (44_irq_decoder.md). -/
namespace Sys2Proof.Machine

/-! ## Decode -/

/-- The mask of one bit meets the byte exactly where that bit is set (44_irq_decoder.md R200). -/
theorem hasFlag_twoPow (s : Byte) (i : Nat) (h : i < 8 := by decide) : hasFlag s (BitVec.twoPow 8 i) = s.getLsbD i := by
  have hne : BitVec.twoPow 8 i ≠ 0 := fun hz => by simpa [h] using congrArg (BitVec.getLsbD · i) hz
  rw [hasFlag, BitVec.and_twoPow]
  cases s.getLsbD i with
  | true => exact bne_iff_ne.2 hne
  | false => rfl

/-- The eight masks of R44 are the eight bits, from timeout in bit 7 down to cadDetected in bit 0. -/
theorem irqDecode_eq_bits (s : Byte) : irqDecode s =
    ⟨s.getLsbD 7, s.getLsbD 6, s.getLsbD 5, s.getLsbD 4, s.getLsbD 3, s.getLsbD 2, s.getLsbD 1, s.getLsbD 0,
      s.getLsbD 2 && !s.getLsbD 0, s != 0⟩ := by
  have hcadDone := hasFlag_twoPow s 2
  have hcadDetected := hasFlag_twoPow s 0
  rw [irqDecode, IrqFlags.mk.injEq]
  exact ⟨hasFlag_twoPow s 7, hasFlag_twoPow s 6, hasFlag_twoPow s 5, hasFlag_twoPow s 4, hasFlag_twoPow s 3, hcadDone,
    hasFlag_twoPow s 1, hcadDetected, congrArg₂ (· && !·) hcadDone hcadDetected, rfl⟩

/-! ## RESP.flags -/

theorem packIrqFlags_byte (s : Byte) : (packIrqFlags s).extractLsb' 0 8 = s := BitVec.extractLsb'_append_eq_right

theorem packIrqFlags_cadClear (s : Byte) : (packIrqFlags s).getLsbD 8 = (irqDecode s).cadClear := by
  simp only [packIrqFlags, BitVec.getLsbD_append]
  simp

theorem packIrqFlags_valid (s : Byte) : (packIrqFlags s).getLsbD 9 = (irqDecode s).valid := by
  simp only [packIrqFlags, BitVec.getLsbD_append]
  simp

/-! ## The command -/

/-- IRQD is accepted in every phase and answers the decoded flags with the raw byte (44_irq_decoder.md R201). -/
theorem exec_irqd {s : State} (hb : s.busy = false) (byte : Byte) :
    exec (.irqd byte) s = .next (finished (.irqd (packIrqFlags byte) byte) (opened (encodeCommand (.irqd byte)) s)) := by
  rw [exec, execIrqd, accept_pure hb rfl rfl, succeed_eq]

/-- Settles O20: each flag's mask is one bit, and the ten results are packed over the raw byte. -/
theorem irqdDecodesFlags : Obligations.IrqdDecodesFlags := by
  refine ⟨fun b => ?_, fun b s hb => ?_⟩
  · rw [irqDecode_eq_bits]
    exact ⟨rfl, rfl, rfl, rfl, rfl, rfl, rfl, rfl, rfl, bne_iff_ne⟩
  · exact ⟨packIrqFlags b, packIrqFlags_byte b, packIrqFlags_cadClear b, packIrqFlags_valid b, exec_irqd hb b⟩

end Sys2Proof.Machine

/-! The packet-assembly sequencer: the receive service step by step and as a whole, and the commands SNRC and RSSIC
(45_rx_sequencer.md). -/
namespace Sys2Proof.Machine

/-- Settles O9: the sequencer's step, where the current step has a frame. -/
theorem stepRunsSelectedFrame : Obligations.StepRunsSelectedFrame := fun _ _ => step_frame

/-! ## The conversions -/

/-- `SnrConv` reads the low seven bits as two's complement (45_rx_sequencer.md R235). -/
theorem snrConv_eq (b : Byte) :
    snrConv b = ((b.toNat % 128 : Nat) : Int) - if b.toNat % 128 < 64 then 0 else 128 := by
  revert b
  decide

/-- The dB value is a quarter of SNRQ (45_rx_sequencer.md R235). -/
theorem snrDb_mul_four (v : Int) : snrDb v * 4 = v := by
  rw [snrDb, Rat.mkRat_eq_div]
  exact div_mul_cancel₀ _ (by norm_num)

/-- RSSI's two's complement holds the byte less 137 (45_rx_sequencer.md R236). -/
theorem rssiWord_toInt (b : Byte) : (rssiWord b).toInt = (b.toNat : Int) - 137 := by
  have := b.isLt
  exact BitVec.toInt_ofInt_eq_self (by decide) (by rw [rssiConv]; omega) (by rw [rssiConv]; omega)

/-- A counter is its MSB times 256, plus its LSB (45_rx_sequencer.md R237). -/
theorem cnt16_eq_ofNat (msb lsb : Byte) : cnt16 msb lsb = BitVec.ofNat 16 (msb.toNat * 256 + lsb.toNat) := by
  have side := BitVec.setWidth_append_eq_shiftLeft_setWidth_or (b := msb) (b' := lsb) (w'' := 16)
  rw [cnt16, ← side, ← toNat_append_byte, BitVec.ofNat_toNat]

/-! ## The commands -/

/-- SNRC is accepted in every phase (45_rx_sequencer.md R235). -/
theorem exec_snrc {s : State} (hb : s.busy = false) (b : Byte) :
    exec (.snrc b) s = .next (finished (.snrc (snrConv b) (snrDb (snrConv b))) (opened (encodeCommand (.snrc b)) s)) := by
  rw [exec, execSnrc, accept_pure hb rfl rfl, succeed_eq]

/-- RSSIC is accepted in every phase (45_rx_sequencer.md R236). -/
theorem exec_rssic {s : State} (hb : s.busy = false) (b : Byte) :
    exec (.rssic b) s = .next (finished (.rssic (rssiWord b)) (opened (encodeCommand (.rssic b)) s)) := by
  rw [exec, execRssic, accept_pure hb rfl rfl, succeed_eq]

/-- Settles O21: the two ranges of the low seven bits, and the quarter. -/
theorem snrcConverts : Obligations.SnrcConverts := by
  intro b s hb
  obtain ⟨hlo, hhi⟩ := snrConv_range b
  refine ⟨snrConv b, snrDb (snrConv b), ⟨fun h => ?_, fun h => ?_⟩, hlo, hhi, snrDb_mul_four _, exec_snrc hb b⟩
  · rw [snrConv_eq, if_pos h, sub_zero]
  · rw [snrConv_eq, if_neg h.not_gt]

/-- Settles O22: the byte less 137 fits 16-bit two's complement. -/
theorem rssicConverts : Obligations.RssicConverts :=
  fun b _ hb => ⟨rssiWord b, rssiWord_toInt b, exec_rssic hb b⟩

/-! ## Runs with their answers and events -/

/-- From `s` the block takes, in `n` steps, the answers `as` and emits the events `evs`, whatever history is before them and
whatever answers come after; it is then in `t`, but for the history and the answers. -/
def Serves (n : Nat) (as : List Answer) (evs : List Event) (s t : State) : Prop :=
  ∀ (h : List Event) (rest : List Answer),
    runsTo n { s with history := h, answers := as ++ rest } { t with history := h ++ evs, answers := rest }

/-- Runs follow one another. -/
theorem Serves.trans {n m : Nat} {as bs : List Answer} {evs fvs : List Event} {s t u : State} (h : Serves n as evs s t)
    (h' : Serves m bs fvs t u) : Serves (n + m) (as ++ bs) (evs ++ fvs) s u := by
  intro hist rest
  have run1 := h hist (bs ++ rest)
  have run2 := h' (hist ++ evs) rest
  simpa only [List.append_assoc] using runsTo_add run1 run2

/-- A run from `s` itself. -/
theorem Serves.run {n : Nat} {as rest : List Answer} {evs : List Event} {s t : State} (h : Serves n as evs s t)
    (ha : s.answers = as ++ rest) : runsTo n s { t with history := s.history ++ evs, answers := rest } := by
  have run := h s.history rest
  rwa [← ha] at run

/-- A run of one step is that step. -/
theorem step_of_runsTo_one {s t : State} (h : runsTo 1 s t) : step s = .next t := by
  have hrun : Host.Core.run Sys2Proof.core 1 s = .next t := h
  cases hs : Sys2Proof.core.step s with
  | next v => exact hs.trans ((run_succ hs 0).symm.trans hrun)
  | fault r => simp [Host.Core.run, hs] at hrun
  | refused r => simp [Host.Core.run, hs] at hrun

/-- A run of one step with its one answer, as the machine's step from `s` itself. -/
theorem Serves.next {a : Answer} {rest : List Answer} {evs : List Event} {s t : State} (h : Serves 1 [a] evs s t)
    (ha : s.answers = a :: rest) : step s = .next { t with history := s.history ++ evs, answers := rest } :=
  step_of_runsTo_one (h.run ha)

/-- The current step's frame has a good answer, whose byte the step takes; `evs` is what it emits besides the BUS event. -/
theorem Serves.frame_emits {st : SeqStep} {f : Frame} {a : Answer} {evs : List Event} {s t : State} (hs : holdsAt st s)
    (hf : selectFrame { s with step := st } = some f) (hr : ∀ r ∈ stepReads st, isWritten s r = true)
    (hg : answerGood a = true)
    (ht : ∀ h rest, takeData (answerData a) { s with step := st, history := h, answers := rest } =
      { t with history := h ++ evs, answers := rest }) : Serves 1 [a] (busEvent f a :: evs) s t := by
  obtain ⟨hb, hi, rfl⟩ := hs
  intro h rest
  have hstep := step_listed (s := { s with history := h, answers := [a] ++ rest }) hb hi hf hr rfl
  have htake := ht (h ++ [busEvent f a]) rest
  rw [List.append_assoc] at htake
  rw [if_pos hg] at hstep
  exact runsTo_one (hstep.trans (congrArg _ htake))

/-- The current step's frame has a good answer, whose byte the step takes. -/
theorem Serves.frame {st : SeqStep} {f : Frame} {a : Answer} {s t : State} (hs : holdsAt st s)
    (hf : selectFrame { s with step := st } = some f) (hr : ∀ r ∈ stepReads st, isWritten s r = true)
    (hg : answerGood a = true)
    (ht : ∀ h rest, takeData (answerData a) { s with step := st, history := h, answers := rest } =
      { t with history := h, answers := rest }) : Serves 1 [a] [busEvent f a] s t :=
  .frame_emits hs hf hr hg fun h rest => by rw [List.append_nil]; exact ht h rest

/-- A step that neither takes an answer nor emits an event. -/
theorem Serves.silent {s t : State}
    (h : ∀ h rest, step { s with history := h, answers := rest } = .next { t with history := h, answers := rest }) :
    Serves 1 [] [] s t := by
  intro hist rest
  rw [List.append_nil]
  exact runsTo_one (h hist rest)

/-! ## The steps of the service -/

/-- With PEND set in RUN and no command offered, the service takes the free lock (45_rx_sequencer.md R220). -/
theorem step_serviceEntry {s : State} (h : free s) (hport : s.port = []) (hpend : s.pend = true) (hp : s.phase = .run) :
    step s = .next (serviceEntry s) := by
  obtain ⟨hb, hi⟩ := h
  have ready : serviceReady s = true := by simp [serviceReady, hpend, hp, hb]
  rw [step_free hb hi, freeStep, hport]
  simp only [ready, if_true]

/-- Settles O33: the entry's state, field by field. -/
theorem serviceEntryTakesLock : Obligations.ServiceEntryTakesLock := fun _ => step_serviceEntry

section
variable {s : State} {a : Answer} (hg : answerGood a = true)
include hg

/-- S0_IRQ: rxDone, bit 6 of the flags, is the gate (45_rx_sequencer.md R221, R222). -/
theorem serves_s0Irq (hs : holdsAt .s0Irq s) : Serves 1 [a] [busEvent (.read s.cfg.regAddr.irqFlags) a] s
    { s with irq := Reg.holding (answerData a), step := if (answerData a).getLsbD 6 then .s1Len else .s8Ack } :=
  .frame hs rfl nofun hg fun _ _ => by simp only [takeData, takeS0Irq, irqDecode_eq_bits]

/-- S1_LEN (45_rx_sequencer.md R223). -/
theorem serves_s1Len (hs : holdsAt .s1Len s) : Serves 1 [a] [busEvent (.read s.cfg.regAddr.rxNbBytes) a] s
    { s with len := Reg.holding (answerData a), step := .s2aCur } :=
  .frame hs rfl nofun hg fun _ _ => rfl

/-- S2A_CUR (45_rx_sequencer.md R224). -/
theorem serves_s2aCur (hs : holdsAt .s2aCur s) : Serves 1 [a] [busEvent (.read s.cfg.regAddr.fifoRxCur) a] s
    { s with cur := Reg.holding (answerData a), step := .s2bPtr } :=
  .frame hs rfl nofun hg fun _ _ => rfl

/-- S2B_PTR (45_rx_sequencer.md R225). -/
theorem serves_s2bPtr (hs : holdsAt .s2bPtr s) (hw : s.cur.written = true) :
    Serves 1 [a] [busEvent (.write s.cfg.regAddr.fifoAddrPtr s.cur.value) a] s
      { s with cnt := Reg.holding 0, buf := Reg.holding [], step := .s3Burst } :=
  .frame hs rfl (List.forall_mem_singleton.2 hw) hg fun _ _ => rfl

/-- S5A_HMSB (45_rx_sequencer.md R228). -/
theorem serves_s5aHmsb (hs : holdsAt .s5aHmsb s) : Serves 1 [a] [busEvent (.read s.cfg.regAddr.hdrCntMsb) a] s
    { s with tmp := Reg.holding (answerData a), step := .s5bHlsb } :=
  .frame hs rfl nofun hg fun _ _ => rfl

/-- S5B_HLSB: the header counter (45_rx_sequencer.md R228, R237). -/
theorem serves_s5bHlsb (hs : holdsAt .s5bHlsb s) (hw : s.tmp.written = true) :
    Serves 1 [a] [busEvent (.read s.cfg.regAddr.hdrCntLsb) a] s
      { s with hdrcnt := Reg.holding (BitVec.ofNat 16 (s.tmp.value.toNat * 256 + (answerData a).toNat)), step := .s5cPmsb } :=
  .frame hs rfl (List.forall_mem_singleton.2 hw) hg fun _ _ => by rw [← cnt16_eq_ofNat]; rfl

/-- S5C_PMSB (45_rx_sequencer.md R229). -/
theorem serves_s5cPmsb (hs : holdsAt .s5cPmsb s) : Serves 1 [a] [busEvent (.read s.cfg.regAddr.pktCntMsb) a] s
    { s with tmp := Reg.holding (answerData a), step := .s5dPlsb } :=
  .frame hs rfl nofun hg fun _ _ => rfl

/-- S5D_PLSB: the packet counter (45_rx_sequencer.md R229, R237). -/
theorem serves_s5dPlsb (hs : holdsAt .s5dPlsb s) (hw : s.tmp.written = true) :
    Serves 1 [a] [busEvent (.read s.cfg.regAddr.pktCntLsb) a] s
      { s with pktcnt := Reg.holding (BitVec.ofNat 16 (s.tmp.value.toNat * 256 + (answerData a).toNat)), step := .s6Snr } :=
  .frame hs rfl (List.forall_mem_singleton.2 hw) hg fun _ _ => by rw [← cnt16_eq_ofNat]; rfl

/-- S6_SNR (45_rx_sequencer.md R230). -/
theorem serves_s6Snr (hs : holdsAt .s6Snr s) : Serves 1 [a] [busEvent (.read s.cfg.regAddr.pktSnr) a] s
    { s with snrq := Reg.holding (snrConv (answerData a)), step := .s7Rssi } :=
  .frame hs rfl nofun hg fun _ _ => rfl

/-- S7_RSSI: the packet follows its read (45_rx_sequencer.md R231). -/
theorem serves_s7Rssi (hs : holdsAt .s7Rssi s) (hw : ∀ r ∈ stepReads .s7Rssi, isWritten s r = true) :
    Serves 1 [a] [busEvent (.read s.cfg.regAddr.pktRssi) a,
        .pkt (packetOf { s with rssi := Reg.holding (rssiWord (answerData a)) })]
      s { s with rssi := Reg.holding (rssiWord (answerData a)), step := .s8Ack } :=
  .frame_emits hs rfl hw hg fun _ _ => rfl

end

/-- Settles O34: bit 6 of the flags is rxDone's. -/
theorem rxDoneGatesService : Obligations.RxDoneGatesService :=
  fun _ _ _ hs ha hg => (serves_s0Irq hg hs).next ha

/-- Settles O35: the two reads and the write, step by step. -/
theorem lengthAndCursorSteps : Obligations.LengthAndCursorSteps :=
  fun _ _ _ ha hg => ⟨fun hs => (serves_s1Len hg hs).next ha, fun hs => (serves_s2aCur hg hs).next ha,
    fun hs hw => (serves_s2bPtr hg hs hw).next ha⟩

/-- Settles O38: the four reads, step by step. -/
theorem countersAreAssembled : Obligations.CountersAreAssembled :=
  fun _ _ _ ha hg => ⟨fun hs => (serves_s5aHmsb hg hs).next ha, fun hs hw => (serves_s5bHlsb hg hs hw).next ha,
    fun hs => (serves_s5cPmsb hg hs).next ha, fun hs hw => (serves_s5dPlsb hg hs hw).next ha⟩

/-- Settles O39: the two reads; the packet follows the second one's BUS event. -/
theorem packetIsEmitted : Obligations.PacketIsEmitted := by
  refine fun s ans rest ha hg => ⟨fun hs => (serves_s6Snr hg hs).next ha, fun hs hirq hhdr hpay hhdrcnt hpktcnt hsnrq => ?_⟩
  have hw : ∀ r ∈ stepReads .s7Rssi, isWritten s r = true := by
    simp [stepReads, isWritten, hirq, hhdr, hpay, hhdrcnt, hpktcnt, hsnrq]
  refine ⟨_, rssiWord (answerData ans), snrDb s.snrq.value, rssiWord_toInt _, snrDb_mul_four _, rfl, ?_⟩
  rw [(serves_s7Rssi hg hs hw).next ha]
  simp [afterFrames, packetOf, Reg.holding]

/-! ## The burst -/

/-- `k` of R226 in the two burst modes (45_rx_sequencer.md R226, 40_register_access.md R132). -/
theorem burstReads_eq {s : State} {n : Byte} {k : Nat} (hlen : s.len = Reg.holding n)
    (hsource : s.cfg.burstMode = .source → k = n.toNat - 1) (hcorrected : s.cfg.burstMode = .corrected → k = n.toNat) :
    burstReads s = k := by
  have hn : s.len.value = n := by rw [hlen, Reg.holding]
  cases hm : s.cfg.burstMode with
  | source => simp only [burstReads, hm, hn, hsource hm, burstCount]
  | corrected => simp only [burstReads, hm, hn, hcorrected hm, burstCount]

/-- `s` in its burst, or just after it: STEP is `st`, CNT is `n` and BUF holds `bs` (45_rx_sequencer.md R226). -/
def midBurst (st : SeqStep) (n : Byte) (bs : List Byte) (s : State) : State :=
  { s with cnt := Reg.holding n, buf := Reg.holding bs, step := st }

/-- The frame of S3_BURST, while a read is left to make (45_rx_sequencer.md R226). -/
theorem selectFrame_s3Burst {s : State} (hst : s.step = .s3Burst) :
    selectFrame s = if s.cnt.value.toNat < burstReads s then some (.read s.cfg.regAddr.fifo) else none := by
  simp [selectFrame, hst]

section
variable {s : State} (hb : s.busy = true) (hi : s.inputs = []) (hw : s.len.written = true)
include hw

/-- With LEN read, S3_BURST's registers are all written (00_scope.md R11). -/
theorem midBurst_written (n : Byte) (bs : List Byte) :
    ∀ r ∈ stepReads .s3Burst, isWritten (midBurst .s3Burst n bs s) r = true := by
  simp [stepReads, isWritten, midBurst, Reg.holding, hw]

include hb hi

/-- One read of S3_BURST (45_rx_sequencer.md R226). -/
theorem serves_s3Burst {a : Answer} {n : Byte} (bs : List Byte) (hlt : n.toNat < burstReads s) (hg : answerGood a = true) :
    Serves 1 [a] [busEvent (.read s.cfg.regAddr.fifo) a] (midBurst .s3Burst n bs s)
      (midBurst (if n.toNat + 1 < burstReads s then .s3Burst else .s4Split) (n + 1) (bs ++ [answerData a]) s) :=
  .frame ⟨hb, hi, rfl⟩ ((selectFrame_s3Burst rfl).trans (if_pos hlt)) (midBurst_written hw n bs) hg fun _ _ => rfl

/-- The reads of S3_BURST that are left to make: CNT counts them, and BUF gets their bytes in order
(45_rx_sequencer.md R226). -/
theorem serves_burst {as : List Answer} {n : Byte} {bs : List Byte} (hk : n.toNat + as.length = burstReads s) (hne : as ≠ [])
    (hg : ∀ x ∈ as, answerGood x = true) :
    Serves as.length as (List.zipWith busEvent (List.replicate as.length (.read s.cfg.regAddr.fifo)) as)
      (midBurst .s3Burst n bs s) (midBurst .s4Split (n + BitVec.ofNat 8 as.length) (bs ++ as.map answerData) s) := by
  induction as generalizing n bs with
  | nil => exact absurd rfl hne
  | cons a as ih =>
    obtain ⟨hga, hgas⟩ := List.forall_mem_cons.1 hg
    rw [List.length_cons] at hk ⊢
    have hlt : n.toNat < burstReads s := by omega
    have first := serves_s3Burst hb hi hw bs hlt hga
    by_cases hlast : as = []
    · subst hlast
      rw [if_neg (by rw [← hk]; simp)] at first
      exact first
    · have hpos := List.length_pos_iff.2 hlast
      rw [if_pos (by omega)] at first
      have hcnt : (n + 1).toNat = n.toNat + 1 := cnt_succ_toNat (s := midBurst .s3Burst n bs s) hlt
      have others := ih (n := n + 1) (bs := bs ++ [answerData a]) (by omega) hlast hgas
      have hsum : n + BitVec.ofNat 8 (as.length + 1) = n + 1 + BitVec.ofNat 8 as.length := by
        rw [Nat.add_comm, BitVec.ofNat_add, BitVec.add_assoc]
        rfl
      rw [hsum, Nat.add_comm as.length]
      simpa [List.replicate_add] using first.trans others

/-- The whole burst: `k` reads from its start on, where `k` is not 0 (45_rx_sequencer.md R226). -/
theorem serves_wholeBurst {as : List Answer} (hk : as.length = burstReads s) (hne : as ≠ [])
    (hg : ∀ x ∈ as, answerGood x = true) :
    Serves as.length as (List.zipWith busEvent (List.replicate as.length (.read s.cfg.regAddr.fifo)) as)
      (midBurst .s3Burst 0 [] s) (midBurst .s4Split (BitVec.ofNat 8 as.length) (as.map answerData) s) := by
  have run := serves_burst hb hi hw (n := 0#8) (bs := []) (by simpa using hk) hne hg
  rwa [BitVec.zero_add] at run

end

/-- Settles O36: with reads to make the burst makes them all; with none it ends in a step of its own. -/
theorem burstFillsBuffer : Obligations.BurstFillsBuffer := by
  rintro s n k as rest ⟨hb, hi, hst⟩ hlen hcnt hbuf hsource hcorrected ha rfl hg
  have hk := burstReads_eq hlen hsource hcorrected
  have hw : s.len.written = true := by rw [hlen, Reg.holding]
  have start : midBurst .s3Burst 0 [] s = s := by rw [midBurst, ← hcnt, ← hbuf, ← hst]
  refine ⟨fun hpos => ?_, fun hempty => ?_⟩
  · have run := serves_wholeBurst hb hi hw hk.symm (List.ne_nil_of_length_pos hpos) hg
    rw [start] at run
    exact run.run ha
  · have none_left : selectFrame s = none := by
      rw [selectFrame_s3Burst hst, if_neg (by rw [hk, hempty]; exact Nat.not_lt_zero _)]
    have last := step_internal hb hi none_left (by rw [← start]; exact midBurst_written hw 0 [])
    rw [internalStep, hst] at last
    exact runsTo_one last

/-! ## The split -/

/-- Fewer than four bytes hold no header (45_rx_sequencer.md R234). -/
theorem hsplit_eq_none {l : List Byte} (h : l.length < 4) : hsplit l = none := by
  cases hs : hsplit l with
  | none => rfl
  | some q =>
    have := hsplit_length hs
    omega

/-- The step at S4_SPLIT makes no transaction (45_rx_sequencer.md R227). -/
theorem step_s4Split {s : State} (hs : holdsAt .s4Split s) (hw : s.buf.written = true) :
    step s = .next (stepS4Split s) := by
  obtain ⟨hb, hi, hst⟩ := hs
  rw [step_internal hb hi (by rw [selectFrame, hst]) (by simpa [hst, stepReads, isWritten] using hw), internalStep, hst]

/-- Settles O37: BUF splits where it has four bytes, and raises FramingError where it has not. -/
theorem splitHeaderOrFramingError : Obligations.SplitHeaderOrFramingError := by
  intro s hs hw
  rw [step_s4Split hs hw]
  refine ⟨fun b0 b1 b2 b3 p hbuf => ?_, fun hshort howner => ?_⟩
  · simp only [stepS4Split, hbuf, hsplit]
  · obtain ⟨-, -, hst⟩ := hs
    simp only [stepS4Split, hsplit_eq_none hshort, raiseError_service howner, hst]

/-! ## Errors and the acknowledgement -/

/-- A TransportError in a data step of a service is recorded, and S8_ACK comes next (45_rx_sequencer.md R239). -/
theorem takeError_dataStep {s : State} {f : Frame} (ho : s.owner = .service) (hi : isReceive s.step = true)
    (hack : s.step ≠ .s8Ack) (hf : selectFrame s = some f) (a : Addr) (x : Byte) :
    takeError a x s = { s with svcErr := ⟨.transport, false, s.step, a, x⟩, step := .s8Ack } := by
  rw [← raiseError_service ho]
  cases hst : s.step <;> simp only [hst, isReceive, reduceCtorEq] at hi <;> simp only [takeError, hst]
  case s4Split => simp [selectFrame, hst] at hf
  case s8Ack => exact absurd hst hack

/-- Settles O41: the exchange, and then the error's record. -/
theorem serviceErrorGoesToAck : Obligations.ServiceErrorGoesToAck := by
  intro s f ans rest hb hi ho hr hack hw hf ha hg
  rw [step_listed hb hi hf hw ha, if_neg (by simp [hg])]
  exact congrArg _ (takeError_dataStep (s := afterFrames [f] [ans] rest s) ho hr hack hf _ _)

/-- A service's end, field by field (45_rx_sequencer.md R233). -/
theorem endService_eq (s : State) :
    endService s = { s with
      err := errWord s.svcErr, busy := false, owner := .command, step := .none, job := none,
      history := s.history ++ if errWord s.svcErr = 0 then [] else [.err (errWord s.svcErr)] } := by
  rw [endService, writeErr]
  split <;> simp [unlock]

/-- The step at S8_ACK, which ends the service either way (45_rx_sequencer.md R232, R233). -/
theorem step_s8Ack {s : State} {a : Answer} {rest : List Answer} (hs : holdsAt .s8Ack s) (ha : s.answers = a :: rest) :
    step s = .next (endService
      (if answerGood a then afterFrames [.write s.cfg.regAddr.irqFlags 0xFF] [a] rest s
       else recordAckFail s.cfg.regAddr.irqFlags (answerAux a)
         (afterFrames [.write s.cfg.regAddr.irqFlags 0xFF] [a] rest s))) := by
  obtain ⟨hb, hi, hst⟩ := hs
  have hf : selectFrame s = some (.write s.cfg.regAddr.irqFlags 0xFF) := by simp [selectFrame, hst]
  rw [step_listed hb hi hf (by simp [stepReads, hst]) ha]
  cases answerGood a <;> simp [takeData, takeError, hst, takeS8Ack, failS8Ack]

/-- Settles O40: the record is the service's own, or what the failed write makes of it; the end is the same. -/
theorem acknowledgementEndsService : Obligations.AcknowledgementEndsService := by
  intro s ans rest hs ha
  rw [step_s8Ack hs ha]
  cases hg : answerGood ans with
  | true =>
    refine ⟨s.svcErr, fun _ => rfl, nofun, nofun, ?_⟩
    rw [if_pos rfl, endService_eq]
    rfl
  | false =>
    refine ⟨(recordAckFail s.cfg.regAddr.irqFlags (answerAux ans) s).svcErr, nofun, fun _ h => ?_, fun _ h => ?_, ?_⟩
    · exact if_pos h
    · exact if_neg h
    · rw [if_neg (by simp), endService_eq]
      rfl

/-! ## The whole service -/

/-- `s` with the flags, the length and the cursor read (45_rx_sequencer.md R221 to R224). -/
def withFlagsLenCur (irq len cur : Byte) (s : State) : State :=
  { s with irq := Reg.holding irq, len := Reg.holding len, cur := Reg.holding cur }

/-- `s` after S4_SPLIT (45_rx_sequencer.md R227). -/
def afterSplit (h : Header) (p : List Byte) (s : State) : State :=
  { s with hdr := Reg.holding h, pay := Reg.holding p, step := .s5aHmsb }

/-- `s` after S5D_PLSB, with the bytes of the two counters (45_rx_sequencer.md R228, R229). -/
def afterCounters (hm hl pm pl : Byte) (s : State) : State :=
  { s with
    hdrcnt := Reg.holding (BitVec.ofNat 16 (hm.toNat * 256 + hl.toNat)),
    pktcnt := Reg.holding (BitVec.ofNat 16 (pm.toNat * 256 + pl.toNat)), tmp := Reg.holding pm, step := .s6Snr }

/-- `s` after S7_RSSI, with the bytes it and S6_SNR read (45_rx_sequencer.md R230, R231). -/
def afterSignal (snr rssi : Byte) (s : State) : State :=
  { s with snrq := Reg.holding (snrConv snr), rssi := Reg.holding (rssiWord rssi), step := .s8Ack }

/-- `s` after a service without an error (45_rx_sequencer.md R233). -/
def afterService (s : State) : State :=
  { s with err := 0, busy := false, owner := .command, step := .none, job := none }

/-- Service entry makes no transaction (45_rx_sequencer.md R220). -/
theorem serves_entry {s : State} (h : free s) (hport : s.port = []) (hpend : s.pend = true) (hp : s.phase = .run) :
    Serves 1 [] [] s (serviceEntry s) :=
  .silent fun hist rest => step_serviceEntry (s := { s with history := hist, answers := rest }) h hport hpend hp

/-- S0_IRQ to S2B_PTR, where the flags say rxDone: the burst can start (45_rx_sequencer.md R221 to R225). -/
theorem serves_toBurst {s : State} {aIrq aLen aCur aPtr : Answer} (hs : holdsAt .s0Irq s)
    (hrx : (answerData aIrq).getLsbD 6 = true) (hIrq : answerGood aIrq = true) (hLen : answerGood aLen = true)
    (hCur : answerGood aCur = true) (hPtr : answerGood aPtr = true) :
    Serves 4 [aIrq, aLen, aCur, aPtr]
      (List.zipWith busEvent
        [.read s.cfg.regAddr.irqFlags, .read s.cfg.regAddr.rxNbBytes, .read s.cfg.regAddr.fifoRxCur,
         .write s.cfg.regAddr.fifoAddrPtr (answerData aCur)] [aIrq, aLen, aCur, aPtr])
      s (midBurst .s3Burst 0 [] (withFlagsLenCur (answerData aIrq) (answerData aLen) (answerData aCur) s)) := by
  have toLen := serves_s0Irq hIrq hs
  rw [if_pos hrx] at toLen
  obtain ⟨hb, hi, -⟩ := hs
  have toCur := toLen.trans (serves_s1Len hLen ⟨hb, hi, rfl⟩)
  have toPtr := toCur.trans (serves_s2aCur hCur ⟨hb, hi, rfl⟩)
  exact toPtr.trans (serves_s2bPtr hPtr ⟨hb, hi, rfl⟩ rfl)

/-- S4_SPLIT with a header in BUF (45_rx_sequencer.md R227). -/
theorem serves_s4Split {s : State} {b0 b1 b2 b3 : Byte} {p : List Byte} (hs : holdsAt .s4Split s)
    (hbuf : s.buf = Reg.holding (b0 :: b1 :: b2 :: b3 :: p)) : Serves 1 [] [] s (afterSplit ⟨b0, b1, b2, b3⟩ p s) := by
  refine .silent fun hist rest => ?_
  obtain ⟨split, -⟩ := splitHeaderOrFramingError { s with history := hist, answers := rest } hs (by simp [hbuf, Reg.holding])
  exact split b0 b1 b2 b3 p (by simp [hbuf, Reg.holding])

/-- S5A_HMSB to S5D_PLSB: the two counters (45_rx_sequencer.md R228, R229). -/
theorem serves_counters {s : State} {aHm aHl aPm aPl : Answer} (hs : holdsAt .s5aHmsb s) (hHm : answerGood aHm = true)
    (hHl : answerGood aHl = true) (hPm : answerGood aPm = true) (hPl : answerGood aPl = true) :
    Serves 4 [aHm, aHl, aPm, aPl]
      (List.zipWith busEvent
        [.read s.cfg.regAddr.hdrCntMsb, .read s.cfg.regAddr.hdrCntLsb, .read s.cfg.regAddr.pktCntMsb,
         .read s.cfg.regAddr.pktCntLsb] [aHm, aHl, aPm, aPl])
      s (afterCounters (answerData aHm) (answerData aHl) (answerData aPm) (answerData aPl) s) := by
  have toHlsb := serves_s5aHmsb hHm hs
  obtain ⟨hb, hi, -⟩ := hs
  have toPmsb := toHlsb.trans (serves_s5bHlsb hHl ⟨hb, hi, rfl⟩ rfl)
  have toPlsb := toPmsb.trans (serves_s5cPmsb hPm ⟨hb, hi, rfl⟩)
  exact toPlsb.trans (serves_s5dPlsb hPl ⟨hb, hi, rfl⟩ rfl)

/-- S6_SNR and S7_RSSI: the packet follows the two reads (45_rx_sequencer.md R230, R231). -/
theorem serves_signal {s : State} {aSnr aRssi : Answer} (hs : holdsAt .s6Snr s)
    (hw : [WorkReg.irq, .hdr, .pay, .hdrcnt, .pktcnt].all (isWritten s) = true) (hSnr : answerGood aSnr = true)
    (hRssi : answerGood aRssi = true) :
    Serves 2 [aSnr, aRssi]
      (List.zipWith busEvent [.read s.cfg.regAddr.pktSnr, .read s.cfg.regAddr.pktRssi] [aSnr, aRssi] ++
        [.pkt (packetOf (afterSignal (answerData aSnr) (answerData aRssi) s))])
      s (afterSignal (answerData aSnr) (answerData aRssi) s) := by
  have toRssi := serves_s6Snr hSnr hs
  obtain ⟨hb, hi, -⟩ := hs
  have hw' : ∀ r ∈ stepReads .s7Rssi,
      isWritten { s with snrq := Reg.holding (snrConv (answerData aSnr)), step := .s7Rssi } r = true := by
    simpa [stepReads, isWritten, Reg.holding] using hw
  exact toRssi.trans (serves_s7Rssi hRssi ⟨hb, hi, rfl⟩ hw')

/-- S8_ACK with nothing to report: ERR is 0, and no ERR event is emitted (45_rx_sequencer.md R233). -/
theorem serves_s8Ack {s : State} {a : Answer} (hs : holdsAt .s8Ack s) (he : s.svcErr = ErrRec.clear) (hg : answerGood a = true) :
    Serves 1 [a] [busEvent (.write s.cfg.regAddr.irqFlags 0xFF) a] s (afterService s) :=
  .frame hs rfl nofun hg fun _ _ => by simp [takeData, takeS8Ack, endService_eq, he, afterService]

/-- Settles O42: the entry, the reads up to the burst, the burst, the split, the counters, the packet and the
acknowledgement follow one another. -/
theorem serviceDeliversPacket : Obligations.ServiceDeliversPacket := by
  intro s aIrq aLen aCur aPtr fifo aHm aHl aPm aPl aSnr aRssi aAck rest b0 b1 b2 b3 payload hfree hport hpend hp ha hg hrx
    hlen hbytes
  simp only [List.forall_mem_append, List.forall_mem_cons] at hg
  obtain ⟨⟨⟨hIrq, hLen, hCur, hPtr, -⟩, hFifo⟩, hHm, hHl, hPm, hPl, hSnr, hRssi, hAck, -⟩ := hg
  have hne : fifo ≠ [] := by rintro rfl; simp at hbytes
  have ⟨_, hi⟩ := hfree
  have toIrq := serves_entry hfree hport hpend hp
  have toBurst := toIrq.trans (serves_toBurst ⟨rfl, hi, rfl⟩ hrx hIrq hLen hCur hPtr)
  have toSplit := toBurst.trans (serves_wholeBurst rfl (by exact hi) rfl (by exact hlen) hne hFifo)
  have toCounters := toSplit.trans (serves_s4Split ⟨rfl, hi, rfl⟩ (congrArg Reg.holding hbytes))
  have toSignal := toCounters.trans (serves_counters ⟨rfl, hi, rfl⟩ hHm hHl hPm hPl)
  have toAck := toSignal.trans (serves_signal ⟨rfl, hi, rfl⟩ rfl hSnr hRssi)
  have whole := toAck.trans (serves_s8Ack ⟨rfl, hi, rfl⟩ rfl hAck)
  have run := whole.run (rest := rest) (by simpa using ha)
  rw [show 1 + 4 + fifo.length + 1 + 4 + 2 + 1 = fifo.length + 13 by omega] at run
  refine ⟨_, rssiWord (answerData aRssi), snrDb (snrConv (answerData aSnr)), run, rssiWord_toInt _, snrDb_mul_four _, ?_,
    rfl, rfl, rfl, rfl, hp, rfl, rfl, rfl, rfl, rfl, rfl, rfl, rfl, rfl, rfl, rfl, rfl, rfl, rfl⟩
  rw [List.zipWith_append (by simp), List.zipWith_append (by simp)]
  simp only [List.append_assoc, List.nil_append, List.zipWith]
  rfl

end Sys2Proof.Machine

/-! The command port's envelope and the lock (60_exceptions.md R275 to R277, R289): which step takes an offered word, the waits,
and the refusals that change nothing but the history, RESP and ERR. -/
namespace Sys2Proof.Machine

/-! ## The instruction of an offered word -/

theorem acceptOffer_decodes {o : Offer} {i : Instr} (hd : decode (.command o.cw) = .ok i) (rest : List Offer) (s : State) :
    acceptOffer o rest s = exec i { s with port := rest, mhzIn := o.mhz } := by
  simp only [acceptOffer, hd]

/-- Settles O8: the arbiter's step accepts the first offered word, which decodes. -/
theorem stepRunsOfferedCommand : Obligations.StepRunsOfferedCommand := by
  rintro s o rest i ⟨hb, hi⟩ hp hs hd
  rw [step_free hb hi, freeStep_offer hp (serviceReady_false hs), acceptOffer_decodes hd]

/-! ## Both agents wait for the lock -/

theorem serviceReady_iff (s : State) : serviceReady s = true ↔ s.pend = true ∧ s.phase = .run ∧ s.busy = false := by
  simp [serviceReady, and_assoc]

/-- The service is granted the lock (60_exceptions.md R277). -/
theorem freeStep_grantsService {s : State} {o : Offer} {rest : List Offer} {gs : List Agent} (hp : s.port = o :: rest)
    (hs : serviceReady s = true) (hg : s.grants = .service :: gs) :
    freeStep s = .next (serviceEntry { s with grants := gs }) := by
  simp [freeStep, hp, hs, arbitrate, hg]

/-- The command is granted the lock (60_exceptions.md R277). -/
theorem freeStep_grantsCommand {s : State} {o : Offer} {rest : List Offer} {gs : List Agent} (hp : s.port = o :: rest)
    (hs : serviceReady s = true) (hg : s.grants = .command :: gs) :
    freeStep s = acceptOffer o rest { s with grants := gs } := by
  simp [freeStep, hp, hs, arbitrate, hg]

/-- Settles O13: the grant decides, and a granted command's word decodes or raises ILLEGAL. -/
theorem eitherAgentMayTakeTheLock : Obligations.EitherAgentMayTakeTheLock := by
  rintro s o rest g gs ⟨hb, hi⟩ hp hpend hrun hg
  have ready : serviceReady s = true := (serviceReady_iff s).2 ⟨hpend, hrun, hb⟩
  rw [step_free hb hi]
  refine ⟨?_, ?_, ?_⟩
  · rintro rfl
    exact freeStep_grantsService hp ready hg
  · rintro rfl i hd
    rw [freeStep_grantsCommand hp ready hg, acceptOffer_decodes hd]
  · rintro rfl e he
    rw [freeStep_grantsCommand hp ready hg, acceptOffer_undecodable he]
    rfl

/-! ## The waits -/

/-- Every command runs inside the envelope (60_exceptions.md R276). -/
theorem exec_eq_accept {i : Instr} (h1 : ∀ a, i ≠ .busRd a) (h2 : ∀ a v, i ≠ .busWr a v) (s : State) :
    ∃ perform : State → State, exec i s = accept i perform s := by
  cases i with
  | busRd a => exact absurd rfl (h1 a)
  | busWr a v => exact absurd rfl (h2 a v)
  | f2r => simp only [exec, execF2r]; exact ⟨_, rfl⟩
  | sfrq => simp only [exec, execSfrq]; exact ⟨_, rfl⟩
  | init p => simp only [exec, execInit]; exact ⟨_, rfl⟩
  | _ => exact ⟨_, rfl⟩

/-- Settles O12: with nothing to start the arbiter waits, and the envelope holds the port while BUSY = 1. -/
theorem waitsChangeNothing : Obligations.WaitsChangeNothing := by
  refine ⟨?_, fun i s hb h1 h2 => ?_⟩
  · rintro s ⟨hb, hi⟩ hp hs
    rw [step_free hb hi]
    simp [freeStep, hp, serviceReady_false hs]
  · obtain ⟨perform, hexec⟩ := exec_eq_accept h1 h2 s
    rw [hexec, accept_busy hb]

/-! ## Refusals -/

/-- From a free lock, a command that fails as soon as it is opened changes only the history, RESP and ERR
(60_exceptions.md R275). -/
theorem failed_opened_eq_refusedWith {s : State} (hb : s.busy = false) (hst : s.step = .none) (ho : s.owner = .command)
    (hj : s.job = none) (e : ErrRec) (i : Instr) :
    failed (errWord e) (opened (encodeCommand i) s) = refusedWith e i s := by
  simp [failed, opened, refusedWith, hb, hst, ho, hj]

/-- With the lock free, a bus command in HALTED fails with NOT_PERMITTED and its OP (30_encoding.md R99). -/
theorem accept_halted {i : Instr} {s : State} (hb : s.busy = false) (hw : i.wellFormed s.cfg = true) (hu : usesBus i = true)
    (hp : s.phase = .halted) (f : State → State) :
    accept i f s =
      .next (failed (errWord ⟨.notPermitted, false, .cmd, 0, opAux (encodeCommand i)⟩) (opened (encodeCommand i) s)) := by
  rw [accept_notPermitted hb hw hu hp]
  exact congrArg _ (raiseError_failed rfl (by decide) 0 _)

/-- The commands that convert MHZ_IN raise RANGE before anything else where it has no frequency word
(41_frequency.md R152, R154, 70_reset_and_hazards.md R310). -/
theorem exec_outOfRange {i : Instr} {s : State} (hb : s.busy = false)
    (hi : i = .f2r ∨ ((i = .sfrq ∨ ∃ p, i = .init p) ∧ s.phase ≠ .halted)) (hf : f2rFun s.cfg s.mhzIn = none) :
    exec i s = .next (failed (errWord ⟨.range, false, .cmd, 0, 0⟩) (opened (encodeCommand i) s)) := by
  obtain rfl | ⟨rfl | ⟨p, rfl⟩, hp⟩ := hi
  · exact exec_f2r_none hb hf
  · rw [exec, execSfrq, accept_performs hb rfl (fun _ => hp), openCommand_eq]
    simp only [opened_cfg, opened_mhzIn, hf, raiseRange_opened]
  · rw [exec, execInit, accept_performs hb rfl (fun _ => hp), openCommand_eq]
    simp only [opened_cfg, opened_mhzIn, hf, raiseRange_opened]

/-- Settles O32: each refusal is the failure of a command just opened. -/
theorem refusalsChangeOnlyRespAndErr : Obligations.RefusalsChangeOnlyRespAndErr := by
  intro i s hb hst ho hj h1 h2
  obtain ⟨perform, hexec⟩ := exec_eq_accept h1 h2 s
  simp only [← failed_opened_eq_refusedWith hb hst ho hj]
  refine ⟨fun hw => ?_, fun hw hu hp => ?_, exec_outOfRange hb⟩
  · rw [hexec, accept_reserved hb hw]
    rfl
  · rw [hexec, accept_halted hb hw hu hp]
    rfl

end Sys2Proof.Machine

/-! The first failing transaction of a command (60_exceptions.md R271, R272). -/
namespace Sys2Proof.Machine

/-- A command in progress with good answers and then a bad one: one step for each transaction up to the failing one, then it
fails. -/
theorem job_fails {k : JobKind} {before : List Frame} {f : Frame} {later : List Frame} {as : List Answer} {bad : Answer}
    {rest : List Answer} {s : State} (hs : holdsAt .cmd s) (ho : s.owner = .command)
    (hj : s.job = some ⟨k, before ++ f :: later, []⟩) (ha : s.answers = as ++ bad :: rest) (hl : as.length = before.length)
    (hg : ∀ x ∈ as, answerGood x = true) (hbad : answerGood bad = false) :
    runsTo (before.length + 1) s (failed (errWord ⟨.transport, false, .cmd, f.addr, answerAux bad⟩)
      (jobLoses k (afterFrames (before ++ [f]) (as ++ [bad]) rest s))) := by
  refine runsTo_add (job_runs before hs hj ha hl hg) ?_
  have fails := job_fails_next (s := midJob k before as (bad :: rest) (f :: later) ([] ++ as.map answerData) s) hs ho rfl rfl hbad
  rw [← afterFrames_afterFrames hl (rest := bad :: rest)]
  -- The failure discards the job, in which alone the two states differ.
  cases k <;> exact fails

/-- Settles O31: the command fails at its first bad answer, and only MODE loses the tracked mode. -/
theorem firstFailureEndsCommand : Obligations.FirstFailureEndsCommand := by
  intro s kind before f later as bad rest hs ho hj ha hl hg hbad
  have fails := job_fails hs ho hj ha hl hg hbad
  cases kind <;> exact fails

end Sys2Proof.Machine

/-! The host's input events (60_exceptions.md R277, R280, R290, R292), and what HALTED permits (R273, R282). -/
namespace Sys2Proof.Machine

/-! ## A due input -/

/-- A quiet slot delays nothing (60_exceptions.md R290). -/
theorem step_quiet {s : State} {rest : List Input} (hi : s.inputs = .quiet :: rest) :
    step s = ownStep { s with inputs := rest } := by
  simp only [step, nextStep, hi]

/-- Every due input but a quiet slot and a SHUTDOWN in flight is the whole step (60_exceptions.md R290). -/
theorem step_input {s : State} {e : Input} {rest : List Input} (hi : s.inputs = e :: rest) (hq : e ≠ .quiet)
    (hf : e ≠ .shutdownInFlight) : step s = .next (takeInput e { s with inputs := rest }) := by
  cases e with
  | quiet => exact absurd rfl hq
  | shutdownInFlight => exact absurd rfl hf
  | _ => simp only [step, nextStep, hi]

/-- Settles O10, by the kinds of input that `nextStep` tells apart. -/
theorem dueInputIsTheStep : Obligations.DueInputIsTheStep := by
  intro s e rest hi
  refine ⟨?_, step_input hi, ?_, ?_⟩
  · rintro rfl
    exact step_quiet hi
  · rintro rfl hrest
    exact step_shutdownAtRest hi hrest
  · rintro o rfl
    exact step_input hi nofun nofun

/-! ## The interrupt line -/

/-- A rising edge emits EDGE, and sets PEND unless HALTED (60_exceptions.md R280). -/
theorem sampleIrq_rising {s : State} (h : s.irqLine = false) :
    sampleIrq true s = { s with
      irqLine := true, pend := if s.phase = .halted then s.pend else true, history := s.history ++ [.edge] } :=
  if_pos ⟨rfl, h⟩

/-- Any other sample is only kept (60_exceptions.md R280). -/
theorem sampleIrq_notRising {level : Bool} {s : State} (h : level = false ∨ s.irqLine = true) :
    sampleIrq level s = { s with irqLine := level } :=
  if_neg (by simpa [or_iff_not_imp_left] using h)

/-- Settles O49: a rising edge in the two kinds of phase, and every other sample. -/
theorem risingEdgeSetsPend : Obligations.RisingEdgeSetsPend := by
  intro s level rest hi
  rw [step_input hi nofun nofun, takeInput]
  refine ⟨?_, ?_, fun h => ?_⟩
  · rintro rfl hline hp
    simp [sampleIrq_rising, hline, hp]
  · rintro rfl hline hp
    simp [sampleIrq_rising, hline, hp]
  · exact congrArg _ (sampleIrq_notRising (s := { s with inputs := rest }) h)

/-! ## SHUTDOWN -/

/-- Settles O50: at rest SHUTDOWN is the whole step; in flight the transaction's BUS event comes before RST(0). -/
theorem shutdownAbandons : Obligations.ShutdownAbandons := by
  refine fun s rest => ⟨?_, fun f ans as hi hb hf hr ha => ?_⟩
  · rintro (hi | ⟨hi, hrest⟩)
    · exact step_input hi nofun nofun
    · exact step_shutdownAtRest hi hrest
  · rw [step_shutdownInFlight hi hb hf hr, exchange_listed (s := { s with inputs := rest }) ha]
    simp [shutdown, unlock, emit, afterFrames]

/-! ## HALTED -/

/-- In HALTED no sequence holds the lock (60_exceptions.md R282). -/
theorem busy_false_of_halted {s : State} (h : stateOk s = true) (hp : s.phase = .halted) : s.busy = false := by
  obtain ⟨-, hsit, -⟩ := (stateOk_iff_situation s).1 h
  obtain ⟨-, hb, -⟩ | ⟨-, -, -, hph, -⟩ | ⟨-, -, -, hph, -⟩ | ⟨-, -, -, hph, -⟩ := hsit
  · exact hb
  · exact absurd hp hph
  all_goals simp [hp] at hph

/-- Of the input events only BLOCK_RESET leaves HALTED (60_exceptions.md R273). -/
theorem takeInput_halted {e : Input} (he : e ≠ .blockReset) {s : State} (hp : s.phase = .halted) :
    (takeInput e s).phase = .halted := by
  cases e with
  | blockReset => exact absurd rfl he
  | shutdown => rfl
  | shutdownInFlight => rfl
  | quiet => exact hp
  | offer o => exact hp
  | irqSample level => simp only [takeInput, sampleIrq]; split <;> exact hp
  | timerLow => simp only [takeInput, timerLowDone]; split <;> exact hp
  | timerHigh => simp only [takeInput, timerHighDone]; split <;> exact hp

/-- A command accepted in HALTED completes at once (60_exceptions.md R282). -/
theorem acceptOffer_halted {o : Offer} {rest : List Offer} {s t : State} (hb : s.busy = false) (hp : s.phase = .halted)
    (h : acceptOffer o rest s = .next t) : t.phase = .halted := by
  obtain ⟨cw, ⟨r, e, rfl⟩ | ⟨hph, -⟩ | ⟨hph, -⟩⟩ := acceptOffer_cases hb h
  · exact hp
  all_goals exact absurd hp hph

/-- Every step from a well-formed halted state, but for a due BLOCK_RESET, stays HALTED and makes no transaction. -/
theorem step_halted {s t : State} (h : stateOk s = true) (hp : s.phase = .halted) (hstep : step s = .next t)
    (hi : s.inputs.head? ≠ some .blockReset) : t.phase = .halted ∧ Grows s t := by
  have hfree := busy_false_of_halted h hp
  obtain ⟨e, rest, he, -, rfl⟩ | ⟨f, rest, -, hb, -⟩ | ⟨r, hr, own⟩ := step_cases hstep
  · have hne : e ≠ .blockReset := by
      rintro rfl
      simp [he] at hi
    exact ⟨takeInput_halted (s := { s with inputs := rest }) hne hp, takeInput_grows hne { s with inputs := rest }⟩
  · simp [hfree] at hb
  · have ⟨hb, hph, hgrows⟩ : r.busy = false ∧ r.phase = .halted ∧ Grows s r := by
      obtain ⟨rfl, -⟩ | ⟨rest, -, rfl⟩ := hr <;> exact ⟨hfree, hp, .of_eq rfl⟩
    obtain ⟨f, hbusy, -⟩ | ⟨hbusy, -⟩ | ⟨-, hs, -⟩ | ⟨-, o, rest, gs, n, -, ha⟩ | ⟨-, -, -, rfl⟩ := own
    · simp [hb] at hbusy
    · simp [hb] at hbusy
    · obtain ⟨-, hrun, -⟩ := (serviceReady_iff r).1 hs
      simp [hph] at hrun
    · exact ⟨acceptOffer_halted (s := { r with grants := gs, grantDraws := n }) hb hph ha,
        hgrows.trans (acceptOffer_grows (s := { r with grants := gs, grantDraws := n }) hb ha)⟩
    · exact ⟨hph, hgrows⟩

/-- Settles O51: what a halted step adds to the history is no BUS event. -/
theorem onlyBlockResetLeavesHalted : Obligations.OnlyBlockResetLeavesHalted := by
  intro s t h hp hstep hi
  obtain ⟨hph, evs, hh, hbus⟩ := step_halted h hp hstep hi
  refine ⟨hph, evs, hh, ?_⟩
  rintro e he b0 b1 l bs rfl
  simpa [isBus] using hbus _ he

end Sys2Proof.Machine

/-! Words of the spec's vectors (95_test_vectors.md V2 to V5). -/
namespace Sys2Proof.Machine

/-- Settles O4: the decoder is evaluated on the six words. -/
theorem exampleWordsDecode : Obligations.ExampleWordsDecode := by
  unfold Obligations.ExampleWordsDecode
  decide

end Sys2Proof.Machine

/-! The reset pulse and INIT step by step, BLOCK_RESET, and which step enters RUN (70_reset_and_hazards.md). -/
namespace Sys2Proof.Machine

/-! ## BLOCK_RESET -/

/-- After BLOCK_RESET every working register is unwritten (10_state.md R53). -/
theorem isWritten_blockReset (s : State) (r : WorkReg) : isWritten (blockReset s) r = false := by
  cases r <;> rfl

/-- Settles O7: a due BLOCK_RESET is the whole step, and `blockReset` gives each field its value. -/
theorem blockResetResets : Obligations.BlockResetResets := by
  intro s rest hi
  refine ⟨_, step_input hi nofun nofun, ?_⟩
  exact ⟨rfl, rfl, rfl, rfl, rfl, rfl, rfl, rfl, rfl, rfl, isWritten_blockReset _, rfl, rfl, rfl, rfl, rfl, rfl, rfl, rfl, rfl,
    rfl, rfl, rfl, rfl⟩

/-! ## The reset pulse -/

/-- While no timer event is due, I0_RST waits (60_exceptions.md R290). -/
theorem step_i0Rst_waits {s : State} (hs : holdsAt .i0Rst s) : step s = .next s := by
  obtain ⟨hb, hi, hst⟩ := hs
  rw [step_internal hb hi (by simp [selectFrame, hst]) (by simp [stepReads, hst])]
  simp only [internalStep, hst]

/-- Settles O43: an accepted INIT starts the reset pulse, and then waits for its first timer event. -/
theorem initStartsWithResetPulse : Obligations.InitStartsWithResetPulse := by
  rintro p s frf ⟨hb, hi, hp⟩ hf
  refine ⟨_, exec_init_some hb hp hf p, ?_, step_i0Rst_waits ⟨rfl, hi, rfl⟩⟩
  simp [startInit, emit, opened]

/-- Settles O44: each timer event that the pulse awaits, and the wait. -/
theorem resetPulseAwaitsTimers : Obligations.ResetPulseAwaitsTimers := fun _ _ hst =>
  ⟨step_timerLow hst, step_timerHigh hst, fun hb hi => step_i0Rst_waits ⟨hb, hi, hst⟩⟩

/-! ## INIT's steps -/

/-- A good answer to the current step's frame: the step takes its byte (40_register_access.md R133). -/
theorem step_takes {st : SeqStep} {s : State} {f : Frame} {a : Answer} {rest : List Answer} (hs : holdsAt st s)
    (hf : selectFrame { s with step := st } = some f) (hr : ∀ r ∈ stepReads st, isWritten s r = true)
    (ha : s.answers = a :: rest) (hg : answerGood a = true) :
    step s = .next (takeData (answerData a) { (afterFrames [f] [a] rest s) with step := st }) := by
  obtain ⟨hb, hi, rfl⟩ := hs
  have taken := step_listed hb hi hf hr ha
  rw [if_pos hg] at taken
  exact taken

/-- Settles O46: each step's frame, and what the step does once it is answered. -/
theorem initWritesInOrder : Obligations.InitWritesInOrder := by
  intro s ans rest ha hg
  have reads {x : WorkReg} (hw : isWritten s x = true) : ∀ r ∈ [x], isWritten s r = true := List.forall_mem_singleton.2 hw
  exact ⟨
    fun hs => step_takes hs rfl nofun ha hg,
    fun hs => step_takes hs rfl nofun ha hg,
    fun hs => step_takes hs rfl nofun ha hg,
    fun hs hw => step_takes hs rfl (reads (x := .frf) hw) ha hg,
    fun hs hw => step_takes hs rfl (reads (x := .frf) hw) ha hg,
    fun hs hw => step_takes hs rfl (reads (x := .frf) hw) ha hg,
    fun hs hw => step_takes hs rfl (reads (x := .cfg1) hw) ha hg,
    fun hs hw => step_takes hs rfl (reads (x := .cfg2) hw) ha hg,
    fun hs => step_takes hs rfl nofun ha hg⟩

/-- A failed mode write of INIT loses the tracked mode before it raises (43_mode.md R191). -/
theorem takeError_modeWrite {s : State} (hm : s.step = .i2Sleep ∨ s.step = .i5sStdby ∨ s.step = .i6Rxc) (a : Addr)
    (x : Byte) : takeError a x s = raiseError .transport a x (loseMode s) := by
  obtain hst | hst | hst := hm <;> simp only [takeError, hst, failSetMode]

/-- Every other failed transaction of INIT only raises (70_reset_and_hazards.md R310). -/
theorem takeError_initNotMode {s : State} {f : Frame} (hi : isInit s.step = true)
    (hm : ¬(s.step = .i2Sleep ∨ s.step = .i5sStdby ∨ s.step = .i6Rxc)) (hf : selectFrame s = some f)
    (a : Addr) (x : Byte) : takeError a x s = raiseError .transport a x s := by
  cases hst : s.step <;> simp only [hst, isInit, reduceCtorEq] at hi <;> simp only [takeError, hst, failInit]
  case i0Rst => simp [selectFrame, hst] at hf
  case i2Sleep | i5sStdby | i6Rxc => simp [hst] at hm

/-- A TransportError in a step of INIT stops it at that step, and a mode write loses the tracked mode
(70_reset_and_hazards.md R310, 43_mode.md R191). -/
theorem takeError_initStep {s : State} {f : Frame} (ho : s.owner = .command) (hi : isInit s.step = true)
    (hf : selectFrame s = some f) (a : Addr) (x : Byte) :
    takeError a x s = failed (errWord ⟨.transport, false, s.step, a, x⟩)
      { s with modev := if s.step = .i2Sleep ∨ s.step = .i5sStdby ∨ s.step = .i6Rxc then false else s.modev } := by
  by_cases hm : s.step = .i2Sleep ∨ s.step = .i5sStdby ∨ s.step = .i6Rxc
  · rw [takeError_modeWrite hm, raiseError_failed (s := loseMode s) ho (by decide), if_pos hm]
    rfl
  · rw [takeError_initNotMode hi hm hf, raiseError_failed ho (by decide), if_neg hm]

/-- Settles O47: the exchange, and then the error's record. -/
theorem initStopsAtTransportError : Obligations.InitStopsAtTransportError := by
  intro s f ans rest hb hi ho hinit hw hf ha hg
  rw [step_listed hb hi hf hw ha, if_neg (by simp [hg])]
  exact congrArg _ (takeError_initStep (s := afterFrames [f] [ans] rest s) ho hinit hf _ _)

/-- Another version than the expected one is IDENT, and the block is HALTED (70_reset_and_hazards.md R312). -/
theorem takeI1Ver_unexpected {s : State} {d : Byte} (ho : s.owner = .command) (hd : d ≠ s.cfg.expectedVersion) :
    takeI1Ver d s = failed (errWord ⟨.ident, false, s.step, s.cfg.regAddr.version, d⟩)
      { s with ver := Reg.holding d, phase := .halted, pend := false } := by
  rw [takeI1Ver, if_neg hd]
  exact raiseError_failed (s := { s with ver := Reg.holding d, phase := .halted, pend := false }) ho (by decide) _ _

/-- Settles O45: the expected version, another one, and a bad answer, which stops INIT as at its other steps (O47). -/
theorem wrongVersionHalts : Obligations.WrongVersionHalts := by
  intro s ans rest hs ho ha
  refine ⟨step_i1Ver_expected hs ha, fun hg hv => ?_, fun hg => ?_⟩
  · rw [step_takes hs rfl nofun ha hg]
    exact congrArg _ (takeI1Ver_unexpected (s := { (afterFrames [_] [ans] rest s) with step := .i1Ver }) ho hv)
  · obtain ⟨hb, hi, hst⟩ := hs
    have stops := initStopsAtTransportError s (.read s.cfg.regAddr.version) ans rest hb hi ho (by simp [hst, isInit])
      (by simp [hst, stepReads]) (by simp [selectFrame, hst]) ha hg
    simpa [hst, afterFrames] using stops

/-! ## Entering RUN -/

/-- An error leaves PHASE alone (60_exceptions.md R271). -/
@[simp] theorem raiseError_phase (c : ErrCode) (a : Addr) (x : Byte) (s : State) : (raiseError c a x s).phase = s.phase := by
  cases ho : s.owner with
  | command => rw [raiseError_command ho]; rfl
  | service => rw [raiseError_service ho]

/-- A TransportError leaves PHASE alone, in a mode write too (70_reset_and_hazards.md R310). -/
theorem takeError_phase (a : Addr) (x : Byte) (s : State) : (takeError a x s).phase = s.phase := by
  cases hst : s.step <;> simp only [takeError, hst]
  case s8Ack => rfl
  case i2Sleep | i5sStdby | i6Rxc => exact raiseError_phase _ _ _ (loseMode s)
  case cmd =>
    unfold jobFails
    split
    · rfl
    · rename_i j _
      obtain ⟨v, hl⟩ := jobLoses_moves j.kind s
      rw [hl]
      exact raiseError_phase _ _ _ { s with modev := v }
  all_goals exact raiseError_phase _ _ _ s

/-- No step without a transaction moves PHASE. -/
theorem internalStep_phase (s : State) : (internalStep s).phase = s.phase := by
  cases hst : s.step <;> simp only [internalStep, hst]
  case s3Burst => rfl
  case s4Split =>
    unfold stepS4Split
    split
    · exact raiseError_phase _ _ _ s
    · rfl

/-- A command in progress moves no PHASE. -/
theorem jobTakes_phase (d : Byte) (s : State) : (jobTakes d s).phase = s.phase := by
  unfold jobTakes
  split
  · rfl
  · rename_i j _
    split
    · rfl
    · obtain ⟨v, m, h⟩ := jobTracks_moves j.kind s
      rw [h]
      rfl

/-- If the block is in RUN after the step, it was before. -/
def EntersNoRun (s t : State) : Prop := t.phase = .run → s.phase = .run

theorem EntersNoRun.of_eq {s t : State} (h : t.phase = s.phase) : EntersNoRun s t := h.symm.trans

theorem EntersNoRun.of_ne {s t : State} (h : t.phase ≠ .run) : EntersNoRun s t := fun hr => absurd hr h

/-- I1_VER halts the block or leaves PHASE alone (70_reset_and_hazards.md R312). -/
theorem takeI1Ver_entersNoRun (d : Byte) (s : State) : EntersNoRun s (takeI1Ver d s) := by
  unfold takeI1Ver
  split
  · exact .of_eq rfl
  · exact .of_ne (by simp)

/-- Every step but I6_RXC that takes its transaction's byte stays out of RUN (70_reset_and_hazards.md R318). -/
theorem takeData_entersNoRun {s : State} (hs : s.step ≠ .i6Rxc) (d : Byte) : EntersNoRun s (takeData d s) := by
  cases hst : s.step <;> simp only [takeData, hst]
  case i1Ver => exact takeI1Ver_entersNoRun d s
  case cmd => exact .of_eq (jobTakes_phase d s)
  case i6Rxc => exact absurd hst hs
  all_goals exact .of_eq rfl

/-- No input event enters RUN: SHUTDOWN halts, BLOCK_RESET goes to IDLE, and the others leave PHASE alone. -/
theorem takeInput_entersNoRun (e : Input) (s : State) : EntersNoRun s (takeInput e s) := by
  cases e with
  | shutdown | shutdownInFlight | blockReset => exact .of_ne nofun
  | quiet | offer o => exact .of_eq rfl
  | irqSample level => simp only [takeInput, sampleIrq]; split <;> exact .of_eq rfl
  | timerLow => simp only [takeInput, timerLowDone]; split <;> exact .of_eq rfl
  | timerHigh => simp only [takeInput, timerHighDone]; split <;> exact .of_eq rfl

/-- Accepting a command leaves PHASE alone, or is INIT's start, which goes to IDLE (70_reset_and_hazards.md R310). -/
theorem acceptOffer_entersNoRun {o : Offer} {rest : List Offer} {s t : State} (hb : s.busy = false)
    (h : acceptOffer o rest s = .next t) : EntersNoRun s t := by
  obtain ⟨cw, ⟨r, e, rfl⟩ | ⟨-, k, f, fs, -, rfl⟩ | ⟨-, p, frf, rfl⟩⟩ := acceptOffer_cases hb h
  · exact .of_eq rfl
  · exact .of_eq rfl
  · exact .of_ne nofun

/-- INIT's last step is done: the lock is free, and ReceiveContinuous is tracked (70_reset_and_hazards.md R318). -/
def InitDone (s t : State) : Prop :=
  s.step = .i6Rxc ∧ t.step = .none ∧ t.modev = true ∧ t.mode = s.cfg.modeCode.receiveContinuous

/-- A transaction enters RUN only where it is I6_RXC's, whose good answer completes INIT (70_reset_and_hazards.md R318). -/
theorem performFrame_entersNoRun (f : Frame) (s : State) :
    InitDone s (performFrame f s) ∨ EntersNoRun s (performFrame f s) := by
  obtain ⟨as, n, c, l, bs, -, ⟨d, hd⟩ | ⟨x, hx⟩⟩ := performFrame_cases f s
  · rw [hd]
    by_cases hst : s.step = .i6Rxc
    · refine .inl ?_
      simp only [takeData, hst]
      exact ⟨hst, rfl, rfl, rfl⟩
    · exact .inr (takeData_entersNoRun (s := { s with answers := as, draws := n, chip := c, history := _ }) hst d)
  · rw [hx]
    exact .inr (.of_eq (takeError_phase _ _ _))

/-- A step is INIT's last, or it stays out of RUN. -/
theorem step_entersNoRun {s t : State} (hstep : step s = .next t) : InitDone s t ∨ EntersNoRun s t := by
  obtain ⟨e, rest, -, -, rfl⟩ | ⟨f, rest, -, -, -, -, rfl⟩ | ⟨r, hr, own⟩ := step_cases hstep
  · exact .inr (takeInput_entersNoRun e { s with inputs := rest })
  · exact .inr (.of_ne nofun)
  · suffices h : InitDone r t ∨ EntersNoRun r t by
      obtain ⟨rfl, -⟩ | ⟨rest, -, rfl⟩ := hr <;> exact h
    obtain ⟨f, -, -, -, rfl⟩ | ⟨-, -, -, rfl⟩ | ⟨-, -, gs, n, rfl⟩ | ⟨hb, o, rest, gs, n, -, ha⟩ | ⟨-, -, -, rfl⟩ := own
    · exact performFrame_entersNoRun f r
    · exact .inr (.of_eq (internalStep_phase r))
    · exact .inr (.of_eq rfl)
    · exact .inr (acceptOffer_entersNoRun (s := { r with grants := gs, grantDraws := n }) hb ha)
    · exact .inr (.of_eq rfl)

/-- Settles O52: every step stays out of RUN, but for INIT's last. -/
theorem runOnlyEnteredByInit : Obligations.RunOnlyEnteredByInit := fun _ _ hstep hrun hnot =>
  (step_entersNoRun hstep).resolve_right fun h => hnot (h hrun)

end Sys2Proof.Machine
